-- ==== Sys2Proof/Word.lean ====
section
/-! DEFINITION. The words of the block: the bus byte, the 16-bit registers and the 64-bit patterns
that hold binary64 values (00_scope.md R12). Every integer of the block is unsigned; a 64-bit
pattern is data until `Machine/Float.lean` reads it as a number. -/

namespace Sys2Proof

/-- One byte of the command bus, or of a reply (R35: `RX_BYTE`, `TX_READ`). -/
abbrev Byte := BitVec 8

/-- `u16`: the duty, compare and watchdog registers (R11 `DUTY_W`, `WD_W`). -/
abbrev Half := BitVec 16

/-- `f64`: a 64-bit pattern read as an IEEE-754 binary64 value (R12, R55). -/
abbrev F64 := BitVec 64

/-- `IDX_W`: a sensor index, 0..63 (R11, R21). -/
abbrev SensorIndex := BitVec 6

/-- The pattern of `+0.0` (R14). -/
def posZero : F64 := 0x0000000000000000#64

end Sys2Proof
end

