-- ==== Sys2Proof/Syntax.lean ====
section
/-! DEFINITION. The block's instructions: the command frames of 30_encoding.md (R48-R53), one
constructor of `Instr` for each row of opcode_table.json. -/

namespace Sys2Proof

/-- The two motor channels: A is index 0 and B is index 1 (R3, R14). -/
inductive ChannelId where
  | a | b
  deriving DecidableEq, Repr

/-- The eleven defined opcodes (R49, R56). -/
inductive Opcode where
  | stop | reset | pause | go
  | setChannelMode
  | setTarget | setP | setI | setD
  | getFirmwareVersion | getMessages
  deriving DecidableEq, Repr

/-- A complete command: its opcode and the value of every payload field (R50-R53). Every value of
every field is legal (R57), and the types hold no other. -/
inductive Instr where
  /-- STOP, 0x00 (R103). -/
  | stop
  /-- RESET, 0x01 (R104). -/
  | reset
  /-- PAUSE, 0x02 (R105). -/
  | pause
  /-- GO, 0x03: the timeout in ticks (R106). -/
  | go (t : Half)
  /-- SET_CHANNEL_MODE, 0x10: channel select, closed-loop enable and sensor index (R52, R108). The
  index is a field of the frame also when `cle` is false, where it is ignored. -/
  | setChannelMode (ch : ChannelId) (cle : Bool) (idx : SensorIndex)
  /-- SET_TARGET, 0x20 (R109). -/
  | setTarget (x : F64)
  /-- SET_P, 0x21 (R110). -/
  | setP (x : F64)
  /-- SET_I, 0x22 (R110). -/
  | setI (x : F64)
  /-- SET_D, 0x23 (R110). -/
  | setD (x : F64)
  /-- GET_FIRMWARE_VERSION, 0x40 (R114). -/
  | getFirmwareVersion
  /-- GET_MESSAGES, 0x41 (R115). -/
  | getMessages
  deriving DecidableEq, Repr

/-- A command frame as the bus carries it: one opcode byte and its payload bytes (R48). -/
structure Frame where
  op : Byte
  payload : List Byte
  deriving DecidableEq, Repr

end Sys2Proof
end

