-- ==== Sys2Proof/Decode.lean ====
section
/-! DEFINITION. The decoder and the encoder of command frames (30_encoding.md): the opcode map (R49,
R56), payload assembly (R38, R54), a decoder total on any bytes that rejects by name, and the
encoder written from the same tables. -/

namespace Sys2Proof

/-! ### The opcode map -/

/-- The opcode byte of each defined opcode (R49). -/
def Opcode.code : Opcode → Byte
  | .stop => 0x00#8
  | .reset => 0x01#8
  | .pause => 0x02#8
  | .go => 0x03#8
  | .setChannelMode => 0x10#8
  | .setTarget => 0x20#8
  | .setP => 0x21#8
  | .setI => 0x22#8
  | .setD => 0x23#8
  | .getFirmwareVersion => 0x40#8
  | .getMessages => 0x41#8

/-- `LEN(op)` on the defined opcodes: formats Z, W, M and F (R49). -/
def Opcode.len : Opcode → Nat
  | .stop => 0
  | .reset => 0
  | .pause => 0
  | .go => 2
  | .setChannelMode => 1
  | .setTarget => 8
  | .setP => 8
  | .setI => 8
  | .setD => 8
  | .getFirmwareVersion => 0
  | .getMessages => 0

/-- The opcode a byte is, the whole byte compared (R56: mask 0xFF, no opcode bit is a field);
`none` on the 245 unknown values (R57). -/
def opcodeOf (b : Byte) : Option Opcode :=
  if b = 0x00#8 then some .stop
  else if b = 0x01#8 then some .reset
  else if b = 0x02#8 then some .pause
  else if b = 0x03#8 then some .go
  else if b = 0x10#8 then some .setChannelMode
  else if b = 0x20#8 then some .setTarget
  else if b = 0x21#8 then some .setP
  else if b = 0x22#8 then some .setI
  else if b = 0x23#8 then some .setD
  else if b = 0x40#8 then some .getFirmwareVersion
  else if b = 0x41#8 then some .getMessages
  else none

/-- `LEN(b)`, defined on the eleven defined opcodes only (R49). -/
def payloadLen (b : Byte) : Option Nat := (opcodeOf b).map Opcode.len

/-! ### Payload assembly -/

/-- `u16_le`: the first payload byte is the least significant (R38, R54). -/
def u16le (p0 p1 : Byte) : Half := p1 ++ p0

/-- `f64_le`: eight bytes, least significant first, stored unchanged (R38, R54). -/
def f64le (p0 p1 p2 p3 p4 p5 p6 p7 : Byte) : F64 :=
  p7 ++ p6 ++ p5 ++ p4 ++ p3 ++ p2 ++ p1 ++ p0

/-- The channel that channel-select bit 7 names: "0=A,1=B" (R52). -/
def channelOfBit (b : Bool) : ChannelId := if b then .b else .a

/-- The channel-select bit of a channel (R52). -/
def ChannelId.bit : ChannelId → Bool
  | .a => false
  | .b => true

/-- `mode(p0)`: CH = p0[7], CLE = p0[6], IDX = p0[5:0] (R52, R54). -/
def modeOfByte (p0 : Byte) : Instr :=
  .setChannelMode (channelOfBit (p0.getLsbD 7)) (p0.getLsbD 6) (p0.extractLsb' 0 6)

/-- The mode byte of the three fields, the inverse of `modeOfByte` (R52). -/
def modeByte (ch : ChannelId) (cle : Bool) (idx : SensorIndex) : Byte :=
  BitVec.ofBool ch.bit ++ BitVec.ofBool cle ++ idx

/-- Byte `i` of a 64-bit pattern, byte 0 the least significant (R38). -/
def byteOf (x : F64) (i : Nat) : Byte := x.extractLsb' (8 * i) 8

/-- The eight payload bytes of a binary64 pattern, least significant first (R53). -/
def f64Bytes (x : F64) : List Byte :=
  [byteOf x 0, byteOf x 1, byteOf x 2, byteOf x 3, byteOf x 4, byteOf x 5, byteOf x 6, byteOf x 7]

/-! ### The decoder -/

/-- Why a byte sequence is not the beginning of a frame. -/
inductive DecodeError where
  /-- There is no byte at all. -/
  | noOpcode
  /-- The first byte is one of the 245 unknown opcodes (R57, code 0x01 UNKNOWN_OPCODE). -/
  | unknownOpcode (op : Byte)
  /-- The payload ends before its declared length (R96, code 0x02 SHORT_FRAME). -/
  | shortFrame (op : Byte)
  deriving DecidableEq, Repr

/-- The instruction of a complete frame: its opcode, and payload byte `i` as `p i` for every `i` below
`LEN(op)`; no other `p i` is read (R50-R54). -/
def Opcode.instr (o : Opcode) (p : Nat → Byte) : Instr :=
  match o with
  | .stop => .stop
  | .reset => .reset
  | .pause => .pause
  | .go => .go (u16le (p 0) (p 1))
  | .setChannelMode => modeOfByte (p 0)
  | .setTarget => .setTarget (f64le (p 0) (p 1) (p 2) (p 3) (p 4) (p 5) (p 6) (p 7))
  | .setP => .setP (f64le (p 0) (p 1) (p 2) (p 3) (p 4) (p 5) (p 6) (p 7))
  | .setI => .setI (f64le (p 0) (p 1) (p 2) (p 3) (p 4) (p 5) (p 6) (p 7))
  | .setD => .setD (f64le (p 0) (p 1) (p 2) (p 3) (p 4) (p 5) (p 6) (p 7))
  | .getFirmwareVersion => .getFirmwareVersion
  | .getMessages => .getMessages

/-- The first frame of a byte sequence and the bytes after it (a write frame may carry several
commands back to back, R97). Total on any bytes. -/
def decode : List Byte → Except DecodeError (Instr × List Byte)
  | [] => .error .noOpcode
  | op :: rest =>
    match opcodeOf op with
    | none => .error (.unknownOpcode op)
    | some o =>
      if rest.length < o.len then .error (.shortFrame op)
      else .ok (o.instr (fun i => rest.getD i 0x00#8), rest.drop o.len)

/-! ### The encoder -/

/-- The opcode of an instruction (R49). -/
def Instr.opcode : Instr → Opcode
  | .stop => .stop
  | .reset => .reset
  | .pause => .pause
  | .go _ => .go
  | .setChannelMode _ _ _ => .setChannelMode
  | .setTarget _ => .setTarget
  | .setP _ => .setP
  | .setI _ => .setI
  | .setD _ => .setD
  | .getFirmwareVersion => .getFirmwareVersion
  | .getMessages => .getMessages

/-- The payload bytes of an instruction, in transmission order (R50-R54). -/
def Instr.payload : Instr → List Byte
  | .stop => []
  | .reset => []
  | .pause => []
  | .go t => [t.extractLsb' 0 8, t.extractLsb' 8 8]
  | .setChannelMode ch cle idx => [modeByte ch cle idx]
  | .setTarget x => f64Bytes x
  | .setP x => f64Bytes x
  | .setI x => f64Bytes x
  | .setD x => f64Bytes x
  | .getFirmwareVersion => []
  | .getMessages => []

/-- The frame of an instruction: its opcode byte, then its payload (R48, R60). -/
def encode (i : Instr) : List Byte := i.opcode.code :: i.payload

/-! ### Words as the opcode table numbers them -/

/-- The first `n` bytes of a number, byte 0 (bits 7..0) first. -/
def leBytes : Nat → Nat → List Byte
  | 0, _ => []
  | n + 1, w => BitVec.ofNat 8 w :: leBytes n (w / 256)

/-- The nine bytes of the longest frame (format F) from a table word of `nbits` bits, every bit above
`nbits` being 0, in transmission order. -/
def tableBytes (nbits w : Nat) : List Byte := leBytes 9 (w % 2 ^ nbits)

/-- The instruction the decoder reads from a table word. -/
def decodeTableWord (nbits w : Nat) : Option Instr :=
  match decode (tableBytes nbits w) with
  | .ok (i, _) => some i
  | .error _ => none

end Sys2Proof
end

