-- ==== Sys2Proof/Config.lean ====
section
/-! DEFINITION. What an implementation of the block fixes (00_scope.md R11, the OPEN parameters) and
the one value the spec leaves free inside a transition: which NaN an operation that yields a NaN
yields (42_pid_engine.md R77). Both are opaque: nothing in Lean can evaluate them, so a claim about
the block holds for every value of them. -/

namespace Sys2Proof

/-- The four OPEN parameters of R11 that are numbers. Three have a bounded range that does not start
at 0; the field holds the value less one, so that every value of the type is a legal parameter. -/
structure Params where
  /-- `MAX_DUTY - 1`, with `MAX_DUTY` in 1..65535 (R11; D9). -/
  maxDutyPred : Fin 65535
  /-- `OUTPUT_SCALE`'s pattern less one: the positive finite binary64 patterns are exactly
  1..0x7FEFFFFFFFFFFFFF (R11, R55; D8). -/
  outputScalePred : Fin 0x7FEFFFFFFFFFFFFF
  /-- `MSGQ_DEPTH - 1`, with `MSGQ_DEPTH` in 1..127 (R11; D20). -/
  msgqDepthPred : Fin 127
  /-- `FW_VERSION` (R11; D22). -/
  fwVersion : Half
  deriving DecidableEq, Repr, Inhabited

namespace Params

/-- `MAX_DUTY`, the clamp bound of `DUTY`: 1..65535 (R11; D9). -/
def maxDuty (P : Params) : Half := BitVec.ofNat 16 (P.maxDutyPred.val + 1)

/-- `OUTPUT_SCALE`, the factor from correction to duty counts: positive and finite (R11; D8). -/
def outputScale (P : Params) : F64 := BitVec.ofNat 64 (P.outputScalePred.val + 1)

/-- `MSGQ_DEPTH`, the capacity of the message queue: 1..127 (R11; D20). -/
def msgqDepth (P : Params) : Nat := P.msgqDepthPred.val + 1

end Params

/-- One NaN of the 2^53 - 2 there are: its sign and its fraction less one, the fraction of a NaN
being nonzero (R55). -/
structure NanBits where
  sign : Bool
  fractionPred : Fin 0xFFFFFFFFFFFFF
  deriving DecidableEq, Repr, Inhabited

/-- The operations of one evaluation that can yield a NaN (R78 and R72), so that each draws its own. -/
inductive NanSite where
  | error | integral | derivative
  | proportionalTerm | integralTerm | derivativeTerm
  | partialSum | correction | scaled
  deriving DecidableEq, Repr

/-- The parameters of the block at hand: fixed, and not known (R11; log entry 5). -/
opaque Config.params : Params

/-- FREE VALUE (log entry 3): "a NaN result may be any NaN" (R77, D5; 93_implementation_defined.md item
14). The
number is `State.nanDraws`, which every PID step advances, so that no two results need share one. -/
opaque Config.freeNan : Nat → NanSite → NanBits

end Sys2Proof
end

