-- ==== Sys2Proof/Machine/State.lean ====
section
/-! DEFINITION. The block's state as plain data: every register of 10_state.md, the event history of
20_memory.md R37, and the model's own two fields (the inputs still to come, and the counter of the
free NaN draws). The block has no memory and no program counter (R17, R33). -/

namespace Sys2Proof.Machine

/-- `Forward|Reverse` (R14, R19). -/
inductive Direction where
  | forward | reverse
  deriving DecidableEq, Repr

/-- What the measurement oracle answers: a binary64 pattern, any one, or INVALID (R36). -/
inductive Measurement where
  | value (x : F64)
  | invalid
  deriving DecidableEq, Repr

/-- An entry of the diagnostic message queue (R27). -/
structure Message where
  code : Byte
  detail : Byte
  deriving DecidableEq, Repr

/-- The states of the command receiver (R26). -/
inductive RxState where
  | idle | payload | discard
  deriving DecidableEq, Repr

/-- The output events of R37. -/
inductive Event where
  /-- A write to `PWM_CMP[ch]` and `DIR_OUT[ch]`; the direction as the bit on the pin (R14, R37). -/
  | pwmWrite (ch : ChannelId) (cmp : Half) (dir : BitVec 1)
  /-- One `Meas` call and what it returned (R37, R70). -/
  | measRead (ch : ChannelId) (i : SensorIndex) (result : Measurement)
  /-- A byte returned to the master (R116). -/
  | txByte (b : Byte)
  /-- R83. -/
  | annRefresh
  /-- R84. -/
  | annActivity (op : Byte)
  /-- R85. -/
  | annProtoError (code detail : Byte)
  /-- R86. -/
  | annExpired
  /-- R87. -/
  | annReset
  deriving DecidableEq, Repr

/-- The input events of R35, one atomic transition each (R41). -/
inductive Input where
  /-- A `TICK` strobe, with what the oracle answers in it should channel A or channel B ask. A
  channel asks at most once a Tick (R67, R70), and the answers are free (R36), so the two values are
  the oracle's whole part in a Tick (log entry 1). -/
  | tick (measA measB : Measurement)
  /-- `RX_BYTE(b)`. -/
  | rxByte (b : Byte)
  /-- `RX_END`. -/
  | rxEnd
  /-- `TX_READ`. -/
  | txRead
  deriving DecidableEq, Repr

/-- The registers of one channel (R18-R23). -/
structure Channel where
  /-- `DUTY[ch]`, 16 bits (R18). -/
  duty : Half
  /-- `DIR[ch]`, 1 bit (R19). -/
  dir : Direction
  /-- `CL[ch]`, 1 bit: true is ClosedLoop (R20). -/
  cl : Bool
  /-- `SENSOR[ch]`, 6 bits (R21). -/
  sensor : SensorIndex
  /-- `KP[ch]`, 64 bits (R22). -/
  kp : F64
  /-- `KI[ch]`, 64 bits (R22). -/
  ki : F64
  /-- `KD[ch]`, 64 bits (R22). -/
  kd : F64
  /-- `TARGET[ch]`, 64 bits (R22). -/
  target : F64
  /-- `EPREV[ch]`, 64 bits (R22). -/
  eprev : F64
  /-- `EINT[ch]`, 64 bits (R22). -/
  eint : F64
  /-- `PWM_CMP[ch]`, the 16-bit output latch (R23). -/
  pwmCmp : Half
  /-- `DIR_OUT[ch]`, the 1-bit output latch (R23). -/
  dirOut : Direction
  deriving DecidableEq, Repr

/-- Everything the spec gives the block. -/
structure State where
  /-- The registers of channel A. -/
  chA : Channel
  /-- The registers of channel B. -/
  chB : Channel
  /-- `ARMED`, 1 bit (R24). -/
  armed : Bool
  /-- `WD_COUNT`, 16 bits (R24). -/
  wdCount : Half
  /-- `SEL`, 1 bit: the addressed channel (R25). -/
  sel : ChannelId
  /-- `RX_STATE` (R26). -/
  rxState : RxState
  /-- `RX_OP`, 8 bits (R26). -/
  rxOp : Byte
  /-- `RX_CNT`, an integer 0..8 (R26). -/
  rxCnt : Nat
  /-- `RX_BUF[0..7]`, eight bytes (R26). -/
  rxBuf : Vector Byte 8
  /-- `MSGQ`, oldest first (R27). -/
  msgq : List Message
  /-- `MSGQ_OVF`, 1 bit (R27). -/
  msgqOvf : Bool
  /-- `REPLY` (R28). -/
  reply : List Byte
  /-- `REPLY_PTR`, the index of the next byte to send (R28). -/
  replyPtr : Nat
  /-- The event history, oldest first, append-only (R37). -/
  history : List Event
  /-- THE MODEL'S OWN (DESIGN CHOICE, log entry 2): the inputs that will arrive, in the order in which
  they do (R41, R42). -/
  inputs : List Input
  /-- THE MODEL'S OWN (DESIGN CHOICE, log entries 3 and 4): how many PID steps have drawn their free
  NaNs (R77). -/
  nanDraws : Nat
  deriving DecidableEq, Repr

/-- Why a step stops. No input of the block faults (R46, R99); each of these is raised by the
receiver in a state that the invariant of R31 item 5 rules out, in which the pseudocode of R95 reads
something that does not exist (log entry 7). Both are safe: the model stops, and claims nothing. -/
inductive Fault where
  /-- Raised by RxByte in PAYLOAD where `RX_OP` is no defined opcode, so that `LEN(RX_OP)` has no
  value (R49, R95). Safe: no run from reset reaches such a state. -/
  | payloadLengthUndefined
  /-- Raised by RxByte in PAYLOAD where `RX_CNT` is 8 or more, so that `RX_BUF[RX_CNT]` does not exist
  (R26, R95). Safe: no run from reset reaches such a state. -/
  | stagingIndexOutOfRange
  deriving DecidableEq, Repr

/-- Why an instruction has no meaning. -/
inductive Refusal where
  /-- Raised by `exec` for an instruction that is not modelled yet, by its mnemonic. Safe. No arm of
  this model raises it. -/
  | notModelled (mnemonic : String)
  deriving DecidableEq, Repr

/-- What one step, one input or one command answers. -/
abbrev Result := Host.Outcome State Fault Refusal

/-- A channel after power-on reset (R129). -/
def Channel.reset : Channel where
  duty := 0#16
  dir := .forward
  cl := false
  sensor := 0#6
  kp := posZero
  ki := posZero
  kd := posZero
  target := posZero
  eprev := posZero
  eint := posZero
  pwmCmp := 0#16
  dirOut := .forward

/-- The block after power-on reset: every value of R129. The model's own fields: no input has been
supplied, and no free NaN has been drawn (log entries 2 and 4). -/
def State.reset : State where
  chA := Channel.reset
  chB := Channel.reset
  armed := false
  wdCount := 0#16
  sel := .a
  rxState := .idle
  rxOp := 0x00#8
  rxCnt := 0
  rxBuf := #v[0x00#8, 0x00#8, 0x00#8, 0x00#8, 0x00#8, 0x00#8, 0x00#8, 0x00#8]
  msgq := []
  msgqOvf := false
  reply := []
  replyPtr := 0
  history := []
  inputs := []
  nanDraws := 0

end Sys2Proof.Machine
end

