-- ==== Sys2Proof/Machine/Flags.lean ====
section
/-! DEFINITION. The block's status bits and what sets and clears them (10_state.md R29): `ARMED`,
`CL[ch]`, `DIR[ch]` and `MSGQ_OVF`. The block has no condition codes. -/

namespace Sys2Proof.Machine

/-- The bit of a direction: Forward is 0 and Reverse is 1 (R14). -/
def Direction.bit : Direction → BitVec 1
  | .forward => 0#1
  | .reverse => 1#1

/-- `ARMED <- 1` with the timeout loaded (R106). -/
def State.arm (s : State) (t : Half) : State := { s with armed := true, wdCount := t }

/-- `ARMED <- 0`, `WD_COUNT <- 0` (R76). -/
def State.disarm (s : State) : State := { s with armed := false, wdCount := 0#16 }

/-- The header byte of a GET_MESSAGES reply: `{MSGQ_OVF, N[6:0]}` (R59, R115). -/
def messageHeader (ovf : Bool) (n : Nat) : Byte := BitVec.ofBool ovf ++ BitVec.ofNat 7 n

end Sys2Proof.Machine
end

