-- ==== Sys2Proof/Machine/Ops.lean ====
section
/-! DEFINITION. The named operations over the registers: the accessors of the per-channel registers,
the event history (R37), `ClearPid` (R107), `WriteActuation` (R74), `ForceStop` (R76) and
`LogMessage` (R112).

The block has no trap: no vector, no saved state, no return (R120, R121). In place of taking an
exception stand the two actions of R117, each written once here: a protocol error is logged
(`State.logMessage`), and an expired watchdog forces a stop (`State.forceStop`). What ends the
condition is an ordinary input, so there is no return operation either. -/

namespace Sys2Proof.Machine

/-- The registers of a channel (R3). -/
def State.chan (s : State) : ChannelId → Channel
  | .a => s.chA
  | .b => s.chB

/-- Writes the registers of a channel. -/
def State.setChan (s : State) (ch : ChannelId) (c : Channel) : State :=
  match ch with
  | .a => { s with chA := c }
  | .b => { s with chB := c }

/-- `Emit(ev)`: appends an event to the history (R13, R37). -/
def State.emit (s : State) (e : Event) : State := { s with history := s.history ++ [e] }

/-- `ClearPid`: `+0.0` into all six PID registers of a channel (R107). -/
def Channel.clearPid (c : Channel) : Channel :=
  { c with
    kp := posZero, ki := posZero, kd := posZero
    target := posZero, eprev := posZero, eint := posZero }

/-- `WriteActuation(ch)`: copies duty and direction to the output latches (R74). -/
def State.writeActuation (s : State) (ch : ChannelId) : State :=
  let c := s.chan ch
  (s.setChan ch { c with pwmCmp := c.duty, dirOut := c.dir }).emit (.pwmWrite ch c.duty c.dir.bit)

/-- One channel's turn of the loop of `ForceStop` (R76). -/
def State.forceStopChannel (s : State) (ch : ChannelId) : State :=
  let c := s.chan ch
  (s.setChan ch { c with duty := 0#16, eint := posZero, pwmCmp := 0#16 }).emit
    (.pwmWrite ch 0#16 c.dirOut.bit)

/-- `ForceStop()`: the block's pause effect, used by STOP, PAUSE, RESET and watchdog expiry (R76). -/
def State.forceStop (s : State) : State :=
  ((s.forceStopChannel .a).forceStopChannel .b).disarm

/-- `LogMessage(code, detail)`: records one protocol error, and drops it with `MSGQ_OVF` set where the
queue is full (R112). -/
def State.logMessage (s : State) (P : Params) (code detail : Byte) : State :=
  let s := s.emit (.annProtoError code detail)
  if s.msgq.length < P.msgqDepth then { s with msgq := s.msgq ++ [⟨code, detail⟩] }
  else { s with msgqOvf := true }

/-- UNKNOWN_OPCODE (R113). -/
def unknownOpcodeCode : Byte := 0x01#8

/-- SHORT_FRAME (R113). -/
def shortFrameCode : Byte := 0x02#8

end Sys2Proof.Machine
end

