-- ==== Sys2Proof/Machine/Operands.lean ====
section
/-! DEFINITION. The operand forms of the commands: the channel that SET_TARGET, SET_P, SET_I and SET_D
address through `SEL` (R25, R109, R110), and the payload bytes staged in `RX_BUF` (R26, R54, R101).
The payload fields themselves are assembled in `Decode.lean`. -/

namespace Sys2Proof.Machine

/-- Payload byte `i` as it stands in the staging buffer (R54). A frame has at most eight (R49), so no
index past 7 is read (`Opcode.instr`). -/
def stagedByte (buf : Vector Byte 8) (i : Nat) : Byte := buf[i]?.getD 0x00#8

/-- A write to a PID register of the addressed channel `SEL`: made where that channel is closed-loop,
discarded without a trace where it is not (R22, R109, R110). -/
def State.writeAddressed (s : State) (write : Channel → Channel) : State :=
  if (s.chan s.sel).cl then s.setChan s.sel (write (s.chan s.sel)) else s

end Sys2Proof.Machine
end

