-- ==== Sys2Proof/Machine/Configuration.lean ====
section
/-! DEFINITION. The configuration commands SET_CHANNEL_MODE, SET_TARGET, SET_P, SET_I and SET_D
(47_config_commands.md R107-R110). -/

namespace Sys2Proof.Machine

/-- What SET_CHANNEL_MODE does to the selected channel's registers, by the enable bit and the present
mode (R108): a change of mode clears the controller and the duty, closed to closed keeps both and
changes the index, and open-loop has index 0 whatever `idx` is. -/
def Channel.setMode (c : Channel) (cle : Bool) (idx : SensorIndex) : Channel :=
  match cle, c.cl with
  | true, false => { c.clearPid with duty := 0#16, cl := true, sensor := idx }
  | true, true => { c with sensor := idx }
  | false, true => { c.clearPid with duty := 0#16, cl := false, sensor := 0#6 }
  | false, false => { c with sensor := 0#6 }

/-- SET_CHANNEL_MODE (R108). -/
def execSetChannelMode (ch : ChannelId) (cle : Bool) (idx : SensorIndex) (s : State) : Result :=
  .next ({ s with sel := ch }.setChan ch ((s.chan ch).setMode cle idx))

/-- SET_TARGET (R109). -/
def execSetTarget (x : F64) (s : State) : Result :=
  .next (s.writeAddressed fun c => { c with target := x })

/-- SET_P (R110). -/
def execSetP (x : F64) (s : State) : Result :=
  .next (s.writeAddressed fun c => { c with kp := x })

/-- SET_I (R110). -/
def execSetI (x : F64) (s : State) : Result :=
  .next (s.writeAddressed fun c => { c with ki := x })

/-- SET_D (R110). -/
def execSetD (x : F64) (s : State) : Result :=
  .next (s.writeAddressed fun c => { c with kd := x })

end Sys2Proof.Machine
end

