-- ==== Sys2Proof/Machine/Motion.lean ====
section
/-! DEFINITION. The motion commands STOP, RESET, PAUSE and GO (46_motion_commands.md R103-R106). Each
runs inside the Commit of its frame, after `AnnActivity` (R98; `Machine/Receiver.lean`). -/

namespace Sys2Proof.Machine

/-- STOP (R103). -/
def execStop (s : State) : Result := .next s.forceStop

/-- One channel's turn of the loop of RESET (R104): its configuration and outputs to the defaults. -/
def State.resetChannel (s : State) (ch : ChannelId) : State :=
  (s.setChan ch
    { duty := 0#16
      dir := .forward
      cl := false
      sensor := 0#6
      kp := posZero
      ki := posZero
      kd := posZero
      target := posZero
      eprev := posZero
      eint := posZero
      pwmCmp := 0#16
      dirOut := .forward }).emit (.pwmWrite ch 0#16 Direction.forward.bit)

/-- RESET (R104): the pause first, unconditionally, then the defaults. -/
def execReset (s : State) : Result :=
  let s := (s.forceStop.resetChannel .a).resetChannel .b
  .next (State.emit { s with sel := .a } .annReset)

/-- PAUSE (R105). -/
def execPause (s : State) : Result := .next s.forceStop

/-- GO (R106). -/
def execGo (t : Half) (s : State) : Result := .next (s.arm t)

end Sys2Proof.Machine
end

