-- ==== Sys2Proof/Machine/Query.lean ====
section
/-! DEFINITION. The query commands GET_FIRMWARE_VERSION and GET_MESSAGES, and the reply read
(48_query_commands.md R114-R116). -/

namespace Sys2Proof.Machine

/-- A query's reply replaces the one before it, read or not (R114, R115). -/
def State.setReply (s : State) (bytes : List Byte) : State := { s with reply := bytes, replyPtr := 0 }

/-- The firmware version's two bytes, the low byte first (R114). -/
def versionBytes (v : Half) : List Byte := [v.extractLsb' 0 8, v.extractLsb' 8 8]

/-- The bytes of queued messages: code, then detail, oldest message first (R115). -/
def messageBytes : List Message → List Byte
  | [] => []
  | m :: ms => m.code :: m.detail :: messageBytes ms

/-- GET_FIRMWARE_VERSION (R114). -/
def execGetFirmwareVersion (s : State) : Result :=
  .next (s.setReply (versionBytes Config.params.fwVersion))

/-- GET_MESSAGES (R115): the reply, then the queue drained. -/
def execGetMessages (s : State) : Result :=
  let reply := messageHeader s.msgqOvf s.msgq.length :: messageBytes s.msgq
  .next { s.setReply reply with msgq := [], msgqOvf := false }

/-- `TxRead()` (R116). The byte goes to the master, as the event `TxByte`. -/
def State.txRead (s : State) : State :=
  if h : s.replyPtr < s.reply.length then
    { s with replyPtr := s.replyPtr + 1 }.emit (.txByte s.reply[s.replyPtr])
  else s.emit (.txByte 0x00#8)

end Sys2Proof.Machine
end

