-- ==== Sys2Proof/Machine/Dispatch.lean ====
section
/-! DEFINITION. One arm per constructor of `Instr`: the case analysis of Commit (R98). -/

namespace Sys2Proof.Machine

def exec (i : Instr) (s : State) : Host.Outcome State Fault Refusal :=
  match i with
  | .stop => Sys2Proof.Machine.execStop s
  | .reset => Sys2Proof.Machine.execReset s
  | .pause => Sys2Proof.Machine.execPause s
  | .go t => Sys2Proof.Machine.execGo t s
  | .setChannelMode ch cle idx => Sys2Proof.Machine.execSetChannelMode ch cle idx s
  | .setTarget x => Sys2Proof.Machine.execSetTarget x s
  | .setP x => Sys2Proof.Machine.execSetP x s
  | .setI x => Sys2Proof.Machine.execSetI x s
  | .setD x => Sys2Proof.Machine.execSetD x s
  | .getFirmwareVersion => Sys2Proof.Machine.execGetFirmwareVersion s
  | .getMessages => Sys2Proof.Machine.execGetMessages s

end Sys2Proof.Machine
end

