-- ==== Sys2Proof/Machine/Float.lean ====
section
/-! DEFINITION. The binary64 operations of 42_pid_engine.md R77, and no others: IEEE-754 addition,
subtraction and multiplication with roundTiesToEven, no fused operation, subnormals kept, no flag and
no trap; `fabs`, `isnan`, the quiet comparisons, `f64_of_int` and `trunc`. Each arithmetic operation
computes the exact integer result and rounds it once. A NaN result is the free NaN it is handed.

The integers count units of 2^-1074, the least positive subnormal: every finite binary64 value is a
whole number of them (R55).

PRESUMED, as the spec marks it itself: what IEEE-754 says of these operations is general knowledge
(R55, R77; 93_implementation_defined.md G1 and G2; log entry 10). -/

namespace Sys2Proof.Machine

/-! ### Reading and writing patterns (R55) -/

/-- `x[63]`. -/
def f64Sign (x : F64) : Bool := x.getLsbD 63

/-- The biased exponent `x[62:52]`. -/
def f64Exponent (x : F64) : Nat := (x.extractLsb' 52 11).toNat

/-- The fraction `x[51:0]`. -/
def f64Fraction (x : F64) : Nat := (x.extractLsb' 0 52).toNat

/-- The number a pattern stands for (R55). -/
inductive F64Class where
  | nan
  | inf (neg : Bool)
  /-- `(-1)^neg * units * 2^-1074`. -/
  | fin (neg : Bool) (units : Nat)
  deriving DecidableEq, Repr

/-- R55. `0.fraction * 2^-1022` is `fraction` units, and `1.fraction * 2^(exponent-1023)` is
`(2^52 + fraction) * 2^(exponent-1)` units. -/
def classify (x : F64) : F64Class :=
  if f64Exponent x = 0x7FF then
    if f64Fraction x = 0 then .inf (f64Sign x) else .nan
  else if f64Exponent x = 0 then .fin (f64Sign x) (f64Fraction x)
  else .fin (f64Sign x) ((2 ^ 52 + f64Fraction x) <<< (f64Exponent x - 1))

/-- A sign bit over the 63 bits of a magnitude. -/
def packF64 (neg : Bool) (magnitude : Nat) : F64 := BitVec.ofBool neg ++ BitVec.ofNat 63 magnitude

/-- The magnitude bits of an infinity. -/
def infMagnitude : Nat := 0x7FF0000000000000

/-- The pattern of a NaN. -/
def nanF64 (n : NanBits) : F64 := packF64 n.sign (infMagnitude + (n.fractionPred.val + 1))

/-! ### Rounding -/

/-- `m / 2^t` rounded to the nearest integer, a tie to the even one (R77: roundTiesToEven). -/
def roundShift (m t : Nat) : Nat :=
  let q := m >>> t
  let twiceRest := 2 * (m - q <<< t)
  if (1 <<< t) < twiceRest then q + 1
  else if twiceRest = (1 <<< t) ∧ q % 2 = 1 then q + 1
  else q

/-- How many low bits of `m` lie below the last place of the result, where `m` counts units of
2^-(1074+k): all but 53, and at least the `k` that lie below the least subnormal (R77: gradual
underflow). -/
def roundPlace (m k : Nat) : Nat := max (m.log2 - 52) k

/-- `(-1)^neg * m * 2^-(1074+k)` rounded to binary64. With the result's last place `t`, its
magnitude bits are `(t-k) * 2^52` plus the rounded integer: a carry out of the fraction moves the
exponent up, and a magnitude past the largest finite one is an infinity (R77: overflow). -/
def roundF64 (neg : Bool) (m k : Nat) : F64 :=
  let t := roundPlace m k
  packF64 neg (min (((t - k) <<< 52) + roundShift m t) infMagnitude)

/-! ### The operations of R77 -/

/-- The signed units of a finite value. -/
def signedUnits (neg : Bool) (units : Nat) : Int := if neg then -(units : Int) else units

/-- Binary64 addition. An exact sum of zero is `+0.0` unless both operands are negative (R77:
`x - x = +0.0`), and `inf - inf` is NaN. -/
def fadd (n : NanBits) (a b : F64) : F64 :=
  match classify a, classify b with
  | .nan, _ => nanF64 n
  | _, .nan => nanF64 n
  | .inf s, .inf s' => if s = s' then packF64 s infMagnitude else nanF64 n
  | .inf s, .fin _ _ => packF64 s infMagnitude
  | .fin _ _, .inf s => packF64 s infMagnitude
  | .fin s u, .fin s' u' =>
    let sum := signedUnits s u + signedUnits s' u'
    if sum = 0 then packF64 (s && s') 0 else roundF64 (decide (sum < 0)) sum.natAbs 0

/-- A value with its sign bit complemented. -/
def fneg (a : F64) : F64 := a ^^^ 0x8000000000000000#64

/-- Binary64 subtraction: IEEE-754 defines it as the sum with the negated operand. -/
def fsub (n : NanBits) (a b : F64) : F64 := fadd n a (fneg b)

/-- Binary64 multiplication. `0 * inf` is NaN (R77). -/
def fmul (n : NanBits) (a b : F64) : F64 :=
  match classify a, classify b with
  | .nan, _ => nanF64 n
  | _, .nan => nanF64 n
  | .inf s, .inf s' => packF64 (s ^^ s') infMagnitude
  | .inf s, .fin s' u => if u = 0 then nanF64 n else packF64 (s ^^ s') infMagnitude
  | .fin s u, .inf s' => if u = 0 then nanF64 n else packF64 (s ^^ s') infMagnitude
  | .fin s u, .fin s' u' => roundF64 (s ^^ s') (u * u') 1074

/-- `a` with bit 63 cleared. -/
def fabs (a : F64) : F64 := a &&& 0x7FFFFFFFFFFFFFFF#64

/-- True iff `a` is a NaN. -/
def isNan (a : F64) : Bool := f64Exponent a = 0x7FF ∧ f64Fraction a ≠ 0

/-- The place of a value that is no NaN in the order of the quiet comparisons: its units, and an
infinity beyond every finite value. `+0.0` and `-0.0` share a place. -/
def orderKey : F64Class → Int
  | .nan => 0
  | .inf neg => signedUnits neg (1 <<< 2098)
  | .fin neg units => signedUnits neg units

/-- Quiet equality: false with a NaN. -/
def feq (a b : F64) : Bool :=
  !isNan a && !isNan b && decide (orderKey (classify a) = orderKey (classify b))

/-- Quiet less-than: false with a NaN. -/
def flt (a b : F64) : Bool :=
  !isNan a && !isNan b && decide (orderKey (classify a) < orderKey (classify b))

/-- Quiet greater-or-equal: false with a NaN. -/
def fge (a b : F64) : Bool :=
  !isNan a && !isNan b && decide (orderKey (classify b) ≤ orderKey (classify a))

/-- The binary64 value of an integer, exact up to 2^53. -/
def f64OfNat (n : Nat) : F64 := roundF64 false (n <<< 1074) 0

/-- The integer part of a finite non-negative value, rounding toward zero. It is defined on no other
value (R77) and `scale` applies it to no other (R72: `mag` is never NaN, and an infinity clamps), so
what stands for the rest is never read (log entry 13). -/
def truncF64 (a : F64) : Nat :=
  match classify a with
  | .fin _ units => units >>> 1074
  | .inf _ => 0
  | .nan => 0

end Sys2Proof.Machine
end

