-- ==== Sys2Proof/Machine/Pid.lean ====
section
/-! DEFINITION. The PID engine: one step of the control law (42_pid_engine.md R78). -/

namespace Sys2Proof.Machine

/-- `PidStep` on the registers of one channel: the correction, and the registers with `EINT` and
`EPREV` written. `nan` gives the NaN of each operation that yields one. -/
def pidStep (nan : NanSite → NanBits) (c : Channel) (m : F64) : F64 × Channel :=
  let e := fsub (nan .error) c.target m
  let eint := fadd (nan .integral) c.eint e
  let d := fsub (nan .derivative) e c.eprev
  let correction :=
    fadd (nan .correction)
      (fadd (nan .partialSum)
        (fmul (nan .proportionalTerm) c.kp e)
        (fmul (nan .integralTerm) c.ki eint))
      (fmul (nan .derivativeTerm) c.kd d)
  (correction, { c with eint := eint, eprev := e })

/-- `PidStep(ch, m)` on the block: the operations draw their free NaNs at the present number, and the
number moves on. -/
def State.pidStep (s : State) (ch : ChannelId) (m : F64) : F64 × State :=
  let r := Machine.pidStep (Config.freeNan s.nanDraws) (s.chan ch) m
  (r.1, { s.setChan ch r.2 with nanDraws := s.nanDraws + 1 })

end Sys2Proof.Machine
end

