-- ==== Sys2Proof/Machine/MotorChannel.lean ====
section
/-! DEFINITION. Phase 2 of the Tick for one channel: the armed gate, open-loop and closed-loop
evaluation, output scaling and actuation (41_motor_channel.md R68-R75). -/

namespace Sys2Proof.Machine

/-- `ClosedLoopCorrection(ch)`, `m` being what the oracle answers to this call (R70). INVALID and NaN
are sentinels: the correction is `+0.0` and the PID registers are not touched (R71). -/
def State.closedLoopCorrection (s : State) (ch : ChannelId) (m : Measurement) : F64 × State :=
  let s := s.emit (.measRead ch (s.chan ch).sensor m)
  match m with
  | .invalid => (posZero, s)
  | .value x => if isNan x then (posZero, s) else s.pidStep ch x

/-- `Scale(c, d_old)` (R72). `n` is the NaN that the product would yield; it yields none, since `c` is
no NaN and `OUTPUT_SCALE` is positive and finite. -/
def scale (P : Params) (n : NanBits) (c : F64) (dOld : Direction) : Half × Direction :=
  if isNan c then (0#16, dOld)
  else if feq c posZero then (0#16, dOld)
  else
    let dir : Direction := if flt c posZero then .reverse else .forward
    let mag := fmul n (fabs c) P.outputScale
    if fge mag (f64OfNat P.maxDuty.toNat) then (P.maxDuty, dir)
    else (BitVec.ofNat 16 (truncF64 mag), dir)

/-- The closed-loop branch of `Evaluate(ch)`: correction, then scaling into `DUTY` and `DIR` (R68). -/
def State.closedLoop (s : State) (P : Params) (ch : ChannelId) (m : Measurement) : State :=
  let r := s.closedLoopCorrection ch m
  let c := r.2.chan ch
  let out := scale P (Config.freeNan r.2.nanDraws .scaled) r.1 c.dir
  r.2.setChan ch { c with duty := out.1, dir := out.2 }

/-- `Evaluate(ch)`: phase 2 of the Tick for one channel (R68). -/
def State.evaluate (s : State) (P : Params) (ch : ChannelId) (m : Measurement) : State :=
  let s :=
    if s.armed = false then s.setChan ch { s.chan ch with duty := 0#16 }
    else if (s.chan ch).cl = false then s
    else s.closedLoop P ch m
  s.writeActuation ch

end Sys2Proof.Machine
end

