-- ==== Sys2Proof/Machine/Watchdog.lean ====
section
/-! DEFINITION. The watchdog countdown (44_watchdog.md R89-R91). -/

namespace Sys2Proof.Machine

/-- `WatchdogTick()`: phase 3 of the Tick (R90). -/
def State.watchdogTick (s : State) : State :=
  if s.armed then
    if s.wdCount = 0#16 then s.forceStop.emit .annExpired
    else { s with wdCount := s.wdCount - 1#16 }
  else s

end Sys2Proof.Machine
end

