-- ==== Sys2Proof/Machine/Tick.lean ====
section
/-! DEFINITION. The tick scheduler: one Tick is one atomic transition of three phases in a fixed
order (40_tick_scheduler.md R63-R65). -/

namespace Sys2Proof.Machine

/-- `Tick()`: annunciator refresh, channel A, channel B, watchdog (R63). -/
def State.tick (s : State) (P : Params) (measA measB : Measurement) : State :=
  (((s.emit .annRefresh).evaluate P .a measA).evaluate P .b measB).watchdogTick

end Sys2Proof.Machine
end

