-- ==== Sys2Proof/Machine/Receiver.lean ====
section
/-! DEFINITION. The command receiver (45_command_receiver.md R95-R98), the transition of each input
(R35, R41), and the placing of one whole frame where the next step completes it. -/

namespace Sys2Proof.Machine

/-- `Commit(op, p)` on the instruction that the frame is (R98; log entry 9). -/
def commit (i : Instr) (s : State) : Result := exec i (s.emit (.annActivity i.opcode.code))

/-- The `IDLE` case of RxByte (R95). -/
def rxByteIdle (b : Byte) (s : State) : Result :=
  match opcodeOf b with
  | none => .next { s.logMessage Config.params unknownOpcodeCode b with rxState := .discard }
  | some o =>
    if o.len = 0 then commit (o.instr (stagedByte s.rxBuf)) s
    else .next { s with rxOp := b, rxCnt := 0, rxState := .payload }

/-- The `PAYLOAD` case of RxByte (R95). The two faults are of states that R31 item 5 rules out. -/
def rxBytePayload (b : Byte) (s : State) : Result :=
  match opcodeOf s.rxOp with
  | none => .fault .payloadLengthUndefined
  | some o =>
    if h : s.rxCnt < 8 then
      let buf := s.rxBuf.set s.rxCnt b h
      if s.rxCnt + 1 = o.len then
        commit (o.instr (stagedByte buf)) { s with rxBuf := buf, rxState := .idle, rxCnt := 0 }
      else .next { s with rxBuf := buf, rxCnt := s.rxCnt + 1 }
    else .fault .stagingIndexOutOfRange

/-- `RxByte(b)` (R95). -/
def rxByte (b : Byte) (s : State) : Result :=
  match s.rxState with
  | .idle => rxByteIdle b s
  | .payload => rxBytePayload b s
  | .discard => .next s

/-- `RxEnd()` (R96). -/
def State.rxEnd (s : State) : State :=
  match s.rxState with
  | .idle => s
  | .payload =>
    { s.logMessage Config.params shortFrameCode s.rxOp with rxState := .idle, rxCnt := 0 }
  | .discard => { s with rxState := .idle }

/-- The one atomic transition of an input (R35, R41). -/
def accept (i : Input) (s : State) : Result :=
  match i with
  | .tick measA measB => .next (s.tick Config.params measA measB)
  | .rxByte b => rxByte b s
  | .rxEnd => .next s.rxEnd
  | .txRead => .next s.txRead

/-- Writes bytes into the staging buffer from an index on. -/
def stageFrom (buf : Vector Byte 8) : Nat → List Byte → Vector Byte 8
  | _, [] => buf
  | i, b :: bs => stageFrom (buf.setIfInBounds i b) (i + 1) bs

/-- `s` with the frame at the head of `bytes` delivered but for its last byte, which is the next
input: the opcode itself where it has no payload or is unknown, else the last payload byte, with the
receiver in `PAYLOAD` and the bytes before it staged, as R95 leaves them. -/
def State.placeFrame (s : State) (bytes : List Byte) : State :=
  match bytes with
  | [] => s
  | op :: payload =>
    match payloadLen op with
    | none => { s with rxState := .idle, rxCnt := 0, inputs := .rxByte op :: s.inputs }
    | some 0 => { s with rxState := .idle, rxCnt := 0, inputs := .rxByte op :: s.inputs }
    | some (n + 1) =>
      { s with
        rxState := .payload
        rxOp := op
        rxCnt := n
        rxBuf := stageFrom s.rxBuf 0 (payload.take n)
        inputs := .rxByte (payload.getD n 0x00#8) :: s.inputs }

end Sys2Proof.Machine
end

