-- ==== Sys2Proof/Machine/Step.lean ====
section
/-! DEFINITION. One step of the block: the next input's transition (20_memory.md R41, R42). -/

namespace Sys2Proof.Machine

/-- The next input in the order of arrival is taken and its transition runs to completion (R41). With
no input the block waits as it is (R34, R129; DEDUCED, log entry 2). -/
def step (s : State) : Host.Outcome State Fault Refusal :=
  match s.inputs with
  | [] => .next s
  | i :: rest => accept i { s with inputs := rest }

/-- `s` with the instruction of a table word delivered but for its last byte, so that the next step
takes that byte and commits it (`State.placeFrame`; log entry 6). -/
def State.withFetchWord (s : State) (nbits w : Nat) : State := s.placeFrame (tableBytes nbits w)

end Sys2Proof.Machine
end

