-- ==== Sys2Proof/WellFormed.lean ====
section
/-! DEFINITION. When a command is well formed. Of the instruction as a term nothing can be wrong: its
fields have the widths of R51-R53 and every value is legal (R57). Of a frame of bytes two things can
be: its opcode can be unknown (R57), and its payload can be shorter or longer than `LEN(op)` (R48). -/

namespace Sys2Proof

/-- Every instruction is well formed: every payload of a defined opcode is legal (R51, R52, R53,
R57). One arm a constructor, so that a constructor with an illegal value could not slip past. -/
def Instr.wellFormed : Instr → Bool
  | .stop => true
  | .reset => true
  | .pause => true
  | .go _ => true
  | .setChannelMode _ _ _ => true
  | .setTarget _ => true
  | .setP _ => true
  | .setI _ => true
  | .setD _ => true
  | .getFirmwareVersion => true
  | .getMessages => true

/-- A frame is one opcode byte followed by exactly `LEN(op)` payload bytes (R48, R49). -/
def Frame.wellFormed (f : Frame) : Bool := payloadLen f.op = some f.payload.length

end Sys2Proof
end

