-- ==== Sys2Proof/Safety.lean ====
section
/-! DEFINITION. The terms in which claims about the block are stated: the invariants of 10_state.md
R31, which command the next step commits, runs in which some commands do not commit, and what a
correctly rounded binary64 result is. -/

namespace Sys2Proof

/-- GO. -/
def Instr.isGo : Instr → Bool
  | .go _ => true
  | _ => false

/-- The four motion commands: GO, and the three that force a stop. -/
def Instr.isMotion : Instr → Bool
  | .stop => true
  | .reset => true
  | .pause => true
  | .go _ => true
  | _ => false

end Sys2Proof

namespace Sys2Proof.Machine

/-! ### The invariants of R31 -/

/-- Items 1 to 4 of R31, for one channel of a block that is armed or not. -/
structure Channel.Inv (P : Params) (armed : Bool) (c : Channel) : Prop where
  /-- Item 1: disarmed, the duty and the compare latch are 0. -/
  gated : armed = false → c.duty = 0#16 ∧ c.pwmCmp = 0#16
  /-- Item 2: open-loop, the six PID registers are `+0.0`. -/
  openLoopPid : c.cl = false →
    c.kp = posZero ∧ c.ki = posZero ∧ c.kd = posZero ∧
      c.target = posZero ∧ c.eprev = posZero ∧ c.eint = posZero
  /-- Item 2: open-loop, the sensor index is 0. -/
  openLoopSensor : c.cl = false → c.sensor = 0#6
  /-- Item 3. -/
  openLoopDuty : c.cl = false → c.duty = 0#16
  /-- Item 4, the duty. -/
  dutyRange : c.duty.toNat ≤ P.maxDuty.toNat
  /-- Item 4, the compare latch. -/
  latchRange : c.pwmCmp.toNat ≤ P.maxDuty.toNat

/-- The seven items of R31, with the bound of the reply buffer (R28) and the count of a disarmed
watchdog (R91). -/
structure State.Inv (s : State) : Prop where
  chanA : s.chA.Inv Config.params s.armed
  chanB : s.chB.Inv Config.params s.armed
  /-- Item 5: a payload being received is that of an opcode with a non-empty payload, and is not
  complete. -/
  payloadProgress : s.rxState = .payload → ∃ n, payloadLen s.rxOp = some n ∧ s.rxCnt < n
  /-- Item 6. -/
  countOutsidePayload : s.rxState ≠ .payload → s.rxCnt = 0
  /-- Item 7, the queue. -/
  queueBound : s.msgq.length ≤ Config.params.msgqDepth
  /-- Item 7, the reply pointer. -/
  replyPointer : s.replyPtr ≤ s.reply.length
  /-- R28. -/
  replyBound : s.reply.length ≤ 1 + 2 * Config.params.msgqDepth
  /-- R91. -/
  disarmedCount : s.armed = false → s.wdCount = 0#16

/-! ### The history and the output latches (R37) -/

/-- The value and the direction bit of the last `PwmWrite` to a channel. -/
def lastPwmWrite (ch : ChannelId) (h : List Event) : Option (Half × BitVec 1) :=
  h.foldl
    (fun acc e =>
      match e with
      | .pwmWrite c cmp dir => if c = ch then some (cmp, dir) else acc
      | _ => acc)
    none

/-- "The output latches are the last `PwmWrite` per channel" (R37), or the reset values where there
has been none (R23). -/
def State.LatchesFollowHistory (s : State) : Prop :=
  ∀ ch, (lastPwmWrite ch s.history).getD (0#16, 0#1) = ((s.chan ch).pwmCmp, (s.chan ch).dirOut.bit)

/-- What a transition appended to the history. -/
def Appended (s t : State) (l : List Event) : Prop := t.history = s.history ++ l

/-! ### What no Tick writes -/

/-- Of the registers outside the channels and the watchdog, none has the Tick among its writers: `SEL`
(R25), the receiver's (R26), the queue (R27) and the reply (R28). -/
def TickFrame (s t : State) : Prop :=
  t.sel = s.sel ∧
  t.rxState = s.rxState ∧ t.rxOp = s.rxOp ∧ t.rxCnt = s.rxCnt ∧ t.rxBuf = s.rxBuf ∧
  t.msgq = s.msgq ∧ t.msgqOvf = s.msgqOvf ∧
  t.reply = s.reply ∧ t.replyPtr = s.replyPtr

/-! ### What the next step commits -/

/-- The bytes of the frame being received once the byte `b` has come in: `b` alone in `IDLE`, the
opcode and the staged bytes before it in `PAYLOAD`; in `DISCARD` there is no frame (R95). -/
def State.frameWith (s : State) (b : Byte) : Option (List Byte) :=
  match s.rxState with
  | .idle => some [b]
  | .payload => some (s.rxOp :: (s.rxBuf.toList.take s.rxCnt ++ [b]))
  | .discard => none

/-- The instruction that the byte `b` completes: the one the decoder reads from the frame, where it
uses up all its bytes. -/
def State.completes (s : State) (b : Byte) : Option Instr :=
  match s.frameWith b with
  | none => none
  | some bytes =>
    match decode bytes with
    | .ok (i, []) => some i
    | _ => none

/-- The instruction that the next step commits, if it commits one. -/
def State.nextCommit (s : State) : Option Instr :=
  match s.inputs with
  | .rxByte b :: _ => s.completes b
  | _ => none

/-! ### Runs -/

/-- A run of `k` steps (R141), stopping at the first fault or refusal. -/
def run (k : Nat) (s : State) : Result := Host.Core.run Sys2Proof.core k s

/-- No command of the kind `p` commits in the next `k` steps. -/
def State.commitsNo (p : Instr → Bool) : Nat → State → Bool
  | 0, _ => true
  | k + 1, s =>
    (match s.nextCommit with
      | some i => !p i
      | none => true) &&
    (match step s with
      | .next t => State.commitsNo p k t
      | .fault _ => true
      | .refused _ => true)

/-- A `TICK` strobe. -/
def Input.isTick : Input → Bool
  | .tick _ _ => true
  | _ => false

/-- Of the oracle's two answers in a Tick, the one to a channel. -/
def answerTo (ch : ChannelId) (measA measB : Measurement) : Measurement :=
  match ch with
  | .a => measA
  | .b => measB

/-- How many of the next `k` inputs are Ticks. -/
def State.ticksAmong (s : State) (k : Nat) : Nat := (s.inputs.take k).countP Input.isTick

/-! ### Binary64 values -/

/-- A pattern that is neither an infinity nor a NaN (R55). -/
def isFinite (x : F64) : Bool := f64Exponent x ≠ 0x7FF

/-- The pattern of `-0.0`. -/
def negZero : F64 := 0x8000000000000000#64

/-- Where rounding to nearest leaves the finite values: half a last place past the largest of them,
in units of 2^-1074. -/
def overflowUnits : Nat := (2 ^ 54 - 1) <<< 2044

/-- `r` is the number `exact * 2^-(1074+k)` rounded to binary64, to nearest and a tie to even (R77).
A finite `r` is as near as any finite value is, and has an even last bit where another is as near; an
infinite one has the sign of a number past `overflowUnits`. -/
def IsRounded (exact : Int) (k : Nat) (r : F64) : Prop :=
  match classify r with
  | .nan => False
  | .inf neg => overflowUnits <<< k ≤ exact.natAbs ∧ (neg = true ↔ exact < 0)
  | .fin neg units =>
    exact.natAbs < overflowUnits <<< k ∧
    ∀ (y : F64) (neg' : Bool) (units' : Nat), classify y = .fin neg' units' →
      let near := (signedUnits neg units * 2 ^ k - exact).natAbs
      let other := (signedUnits neg' units' * 2 ^ k - exact).natAbs
      near ≤ other ∧
      (near = other → signedUnits neg' units' ≠ signedUnits neg units → r.getLsbD 0 = false)

end Sys2Proof.Machine
end

