-- ==== Sys2Proof/Certificates/Slice0/Obligations.lean ====
section
/-! DEFINITION. The statements about the block. Each docstring names the rule it formalises; where it
rests on a choice of the model's own, it names the log entry of notes/assumptions, and where the rule
is an inference that the spec marks as its own, it says so. Statements are
about every state, or about every state that meets the invariants of R31 where only such states
complete; none is about a program. -/

open Sys2Proof Sys2Proof.Machine

/-! ### Frames and their encoding -/

/-- Decoding the frame of any instruction gives the instruction back, and leaves the bytes after it
for the next command (R48 to R54; R97). -/
def Obligations.DecodeOfEncodeIsTheInstruction : Prop :=
  ∀ (i : Instr) (rest : List Byte), decode (encode i ++ rest) = .ok (i, rest)

/-- Bytes that decode are the frame of the instruction they decode to: no payload bit is ignored and
no two frames mean the same (R52, R54, R57). -/
def Obligations.DecodedBytesAreTheFrame : Prop :=
  ∀ (bytes : List Byte) (i : Instr) (rest : List Byte),
    decode bytes = .ok (i, rest) → bytes = encode i ++ rest

/-- R49: the names and the payload lengths of the eleven opcodes; no other byte has either. -/
def Obligations.PayloadLengthsAreTheTable : Prop :=
  (opcodeOf 0x00#8 = some .stop ∧ payloadLen 0x00#8 = some 0) ∧
  (opcodeOf 0x01#8 = some .reset ∧ payloadLen 0x01#8 = some 0) ∧
  (opcodeOf 0x02#8 = some .pause ∧ payloadLen 0x02#8 = some 0) ∧
  (opcodeOf 0x03#8 = some .go ∧ payloadLen 0x03#8 = some 2) ∧
  (opcodeOf 0x10#8 = some .setChannelMode ∧ payloadLen 0x10#8 = some 1) ∧
  (opcodeOf 0x20#8 = some .setTarget ∧ payloadLen 0x20#8 = some 8) ∧
  (opcodeOf 0x21#8 = some .setP ∧ payloadLen 0x21#8 = some 8) ∧
  (opcodeOf 0x22#8 = some .setI ∧ payloadLen 0x22#8 = some 8) ∧
  (opcodeOf 0x23#8 = some .setD ∧ payloadLen 0x23#8 = some 8) ∧
  (opcodeOf 0x40#8 = some .getFirmwareVersion ∧ payloadLen 0x40#8 = some 0) ∧
  (opcodeOf 0x41#8 = some .getMessages ∧ payloadLen 0x41#8 = some 0) ∧
  ∀ b : Byte, b ∉ [0x00#8, 0x01#8, 0x02#8, 0x03#8, 0x10#8, 0x20#8, 0x21#8, 0x22#8, 0x23#8, 0x40#8,
    0x41#8] → opcodeOf b = none ∧ payloadLen b = none

/-- The decoder refuses a first byte as unknown exactly where it is none of the eleven opcodes (R56,
R57). -/
def Obligations.UnknownOpcodesAreRefusedByName : Prop :=
  ∀ (b : Byte) (rest : List Byte),
    decode (b :: rest) = .error (.unknownOpcode b) ↔
      b ∉ [0x00#8, 0x01#8, 0x02#8, 0x03#8, 0x10#8, 0x20#8, 0x21#8, 0x22#8, 0x23#8, 0x40#8, 0x41#8]

/-- Words written out from the spec's encodings decode to what the spec says they are: `W 02`, `GO
4000` (L1.1), the mode bytes 0x41 (L1.3) and 0xC2 (V7.1), `SET_TARGET 100.0` (L1.2), `SET_D 1.0`, and
the two queries. -/
def Obligations.SpecWordsDecodeToTheirInstructions : Prop :=
  decodeTableWord 8 0x02 = some .pause ∧
  decodeTableWord 24 0x0FA003 = some (.go 4000#16) ∧
  decodeTableWord 16 0x4110 = some (.setChannelMode .a true 1#6) ∧
  decodeTableWord 16 0xC210 = some (.setChannelMode .b true 2#6) ∧
  decodeTableWord 72 0x405900000000000020 = some (.setTarget 0x4059000000000000#64) ∧
  decodeTableWord 72 0x3FF000000000000023 = some (.setD 0x3FF0000000000000#64) ∧
  decodeTableWord 8 0x40 = some .getFirmwareVersion ∧
  decodeTableWord 8 0x41 = some .getMessages

/-! ### From bytes to commands -/

/-- A STEP RUNS THE DECODED INSTRUCTION. Where the byte that comes in completes a frame that the
decoder reads as the instruction `i`, the step is `exec i` at the state with that byte taken, the
`AnnActivity` of its opcode appended (R84, R98) and, after a payload, the byte staged and the receiver
back in `IDLE` (R95). That inputs stand in a list, oldest first, is the model's own (log entry 2). -/
def Obligations.StepRunsTheDecodedInstruction : Prop :=
  ∀ (s : State) (b : Byte) (rest : List Input) (i : Instr),
    s.inputs = .rxByte b :: rest →
    (s.rxState = .idle → decode [b] = .ok (i, []) →
      step s = exec i { s with
        inputs := rest
        history := s.history ++ [.annActivity b] }) ∧
    (s.rxState = .payload → decode (s.rxOp :: (s.rxBuf.toList.take s.rxCnt ++ [b])) = .ok (i, []) →
      step s = exec i { s with
        inputs := rest
        rxBuf := s.rxBuf.setIfInBounds s.rxCnt b
        rxState := .idle
        rxCnt := 0
        history := s.history ++ [.annActivity s.rxOp] })

/-- A frame delivered whole to a receiver in `IDLE` commits with its last byte, whatever inputs come
after it: as many steps as the frame has bytes run its instruction, and until then nothing but the
receiver registers has changed. A frame without payload leaves those too; any other leaves its opcode
in `RX_OP` and its payload at the front of `RX_BUF` (R95, R98; R42 item 4). -/
def Obligations.DeliveredFrameCommitsItsInstruction : Prop :=
  ∀ (i : Instr) (s : State) (rest : List Input),
    s.rxState = .idle → s.inputs = (encode i).map .rxByte ++ rest →
    ∃ op cnt buf,
      run (encode i).length s =
        exec i { s with
          inputs := rest
          rxOp := op
          rxCnt := cnt
          rxBuf := buf
          history := s.history ++ [.annActivity i.opcode.code] } ∧
      (i.payload = [] → op = s.rxOp ∧ cnt = s.rxCnt ∧ buf = s.rxBuf) ∧
      (i.payload ≠ [] → op = i.opcode.code ∧ cnt = 0 ∧
        buf.toList = i.payload ++ s.rxBuf.toList.drop i.payload.length)

/-- RxByte on the way through a payload: the opcode byte opens it, and a byte that does not complete
it is staged at `RX_CNT` and counted; nothing else changes (R95). -/
def Obligations.PayloadBytesAreOnlyStaged : Prop :=
  ∀ (s : State) (b : Byte) (rest : List Input) (n : Nat),
    s.inputs = .rxByte b :: rest →
    (s.rxState = .idle → payloadLen b = some n → 0 < n →
      step s = .next { s with inputs := rest, rxOp := b, rxCnt := 0, rxState := .payload }) ∧
    (s.rxState = .payload → payloadLen s.rxOp = some n → s.rxCnt + 1 < n →
      step s = .next { s with
        inputs := rest
        rxBuf := s.rxBuf.setIfInBounds s.rxCnt b
        rxCnt := s.rxCnt + 1 })

/-- An unknown opcode in `IDLE`: one message (0x01, opcode) or, on a full queue, the overflow bit; the
event; and `DISCARD`. Nothing else changes (R57, R95, R112, R117). -/
def Obligations.UnknownOpcodeIsLoggedAndDiscarded : Prop :=
  ∀ (s : State) (b : Byte) (rest : List Input),
    s.inputs = .rxByte b :: rest → s.rxState = .idle → opcodeOf b = none →
    step s = .next
      (if s.msgq.length < Config.params.msgqDepth then
        { s with
          inputs := rest
          rxState := .discard
          msgq := s.msgq ++ [⟨0x01#8, b⟩]
          history := s.history ++ [.annProtoError 0x01#8 b] }
      else
        { s with
          inputs := rest
          rxState := .discard
          msgqOvf := true
          history := s.history ++ [.annProtoError 0x01#8 b] })

/-- RxEnd: nothing in `IDLE`; back to `IDLE` from `DISCARD`; in `PAYLOAD` one message (0x02, `RX_OP`) or
the overflow bit, and the staged bytes dropped. No register outside the receiver and the queue
changes (R96, R112, R117). -/
def Obligations.FrameEndDropsAShortFrame : Prop :=
  ∀ (s : State) (rest : List Input), s.inputs = .rxEnd :: rest →
    step s = .next
      (match s.rxState with
      | .idle => { s with inputs := rest }
      | .discard => { s with inputs := rest, rxState := .idle }
      | .payload =>
        if s.msgq.length < Config.params.msgqDepth then
          { s with
            inputs := rest
            rxState := .idle
            rxCnt := 0
            msgq := s.msgq ++ [⟨0x02#8, s.rxOp⟩]
            history := s.history ++ [.annProtoError 0x02#8 s.rxOp] }
        else
          { s with
            inputs := rest
            rxState := .idle
            rxCnt := 0
            msgqOvf := true
            history := s.history ++ [.annProtoError 0x02#8 s.rxOp] })

/-- In `DISCARD` every byte is ignored, one equal to a defined opcode too, however many come (R95). -/
def Obligations.DiscardIgnoresEveryByte : Prop :=
  ∀ (bytes : List Byte) (s : State) (rest : List Input),
    s.rxState = .discard → s.inputs = bytes.map .rxByte ++ rest →
    run bytes.length s = .next { s with inputs := rest }

/-- Protocol errors have two sources and no other: a step that reports one is an unknown opcode in
`IDLE`, with code 0x01, or a frame end in `PAYLOAD`, with code 0x02, and it reports no second one and
emits nothing else (R113, R117; R119 item 4). -/
def Obligations.ProtocolErrorsHaveTwoSources : Prop :=
  ∀ (s t : State) (l : List Event) (code detail : Byte),
    step s = .next t → Appended s t l → .annProtoError code detail ∈ l →
    l = [.annProtoError code detail] ∧
    ((s.rxState = .idle ∧ code = 0x01#8 ∧ opcodeOf detail = none ∧
        s.inputs.head? = some (.rxByte detail)) ∨
      (s.rxState = .payload ∧ code = 0x02#8 ∧ detail = s.rxOp ∧ s.inputs.head? = some .rxEnd))

/-! ### The commands: what each does, and that it completes -/

/-- STOP and PAUSE: both channels' duty, compare latch and integral cleared, the watchdog disarmed,
the two zero writes in the history, and nothing else changed (R76, R103, R105). -/
def Obligations.StopAndPauseForceAStop : Prop :=
  ∀ s : State,
    let t : State := { s with
      chA := { s.chA with duty := 0#16, eint := posZero, pwmCmp := 0#16 }
      chB := { s.chB with duty := 0#16, eint := posZero, pwmCmp := 0#16 }
      armed := false
      wdCount := 0#16
      history := s.history ++
        [.pwmWrite .a 0#16 s.chA.dirOut.bit, .pwmWrite .b 0#16 s.chB.dirOut.bit] }
    exec .stop s = .next t ∧ exec .pause s = .next t

/-- A second STOP changes no register, though it emits two more zero writes (R76: ForceStop is
idempotent). -/
def Obligations.SecondStopChangesNoRegister : Prop :=
  ∀ s t : State, exec .stop s = .next t →
    exec .stop t = .next { t with
      history := t.history ++
        [.pwmWrite .a 0#16 s.chA.dirOut.bit, .pwmWrite .b 0#16 s.chB.dirOut.bit] }

/-- RESET leaves every register at its power-on value but those that R130 names (an inference that the
spec marks as derived), after the events of the pause and of the defaults in the order of R104; and
after any commit the receiver is in `IDLE` (R130). The model's own two fields stay as they are (log
entries 2 and 4). -/
def Obligations.ResetCommandEqualsPowerOnButForDiagnostics : Prop :=
  (∀ s : State, exec .reset s = .next { State.reset with
    msgq := s.msgq
    msgqOvf := s.msgqOvf
    reply := s.reply
    replyPtr := s.replyPtr
    rxState := s.rxState
    rxOp := s.rxOp
    rxCnt := s.rxCnt
    rxBuf := s.rxBuf
    inputs := s.inputs
    nanDraws := s.nanDraws
    history := s.history ++
      [.pwmWrite .a 0#16 s.chA.dirOut.bit, .pwmWrite .b 0#16 s.chB.dirOut.bit,
        .pwmWrite .a 0#16 0#1, .pwmWrite .b 0#16 0#1, .annReset] }) ∧
  ∀ (s t : State) (i : Instr), s.nextCommit = some i → step s = .next t → t.rxState = .idle

/-- GO: armed with the timeout loaded, whether armed before or not, and nothing else changed: no
actuation, no duty, no integral (R106). -/
def Obligations.GoArmsAndLoadsTheTimeout : Prop :=
  ∀ (t : Half) (s : State), exec (.go t) s = .next { s with armed := true, wdCount := t }

/-- SET_CHANNEL_MODE: the four cases of the enable bit and the present mode, for the selected channel
alone; the output latches are not written (R107, R108). -/
def Obligations.SetChannelModeConfiguresTheSelectedChannel : Prop :=
  ∀ (ch : ChannelId) (cle : Bool) (idx : SensorIndex) (s : State),
    let c : Channel := match ch with
      | .a => s.chA
      | .b => s.chB
    let fresh : Channel :=
      { c with
        kp := posZero, ki := posZero, kd := posZero
        target := posZero, eprev := posZero, eint := posZero
        duty := 0#16 }
    let c' : Channel := match cle, c.cl with
      | true, false => { fresh with cl := true, sensor := idx }
      | true, true => { c with sensor := idx }
      | false, true => { fresh with cl := false, sensor := 0#6 }
      | false, false => { c with sensor := 0#6 }
    exec (.setChannelMode ch cle idx) s = .next (match ch with
      | .a => { s with sel := .a, chA := c' }
      | .b => { s with sel := .b, chB := c' })

/-- SET_TARGET, SET_P, SET_I and SET_D: the 64-bit pattern, unchanged, into the one register of the
addressed channel where it is closed-loop; nothing at all where it is open-loop (R109, R110). -/
def Obligations.SetCommandsWriteOneRegisterOfTheAddressedChannel : Prop :=
  ∀ (x : F64) (s : State),
    (exec (.setTarget x) s = .next (match s.sel, s.chA.cl, s.chB.cl with
      | .a, true, _ => { s with chA := { s.chA with target := x } }
      | .b, _, true => { s with chB := { s.chB with target := x } }
      | _, _, _ => s)) ∧
    (exec (.setP x) s = .next (match s.sel, s.chA.cl, s.chB.cl with
      | .a, true, _ => { s with chA := { s.chA with kp := x } }
      | .b, _, true => { s with chB := { s.chB with kp := x } }
      | _, _, _ => s)) ∧
    (exec (.setI x) s = .next (match s.sel, s.chA.cl, s.chB.cl with
      | .a, true, _ => { s with chA := { s.chA with ki := x } }
      | .b, _, true => { s with chB := { s.chB with ki := x } }
      | _, _, _ => s)) ∧
    (exec (.setD x) s = .next (match s.sel, s.chA.cl, s.chB.cl with
      | .a, true, _ => { s with chA := { s.chA with kd := x } }
      | .b, _, true => { s with chB := { s.chB with kd := x } }
      | _, _, _ => s))

/-- GET_FIRMWARE_VERSION: the reply is the version's two bytes, the low one first, to be read from its
start; nothing else changes (R114). -/
def Obligations.FirmwareVersionIsRepliedLowByteFirst : Prop :=
  ∀ s : State, exec .getFirmwareVersion s = .next { s with
    reply :=
      [BitVec.ofNat 8 (Config.params.fwVersion.toNat % 256),
        BitVec.ofNat 8 (Config.params.fwVersion.toNat / 256)]
    replyPtr := 0 }

/-- GET_MESSAGES: the reply is the header and then each message's code and detail, oldest first; the
queue and its overflow bit are cleared; nothing else changes. The header is the overflow bit over the
number of messages, which a queue within its bound leaves room for (R115; R11). -/
def Obligations.MessagesAreRepliedAndDrained : Prop :=
  ∀ s : State, ∃ header : Byte,
    exec .getMessages s = .next { s with
      reply := header :: s.msgq.flatMap fun m => [m.code, m.detail]
      replyPtr := 0
      msgq := []
      msgqOvf := false } ∧
    (s.msgq.length ≤ 127 →
      header.toNat = (if s.msgqOvf then 128 else 0) + s.msgq.length)

/-- Reply reads give the reply's bytes in order from the present pointer, then 0x00 for ever; they
move the pointer and nothing else (R102, R116). -/
def Obligations.ReplyReadsGiveTheBytesInOrder : Prop :=
  ∀ (k : Nat) (s : State) (rest : List Input),
    s.replyPtr ≤ s.reply.length → s.inputs = List.replicate k .txRead ++ rest →
    run k s = .next { s with
      inputs := rest
      replyPtr := min (s.replyPtr + k) s.reply.length
      history := s.history ++
        ((s.reply.drop s.replyPtr ++ List.replicate k 0x00#8).take k).map .txByte }

/-- R102: a reply read leaves the receiver as it is, in the middle of a frame too. -/
def Obligations.ReplyReadKeepsTheReceiver : Prop :=
  ∀ (s : State) (rest : List Input), s.inputs = .txRead :: rest →
    ∃ t, step s = .next t ∧
      t.rxState = s.rxState ∧ t.rxOp = s.rxOp ∧ t.rxCnt = s.rxCnt ∧ t.rxBuf = s.rxBuf

/-! ### The Tick -/

/-- A Tick of a disarmed block: 0 to both duties and both compare latches, the direction to the pins,
three events in order, no measurement asked for, and nothing else changed: `WD_COUNT` stays (R63, R68,
R91). -/
def Obligations.DisarmedTickDrivesZero : Prop :=
  ∀ (s : State) (mA mB : Measurement) (rest : List Input),
    s.inputs = .tick mA mB :: rest → s.armed = false →
    step s = .next { s with
      inputs := rest
      chA := { s.chA with duty := 0#16, pwmCmp := 0#16, dirOut := s.chA.dir }
      chB := { s.chB with duty := 0#16, pwmCmp := 0#16, dirOut := s.chB.dir }
      history := s.history ++
        [.annRefresh, .pwmWrite .a 0#16 s.chA.dir.bit, .pwmWrite .b 0#16 s.chB.dir.bit] }

/-- An armed Tick short of expiry on an open-loop channel, whatever the other channel is: its duty and
direction go to the latches as they are, in one event, no measurement is asked for it, and the
watchdog counts down by one. Where both channels are open-loop, nothing else changes at all (R63, R68,
R74, R90; R69, which the spec marks as derived). For the expiring Tick see `ExpiringTickForcesAStop`. -/
def Obligations.OpenLoopTickCopiesToTheLatches : Prop :=
  ∀ (s : State) (mA mB : Measurement) (rest : List Input),
    s.inputs = .tick mA mB :: rest → s.armed = true → s.wdCount ≠ 0#16 →
    (∀ ch : ChannelId, (s.chan ch).cl = false →
      ∃ t before after, step s = .next t ∧
        t.armed = true ∧ t.wdCount.toNat + 1 = s.wdCount.toNat ∧
        TickFrame s t ∧ t.inputs = rest ∧
        t.chan ch = { s.chan ch with pwmCmp := (s.chan ch).duty, dirOut := (s.chan ch).dir } ∧
        Appended s t
          (before ++ [.pwmWrite ch (s.chan ch).duty (s.chan ch).dir.bit] ++ after) ∧
        ∀ e ∈ before ++ after, (∀ cmp dir, e ≠ .pwmWrite ch cmp dir) ∧
          ∀ i x, e ≠ .measRead ch i x) ∧
    (s.chA.cl = false → s.chB.cl = false →
      ∃ t, step s = .next t ∧
        t.wdCount.toNat + 1 = s.wdCount.toNat ∧
        t = { s with
          inputs := rest
          chA := { s.chA with pwmCmp := s.chA.duty, dirOut := s.chA.dir }
          chB := { s.chB with pwmCmp := s.chB.duty, dirOut := s.chB.dir }
          wdCount := t.wdCount
          history := s.history ++
            [.annRefresh, .pwmWrite .a s.chA.duty s.chA.dir.bit,
              .pwmWrite .b s.chB.duty s.chB.dir.bit] })

/-- An armed Tick on a closed-loop channel with a measurement that is no sentinel: the control law and
the scaling give `EINT`, `EPREV`, `DUTY` and `DIR`, and phase 2 writes the latches with them, right
after the one measurement. Short of expiry they stay; an expiring Tick then clears the duty, the compare
latch and the integral, and keeps `EPREV` and the direction. The channel's configuration and every
register that no Tick writes stay (R63, R68, R70, R72, R74, R76, R78, R90; P3 tick 2). `nan` and `n` are
the NaNs of the operations that yield one (R77, log entry 3); the operations are IEEE-754's (log
entry 10, PRESUMED, as the spec marks it). -/
def Obligations.ClosedLoopTickRunsTheControlLaw : Prop :=
  ∀ (s : State) (mA mB : Measurement) (rest : List Input) (ch : ChannelId) (m : F64),
    s.inputs = .tick mA mB :: rest → s.armed = true →
    (s.chan ch).cl = true →
    answerTo ch mA mB = .value m → isNan m = false →
    ∃ (t : State) (nan : NanSite → NanBits) (n : NanBits) (before after : List Event),
      step s = .next t ∧
      t.armed = decide (s.wdCount ≠ 0#16) ∧
      t.wdCount = (if s.wdCount = 0#16 then 0#16 else s.wdCount - 1#16) ∧
      TickFrame s t ∧ t.inputs = rest ∧
      let c := s.chan ch
      let e := fsub (nan .error) c.target m
      let eint := fadd (nan .integral) c.eint e
      let d := fsub (nan .derivative) e c.eprev
      let correction := fadd (nan .correction)
        (fadd (nan .partialSum) (fmul (nan .proportionalTerm) c.kp e)
          (fmul (nan .integralTerm) c.ki eint))
        (fmul (nan .derivativeTerm) c.kd d)
      let out := scale Config.params n correction c.dir
      t.chan ch = (if s.wdCount = 0#16 then
          { c with
            eint := posZero
            eprev := e
            duty := 0#16
            dir := out.2
            pwmCmp := 0#16
            dirOut := out.2 }
        else
          { c with
            eint := eint
            eprev := e
            duty := out.1
            dir := out.2
            pwmCmp := out.1
            dirOut := out.2 }) ∧
      Appended s t
        (before ++ [.measRead ch c.sensor (.value m), .pwmWrite ch out.1 out.2.bit] ++ after) ∧
      ∀ i x, .measRead ch i x ∉ before ++ after

/-- An armed Tick short of expiry on a closed-loop channel whose measurement is a sentinel, INVALID or
a NaN: duty 0 with the direction kept, written to the latches right after the measurement, every PID
register kept, and no message: every register that no Tick writes stays (R68, R70, R71, R74, R90). For
the expiring Tick see `ExpiringTickForcesAStop`. -/
def Obligations.SentinelTickDrivesZeroAndKeepsThePid : Prop :=
  ∀ (s : State) (mA mB : Measurement) (rest : List Input) (ch : ChannelId) (m : Measurement),
    s.inputs = .tick mA mB :: rest → s.armed = true → s.wdCount ≠ 0#16 →
    (s.chan ch).cl = true →
    answerTo ch mA mB = m →
    (m = .invalid ∨ ∃ x, m = .value x ∧ isNan x = true) →
    ∃ t before after, step s = .next t ∧
      t.armed = true ∧ t.wdCount.toNat + 1 = s.wdCount.toNat ∧
      TickFrame s t ∧ t.inputs = rest ∧
      t.chan ch = { s.chan ch with duty := 0#16, pwmCmp := 0#16, dirOut := (s.chan ch).dir } ∧
      Appended s t
        (before ++ [.measRead ch (s.chan ch).sensor m, .pwmWrite ch 0#16 (s.chan ch).dir.bit] ++
          after) ∧
      ∀ i x, .measRead ch i x ∉ before ++ after

/-- The expiring Tick: it finds `WD_COUNT` 0, runs phases 1 and 2 as the Tick of the same state with
any other count `n` does, and then, where that Tick counts down, forces the stop and emits
`AnnExpired`. So `EPREV`, `DIR` and the direction latch are what phase 2 of that Tick leaves, and the
history holds its events first. Configuration, `SEL`, receiver, queue and reply are as before (R63,
R68, R76, R90). -/
def Obligations.ExpiringTickForcesAStop : Prop :=
  ∀ (s : State) (mA mB : Measurement) (rest : List Input) (n : Half),
    s.inputs = .tick mA mB :: rest → s.armed = true → s.wdCount = 0#16 → n ≠ 0#16 →
    ∃ t u, step s = .next t ∧ step { s with wdCount := n } = .next u ∧
      t = { u with
        chA := { u.chA with duty := 0#16, eint := posZero, pwmCmp := 0#16 }
        chB := { u.chB with duty := 0#16, eint := posZero, pwmCmp := 0#16 }
        armed := false
        wdCount := 0#16
        history := u.history ++
          [.pwmWrite .a 0#16 u.chA.dirOut.bit, .pwmWrite .b 0#16 u.chB.dirOut.bit, .annExpired] } ∧
      (∀ ch, t.chan ch = { s.chan ch with
        duty := 0#16
        pwmCmp := 0#16
        eint := posZero
        eprev := (u.chan ch).eprev
        dir := (u.chan ch).dir
        dirOut := (u.chan ch).dir }) ∧
      TickFrame s t ∧ t.inputs = rest

/-- The order inside a Tick: the annunciator refresh, then channel A's measurement (asked for where it
is armed and closed-loop, at its sensor index) and latch write, then channel B's, then the watchdog's
events where it expires. The latch writes carry the duties and directions that phase 2 computes, on an
expiring Tick too: those that the Tick of the same state with count 1, which cannot expire, leaves
(R63, R68, R70, R74, R83, R90; V1.3, P3 tick 2). -/
def Obligations.TickEmitsItsEventsInOrder : Prop :=
  ∀ (s : State) (mA mB : Measurement) (rest : List Input),
    s.inputs = .tick mA mB :: rest →
    ∃ t u, step s = .next t ∧ step { s with wdCount := 1#16 } = .next u ∧
      Appended s t
        (.annRefresh ::
          (if s.armed ∧ s.chA.cl then [.measRead .a s.chA.sensor mA] else []) ++
          [.pwmWrite .a u.chA.duty u.chA.dir.bit] ++
          (if s.armed ∧ s.chB.cl then [.measRead .b s.chB.sensor mB] else []) ++
          [.pwmWrite .b u.chB.duty u.chB.dir.bit] ++
          (if s.armed ∧ s.wdCount = 0#16 then
            [.pwmWrite .a 0#16 t.chA.dirOut.bit, .pwmWrite .b 0#16 t.chB.dirOut.bit, .annExpired]
          else [])) ∧
      (∀ ch, (t.chan ch).dir = (u.chan ch).dir ∧ (t.chan ch).dirOut = (u.chan ch).dir) ∧
      (¬ (s.armed ∧ s.wdCount = 0#16) → ∀ ch, (t.chan ch).duty = (u.chan ch).duty)

/-- No Tick sees a partly received frame: whatever the receiver registers hold, a Tick does the same
and leaves them as they are (R42 item 3; V5.4). -/
def Obligations.TickIsBlindToTheReceiver : Prop :=
  ∀ (s : State) (P : Params) (mA mB : Measurement) (st : RxState) (op : Byte) (cnt : Nat)
    (buf : Vector Byte 8),
    State.tick { s with rxState := st, rxOp := op, rxCnt := cnt, rxBuf := buf } P mA mB =
      { s.tick P mA mB with rxState := st, rxOp := op, rxCnt := cnt, rxBuf := buf }

/-! ### Which transition emits which annunciator event -/

/-- R65, R83: a Tick emits exactly one `AnnRefresh`, as its first event, and no other transition emits
any. -/
def Obligations.RefreshIsEmittedOncePerTick : Prop :=
  ∀ s t : State, step s = .next t → ∃ l, Appended s t l ∧
    ((∃ mA mB, s.inputs.head? = some (.tick mA mB)) →
      l.head? = some .annRefresh ∧ l.count .annRefresh = 1) ∧
    ((∀ mA mB, s.inputs.head? ≠ some (.tick mA mB)) → l.count .annRefresh = 0)

/-- R84: the commit of a command emits `AnnActivity` of its opcode once, as its first event, and no
other transition emits any. -/
def Obligations.ActivityIsEmittedOncePerCommit : Prop :=
  ∀ s t : State, step s = .next t → ∃ l, Appended s t l ∧
    (∀ i, s.nextCommit = some i →
      l.head? = some (.annActivity i.opcode.code) ∧ ∀ op, .annActivity op ∉ l.tail) ∧
    (s.nextCommit = none → ∀ op, .annActivity op ∉ l)

/-- R86: `AnnExpired` is emitted by the expiring Tick alone, once and last; no command emits it. -/
def Obligations.ExpiryIsEmittedByTheExpiringTickAlone : Prop :=
  ∀ s t : State, step s = .next t → ∃ l, Appended s t l ∧
    ((∃ mA mB, s.inputs.head? = some (.tick mA mB)) ∧ s.armed = true ∧ s.wdCount = 0#16 →
      l.getLast? = some .annExpired ∧ l.count .annExpired = 1) ∧
    (¬ ((∃ mA mB, s.inputs.head? = some (.tick mA mB)) ∧ s.armed = true ∧ s.wdCount = 0#16) →
      .annExpired ∉ l)

/-- `AnnReset` is emitted by the commit of RESET alone, last (R87, R104). -/
def Obligations.AnnResetIsEmittedByResetAlone : Prop :=
  ∀ s t : State, step s = .next t → ∃ l, Appended s t l ∧
    (s.nextCommit = some .reset → l.getLast? = some .annReset ∧ l.count .annReset = 1) ∧
    (s.nextCommit ≠ some .reset → .annReset ∉ l)

/-! ### The whole machine -/

/-- R129: every register after power-on reset, an empty history, and a block that waits: with no
input, no transition happens. That no input is pending at reset, and that the step then leaves the
state as it is, are the model's own (log entry 2). -/
def Obligations.PowerOnStateIsTheTableAndWaits : Prop :=
  (∀ ch, State.reset.chan ch =
    { duty := 0#16, dir := .forward, cl := false, sensor := 0#6
      kp := 0x0000000000000000#64, ki := 0x0000000000000000#64, kd := 0x0000000000000000#64
      target := 0x0000000000000000#64, eprev := 0x0000000000000000#64
      eint := 0x0000000000000000#64
      pwmCmp := 0#16, dirOut := .forward }) ∧
  State.reset.armed = false ∧ State.reset.wdCount = 0#16 ∧ State.reset.sel = .a ∧
  State.reset.rxState = .idle ∧ State.reset.rxOp = 0x00#8 ∧ State.reset.rxCnt = 0 ∧
  (∀ b ∈ State.reset.rxBuf.toList, b = 0x00#8) ∧
  State.reset.msgq = [] ∧ State.reset.msgqOvf = false ∧
  State.reset.reply = [] ∧ State.reset.replyPtr = 0 ∧
  State.reset.history = [] ∧
  step State.reset = .next State.reset

/-- The invariants of R31 (an inference that the spec marks as derived) hold at power-on reset. -/
def Obligations.PowerOnStateMeetsTheInvariants : Prop := State.reset.Inv

/-- R31 (an inference that the spec marks as derived): every complete transition leaves the invariants
holding, from every state in which they hold. -/
def Obligations.EveryStepKeepsTheInvariants : Prop :=
  ∀ s t : State, s.Inv → step s = .next t → t.Inv

/-- Every input has its transition: from a state that meets the invariants no step faults or refuses,
whatever the input (R46, R99). With no input the block waits, which is the model's own (log entry 2). -/
def Obligations.EveryInputHasItsTransition : Prop :=
  ∀ s : State, s.Inv → ∃ t, step s = .next t

/-- The output latches are the last `PwmWrite` per channel (R37), or the reset values where there has
been none (R23): it holds after reset, and every step keeps it. -/
def Obligations.LatchesAreTheLastWritesInTheHistory : Prop :=
  State.reset.LatchesFollowHistory ∧
  ∀ s t : State, s.LatchesFollowHistory → step s = .next t → t.LatchesFollowHistory

/-- Inputs are taken one a step in the order in which they arrive, and the event history only grows
(R37, R41, R42). That they stand in a list is the model's own (log entry 2). -/
def Obligations.EachStepTakesOneInputAndOnlyAddsEvents : Prop :=
  ∀ s t : State, step s = .next t → t.inputs = s.inputs.tail ∧ ∃ l, Appended s t l

/-- R75 (an inference that the spec marks as derived): a compare latch becomes nonzero only in a Tick
that finds the block armed, and a transition that disarms the block leaves both compare latches 0. -/
def Obligations.ActuationIsGatedByArmed : Prop :=
  ∀ s t : State, step s = .next t →
    (∀ ch, (s.chan ch).pwmCmp = 0#16 → (t.chan ch).pwmCmp ≠ 0#16 →
      s.armed = true ∧ ∃ mA mB, s.inputs.head? = some (.tick mA mB)) ∧
    (s.armed = true → t.armed = false → t.chA.pwmCmp = 0#16 ∧ t.chB.pwmCmp = 0#16)

/-- `ARMED` is set by a GO commit alone, and cleared by the commit of STOP, PAUSE or RESET or by the
expiring Tick alone (R24, R29). -/
def Obligations.OnlyGoArmsAndOnlyAForcedStopDisarms : Prop :=
  ∀ s t : State, step s = .next t →
    (s.armed = false → t.armed = true → ∃ x, s.nextCommit = some (.go x)) ∧
    (s.armed = true → t.armed = false →
      s.nextCommit = some .stop ∨ s.nextCommit = some .pause ∨ s.nextCommit = some .reset ∨
      ((∃ mA mB, s.inputs.head? = some (.tick mA mB)) ∧ s.wdCount = 0#16))

/-- R91: a Tick that finds the block disarmed leaves `ARMED` and `WD_COUNT`, every transition into
disarmed writes `WD_COUNT` 0, and so it reads 0 in every disarmed state that meets the invariants. -/
def Obligations.DisarmedWatchdogReadsZero : Prop :=
  (∀ (s t : State) (mA mB : Measurement), s.inputs.head? = some (.tick mA mB) → s.armed = false →
    step s = .next t → t.armed = false ∧ t.wdCount = s.wdCount) ∧
  (∀ s t : State, step s = .next t → s.armed = true → t.armed = false → t.wdCount = 0#16) ∧
  (∀ s t : State, s.Inv → step s = .next t → t.armed = false → t.wdCount = 0#16)

/-- The duty's writers: outside a Tick a transition leaves a duty or writes it 0, and no transition
moves it past `MAX_DUTY` (R18, R111; R73, which the spec marks as derived). -/
def Obligations.DutyIsZeroedOrScaledNeverPastTheBound : Prop :=
  ∀ (s t : State) (ch : ChannelId), step s = .next t →
    ((t.chan ch).duty = (s.chan ch).duty ∨
      (t.chan ch).duty.toNat ≤ Config.params.maxDuty.toNat) ∧
    ((∀ mA mB, s.inputs.head? ≠ some (.tick mA mB)) →
      (t.chan ch).duty = (s.chan ch).duty ∨ (t.chan ch).duty = 0#16)

/-- The configuration, `SEL` and both channels' mode, sensor index, gains and target, changes in the
commit of a command alone: no Tick, no reply read, no frame end, no byte that completes no frame
changes any of it (R20 to R22, R25). -/
def Obligations.ConfigurationChangesInCommitsAlone : Prop :=
  ∀ s t : State, step s = .next t → s.nextCommit = none →
    t.sel = s.sel ∧
    ∀ ch, (t.chan ch).cl = (s.chan ch).cl ∧ (t.chan ch).sensor = (s.chan ch).sensor ∧
      (t.chan ch).kp = (s.chan ch).kp ∧ (t.chan ch).ki = (s.chan ch).ki ∧
      (t.chan ch).kd = (s.chan ch).kd ∧ (t.chan ch).target = (s.chan ch).target

/-- The controller's memory, `EINT` and `EPREV`, moves in a Tick of an armed closed-loop channel alone;
every other transition leaves each of the two or clears it (R22, R79). -/
def Obligations.PidMemoryMovesInArmedClosedLoopTicksAlone : Prop :=
  ∀ (s t : State) (ch : ChannelId), step s = .next t →
    (s.armed = true ∧ (s.chan ch).cl = true ∧ ∃ mA mB, s.inputs.head? = some (.tick mA mB)) ∨
    (((t.chan ch).eint = (s.chan ch).eint ∨ (t.chan ch).eint = posZero) ∧
      ((t.chan ch).eprev = (s.chan ch).eprev ∨ (t.chan ch).eprev = posZero))

/-- The writers of the queue, the reply and the direction. A step that changes the queue or its
overflow bit commits GET_MESSAGES or logs a protocol error (R27); one that changes the reply commits a
query, and one that moves its pointer does or is a reply read (R28); one that changes a direction
commits RESET or is a Tick of the armed block with that channel closed-loop (R19, R29, R68). -/
def Obligations.QueueReplyAndDirectionHaveTheirWritersAlone : Prop :=
  ∀ s t : State, step s = .next t →
    (t.msgq ≠ s.msgq ∨ t.msgqOvf ≠ s.msgqOvf →
      s.nextCommit = some .getMessages ∨
      ∃ code detail, Appended s t [.annProtoError code detail]) ∧
    (t.reply ≠ s.reply →
      s.nextCommit = some .getFirmwareVersion ∨ s.nextCommit = some .getMessages) ∧
    (t.replyPtr ≠ s.replyPtr →
      s.nextCommit = some .getFirmwareVersion ∨ s.nextCommit = some .getMessages ∨
      s.inputs.head? = some .txRead) ∧
    ∀ ch, (t.chan ch).dir ≠ (s.chan ch).dir →
      s.nextCommit = some .reset ∨
      (s.armed = true ∧ (s.chan ch).cl = true ∧ ∃ mA mB, s.inputs.head? = some (.tick mA mB))

/-! ### The watchdog over runs -/

/-- R92, the armed window (an inference that the spec marks as derived): from an armed state with count
`n` (a GO commit leaves `n = t`), and while no motion command commits, the first `n` Ticks count `n`
down with the block armed, whatever other inputs fall between them, and Tick `n + 1` disarms it. -/
def Obligations.ArmedWindowLastsTheTimeoutPlusOneTicks : Prop :=
  ∀ (k : Nat) (s : State), s.Inv → s.armed = true → s.commitsNo Instr.isMotion k = true →
    ∃ t : State, run k s = .next t ∧
      (s.ticksAmong k ≤ s.wdCount.toNat →
        t.armed = true ∧ t.wdCount.toNat + s.ticksAmong k = s.wdCount.toNat) ∧
      (s.wdCount.toNat < s.ticksAmong k → t.armed = false ∧ t.wdCount = 0#16)

/-- R93, the failsafe bound (an inference that the spec marks as derived): in every run in which no GO
commits and more Ticks fall than the watchdog count at its start, whatever else the master sends, both
channels end at duty 0 with the latches at 0 and the block disarmed; and so they stay, the run being
of any length. -/
def Obligations.WithoutGoTheMotorsStop : Prop :=
  ∀ (k : Nat) (s : State), s.Inv → s.commitsNo Instr.isGo k = true →
    s.wdCount.toNat < s.ticksAmong k →
    ∃ t : State, run k s = .next t ∧
      t.armed = false ∧ t.chA.duty = 0#16 ∧ t.chB.duty = 0#16 ∧
      t.chA.pwmCmp = 0#16 ∧ t.chB.pwmCmp = 0#16

/-- The renewal race (R119 item 3; R136, which the spec marks as derived): a GO with a nonzero timeout
whose last byte arrives with the Tick that finds the count 0. GO first, the block stays armed and
nothing expires; Tick first, it expires and the GO arms it again. -/
def Obligations.RenewalRaceHasBothOutcomes : Prop :=
  ∀ (s : State) (b : Byte) (x : Half) (mA mB : Measurement) (rest : List Input),
    s.armed = true → s.wdCount = 0#16 → s.completes b = some (.go x) → x ≠ 0#16 →
    (s.inputs = .rxByte b :: .tick mA mB :: rest →
      ∃ t l, run 2 s = .next t ∧ t.armed = true ∧ t.wdCount = x - 1#16 ∧
        Appended s t l ∧ .annExpired ∉ l) ∧
    (s.inputs = .tick mA mB :: .rxByte b :: rest →
      ∃ t l, run 2 s = .next t ∧ t.armed = true ∧ t.wdCount = x ∧
        t.chA.eint = posZero ∧ t.chB.eint = posZero ∧
        t.chA.duty = 0#16 ∧ t.chB.duty = 0#16 ∧
        Appended s t l ∧ .annExpired ∈ l)

/-! ### Binary64 -/

/-- The sum of two finite values is the exact sum, rounded once to nearest with a tie to even, or the
infinity of its sign past the largest finite value. The mode is the spec's (R77, D5); the IEEE-754
layout and results are log entry 10's, PRESUMED, as R55 and R77 mark them (general knowledge). -/
def Obligations.SumIsCorrectlyRounded : Prop :=
  ∀ (n : NanBits) (a b : F64) (sa sb : Bool) (ua ub : Nat),
    classify a = .fin sa ua → classify b = .fin sb ub →
    IsRounded (signedUnits sa ua + signedUnits sb ub) 0 (fadd n a b)

/-- The product of two finite values is the exact product, rounded once to nearest with a tie to even,
subnormal results kept, with the sign of the operands' signs. The mode and the subnormals are the
spec's (R77, D5); the IEEE-754 layout and results are log entry 10's, PRESUMED, as R55 and R77 mark
them (general knowledge). -/
def Obligations.ProductIsCorrectlyRounded : Prop :=
  ∀ (n : NanBits) (a b : F64) (sa sb : Bool) (ua ub : Nat),
    classify a = .fin sa ua → classify b = .fin sb ub →
    IsRounded (signedUnits sa ua * signedUnits sb ub) 1074 (fmul n a b) ∧
    f64Sign (fmul n a b) = (sa ^^ sb)

/-- A sum or a product is a NaN exactly where an operand is, or for opposite infinities, or for zero
times an infinity. These results of IEEE-754 are log entry 10's, PRESUMED, as R77 marks them (general
knowledge). Which infinity the other infinite operands give is
`InfiniteOperandsGiveTheirInfinity`. -/
def Obligations.NanResultsAreExactlyTheInvalidOperations : Prop :=
  ∀ (n : NanBits) (a b : F64),
    (isNan (fadd n a b) = true ↔
      isNan a = true ∨ isNan b = true ∨
      (classify a = .inf false ∧ classify b = .inf true) ∨
      (classify a = .inf true ∧ classify b = .inf false)) ∧
    (isNan (fmul n a b) = true ↔
      isNan a = true ∨ isNan b = true ∨
      ((∃ s, classify a = .inf s) ∧ ∃ s, classify b = .fin s 0) ∨
      ((∃ s, classify a = .fin s 0) ∧ ∃ s, classify b = .inf s))

/-- A finite value less itself is `+0.0`, and adding `+0.0` to a finite value changes it only where it
is `-0.0`. These results of IEEE-754 are log entry 10's, PRESUMED, as R77 marks them (general
knowledge); R82, which rests on them, is an inference that the spec marks as derived. Every other zero
sum is in `ZeroSumsAndDifferencesHaveTheirSign`. -/
def Obligations.ZeroErrorArithmetic : Prop :=
  ∀ (n : NanBits) (x : F64), isFinite x = true →
    fsub n x x = posZero ∧
    fadd n x posZero = if x = negZero then posZero else x

/-- `f64_of_int` is exact up to 2^53, and `trunc` takes the integer back (R77). What a pattern stands for
is log entry 10's, PRESUMED, as R55 marks it (general knowledge). -/
def Obligations.IntegersConvertExactly : Prop :=
  ∀ k : Nat, k ≤ 2 ^ 53 →
    classify (f64OfNat k) = .fin false (k * 2 ^ 1074) ∧ truncF64 (f64OfNat k) = k

/-- `Scale`: NaN and zero give duty 0 with the direction kept; an infinity gives `MAX_DUTY`; the sign of
any other correction sets the direction, and its magnitude times `OUTPUT_SCALE`, rounded once, the
duty: `MAX_DUTY` where that product is infinite or at least `MAX_DUTY`, else its integer part. The duty
never passes `MAX_DUTY`, and the product is no NaN where the correction is none (R72). `units` counts
2^-1074; the binary64 layout and product are IEEE-754's (log entry 10, PRESUMED, as R55 and R77 mark
it). -/
def Obligations.ScaleMeetsItsContract : Prop :=
  ∀ (P : Params) (n : NanBits) (c : F64) (d : Direction),
    (isNan c = true → scale P n c d = (0#16, d)) ∧
    (c = posZero ∨ c = negZero → scale P n c d = (0#16, d)) ∧
    (∀ neg, classify c = .inf neg →
      scale P n c d = (P.maxDuty, if neg then .reverse else .forward)) ∧
    (∀ neg u, classify c = .fin neg u → u ≠ 0 →
      (scale P n c d).2 = (if neg then .reverse else .forward) ∧
      match classify (fmul n (fabs c) P.outputScale) with
      | .inf false => (scale P n c d).1 = P.maxDuty
      | .fin false units =>
        if P.maxDuty.toNat * 2 ^ 1074 ≤ units then (scale P n c d).1 = P.maxDuty
        else (scale P n c d).1.toNat = units / 2 ^ 1074
      | _ => False) ∧
    (scale P n c d).1.toNat ≤ P.maxDuty.toNat ∧
    (isNan c = false → isNan (fmul n (fabs c) P.outputScale) = false)

/-- R82, the zero-error property (an inference that the spec marks as derived), for one Tick short of
expiry on an armed closed-loop channel whose measurement equals its finite `TARGET`, with finite gains
and an `EINT` that is no NaN: `EPREV` becomes `+0.0` and `EINT` stays, but that `-0.0` becomes `+0.0`;
and where `EPREV` was `+0.0` already, as from the second such Tick on, the duty is `Scale` of `KI` times
`EINT`, whatever the direction and the NaNs, so that it stays. The arithmetic of zeros is log entry
10's, PRESUMED, as R77 marks it. An expiring Tick ends at duty 0 (`ExpiringTickForcesAStop`), and what a
NaN `EINT` makes of the correction is in `ClosedLoopTickRunsTheControlLaw` and
`NanResultsAreExactlyTheInvalidOperations`. -/
def Obligations.ZeroErrorKeepsTheDuty : Prop :=
  ∀ (s : State) (mA mB : Measurement) (rest : List Input) (ch : ChannelId),
    s.inputs = .tick mA mB :: rest → s.armed = true → s.wdCount ≠ 0#16 →
    (s.chan ch).cl = true →
    answerTo ch mA mB = .value (s.chan ch).target →
    isFinite (s.chan ch).target = true → isFinite (s.chan ch).kp = true →
    isFinite (s.chan ch).ki = true → isFinite (s.chan ch).kd = true →
    isNan (s.chan ch).eint = false →
    ∃ t, step s = .next t ∧
      (t.chan ch).eprev = posZero ∧
      (t.chan ch).eint = (if (s.chan ch).eint = negZero then posZero else (s.chan ch).eint) ∧
      ((s.chan ch).eprev = posZero →
        ∀ (n n' : NanBits) (d : Direction),
          (t.chan ch).duty =
            (scale Config.params n' (fmul n (s.chan ch).ki (t.chan ch).eint) d).1)

/-- The difference of two finite values is the exact difference, rounded once to nearest with a tie to
even, or the infinity of its sign past the largest finite value. The mode is the spec's (R77, D5); the
IEEE-754 layout and results are log entry 10's, PRESUMED, as R55 and R77 mark them (general
knowledge). -/
def Obligations.DifferenceIsCorrectlyRounded : Prop :=
  ∀ (n : NanBits) (a b : F64) (sa sb : Bool) (ua ub : Nat),
    classify a = .fin sa ua → classify b = .fin sb ub →
    IsRounded (signedUnits sa ua - signedUnits sb ub) 0 (fsub n a b)

/-- The sign of an exactly zero sum or difference of finite values: `+0.0`, but `-0.0` for the sum of
two `-0.0` and for `-0.0` less `+0.0`. These results of IEEE-754 are log entry 10's, PRESUMED, as R77
marks the sign of a zero result (general knowledge). -/
def Obligations.ZeroSumsAndDifferencesHaveTheirSign : Prop :=
  ∀ (n : NanBits) (a b : F64) (sa sb : Bool) (ua ub : Nat),
    classify a = .fin sa ua → classify b = .fin sb ub →
    (signedUnits sa ua + signedUnits sb ub = 0 →
      fadd n a b = if a = negZero ∧ b = negZero then negZero else posZero) ∧
    (signedUnits sa ua = signedUnits sb ub →
      fsub n a b = if a = negZero ∧ b = posZero then negZero else posZero)

/-- Which infinity an infinite operand gives, in sums, differences and products that are no NaN; and
which differences are NaN. With `NanResultsAreExactlyTheInvalidOperations` it covers every infinite
operand. These results of IEEE-754 are log entry 10's, PRESUMED, as R77 marks them (general
knowledge). -/
def Obligations.InfiniteOperandsGiveTheirInfinity : Prop :=
  ∀ (n : NanBits) (a b : F64) (s s' : Bool) (u : Nat),
    (classify a = .inf s → classify b = .inf s' →
      (s = s' → classify (fadd n a b) = .inf s) ∧
      (s ≠ s' → classify (fsub n a b) = .inf s) ∧
      classify (fmul n a b) = .inf (s ^^ s')) ∧
    (classify a = .inf s → classify b = .fin s' u →
      classify (fadd n a b) = .inf s ∧ classify (fadd n b a) = .inf s ∧
      classify (fsub n a b) = .inf s ∧ classify (fsub n b a) = .inf (!s) ∧
      (u ≠ 0 →
        classify (fmul n a b) = .inf (s ^^ s') ∧ classify (fmul n b a) = .inf (s ^^ s'))) ∧
    (isNan (fsub n a b) = true ↔
      isNan a = true ∨ isNan b = true ∨ ∃ neg, classify a = .inf neg ∧ classify b = .inf neg)
end

