-- ==== Sys2Proof/Laws/State.lean ====
section
/-! SUPPORT. The small lemmas of State's accessors and updates: one per field per update, so that no
proof unfolds them. -/

namespace Sys2Proof.Machine

/-! ### The channel accessor -/

@[simp] theorem chan_a (s : State) : s.chan .a = s.chA := rfl
@[simp] theorem chan_b (s : State) : s.chan .b = s.chB := rfl

@[simp] theorem setChan_a (s : State) (c : Channel) : s.setChan .a c = { s with chA := c } := rfl
@[simp] theorem setChan_b (s : State) (c : Channel) : s.setChan .b c = { s with chB := c } := rfl

theorem chan_setChan_same (s : State) (ch : ChannelId) (c : Channel) :
    (s.setChan ch c).chan ch = c := by cases ch <;> rfl

theorem chan_setChan_other (s : State) {ch ch' : ChannelId} (c : Channel) (h : ch' ≠ ch) :
    (s.setChan ch c).chan ch' = s.chan ch' := by
  cases ch <;> cases ch' <;> first | rfl | exact absurd rfl h

theorem setChan_chan (s : State) (ch : ChannelId) : s.setChan ch (s.chan ch) = s := by
  cases ch <;> rfl

section setChan
variable (s : State) (ch : ChannelId) (c : Channel)

@[simp] theorem setChan_armed : (s.setChan ch c).armed = s.armed := by cases ch <;> rfl
@[simp] theorem setChan_wdCount : (s.setChan ch c).wdCount = s.wdCount := by cases ch <;> rfl
@[simp] theorem setChan_sel : (s.setChan ch c).sel = s.sel := by cases ch <;> rfl
@[simp] theorem setChan_rxState : (s.setChan ch c).rxState = s.rxState := by cases ch <;> rfl
@[simp] theorem setChan_rxOp : (s.setChan ch c).rxOp = s.rxOp := by cases ch <;> rfl
@[simp] theorem setChan_rxCnt : (s.setChan ch c).rxCnt = s.rxCnt := by cases ch <;> rfl
@[simp] theorem setChan_rxBuf : (s.setChan ch c).rxBuf = s.rxBuf := by cases ch <;> rfl
@[simp] theorem setChan_msgq : (s.setChan ch c).msgq = s.msgq := by cases ch <;> rfl
@[simp] theorem setChan_msgqOvf : (s.setChan ch c).msgqOvf = s.msgqOvf := by cases ch <;> rfl
@[simp] theorem setChan_reply : (s.setChan ch c).reply = s.reply := by cases ch <;> rfl
@[simp] theorem setChan_replyPtr : (s.setChan ch c).replyPtr = s.replyPtr := by cases ch <;> rfl
@[simp] theorem setChan_history : (s.setChan ch c).history = s.history := by cases ch <;> rfl
@[simp] theorem setChan_inputs : (s.setChan ch c).inputs = s.inputs := by cases ch <;> rfl
@[simp] theorem setChan_nanDraws : (s.setChan ch c).nanDraws = s.nanDraws := by cases ch <;> rfl

end setChan

/-! ### Emit -/

section emit
variable (s : State) (e : Event)

@[simp] theorem emit_chA : (s.emit e).chA = s.chA := rfl
@[simp] theorem emit_chB : (s.emit e).chB = s.chB := rfl
@[simp] theorem emit_chan (ch : ChannelId) : (s.emit e).chan ch = s.chan ch := by cases ch <;> rfl
@[simp] theorem emit_armed : (s.emit e).armed = s.armed := rfl
@[simp] theorem emit_wdCount : (s.emit e).wdCount = s.wdCount := rfl
@[simp] theorem emit_sel : (s.emit e).sel = s.sel := rfl
@[simp] theorem emit_rxState : (s.emit e).rxState = s.rxState := rfl
@[simp] theorem emit_rxOp : (s.emit e).rxOp = s.rxOp := rfl
@[simp] theorem emit_rxCnt : (s.emit e).rxCnt = s.rxCnt := rfl
@[simp] theorem emit_rxBuf : (s.emit e).rxBuf = s.rxBuf := rfl
@[simp] theorem emit_msgq : (s.emit e).msgq = s.msgq := rfl
@[simp] theorem emit_msgqOvf : (s.emit e).msgqOvf = s.msgqOvf := rfl
@[simp] theorem emit_reply : (s.emit e).reply = s.reply := rfl
@[simp] theorem emit_replyPtr : (s.emit e).replyPtr = s.replyPtr := rfl
@[simp] theorem emit_history : (s.emit e).history = s.history ++ [e] := rfl
@[simp] theorem emit_inputs : (s.emit e).inputs = s.inputs := rfl
@[simp] theorem emit_nanDraws : (s.emit e).nanDraws = s.nanDraws := rfl

end emit

/-! ### Arm and disarm -/

section arm
variable (s : State) (t : Half)

@[simp] theorem arm_chA : (s.arm t).chA = s.chA := rfl
@[simp] theorem arm_chB : (s.arm t).chB = s.chB := rfl
@[simp] theorem arm_armed : (s.arm t).armed = true := rfl
@[simp] theorem arm_wdCount : (s.arm t).wdCount = t := rfl
@[simp] theorem arm_sel : (s.arm t).sel = s.sel := rfl
@[simp] theorem arm_rxState : (s.arm t).rxState = s.rxState := rfl
@[simp] theorem arm_rxOp : (s.arm t).rxOp = s.rxOp := rfl
@[simp] theorem arm_rxCnt : (s.arm t).rxCnt = s.rxCnt := rfl
@[simp] theorem arm_rxBuf : (s.arm t).rxBuf = s.rxBuf := rfl
@[simp] theorem arm_msgq : (s.arm t).msgq = s.msgq := rfl
@[simp] theorem arm_msgqOvf : (s.arm t).msgqOvf = s.msgqOvf := rfl
@[simp] theorem arm_reply : (s.arm t).reply = s.reply := rfl
@[simp] theorem arm_replyPtr : (s.arm t).replyPtr = s.replyPtr := rfl
@[simp] theorem arm_history : (s.arm t).history = s.history := rfl
@[simp] theorem arm_inputs : (s.arm t).inputs = s.inputs := rfl
@[simp] theorem arm_nanDraws : (s.arm t).nanDraws = s.nanDraws := rfl

@[simp] theorem disarm_chA : s.disarm.chA = s.chA := rfl
@[simp] theorem disarm_chB : s.disarm.chB = s.chB := rfl
@[simp] theorem disarm_armed : s.disarm.armed = false := rfl
@[simp] theorem disarm_wdCount : s.disarm.wdCount = 0#16 := rfl
@[simp] theorem disarm_sel : s.disarm.sel = s.sel := rfl
@[simp] theorem disarm_rxState : s.disarm.rxState = s.rxState := rfl
@[simp] theorem disarm_rxOp : s.disarm.rxOp = s.rxOp := rfl
@[simp] theorem disarm_rxCnt : s.disarm.rxCnt = s.rxCnt := rfl
@[simp] theorem disarm_rxBuf : s.disarm.rxBuf = s.rxBuf := rfl
@[simp] theorem disarm_msgq : s.disarm.msgq = s.msgq := rfl
@[simp] theorem disarm_msgqOvf : s.disarm.msgqOvf = s.msgqOvf := rfl
@[simp] theorem disarm_reply : s.disarm.reply = s.reply := rfl
@[simp] theorem disarm_replyPtr : s.disarm.replyPtr = s.replyPtr := rfl
@[simp] theorem disarm_history : s.disarm.history = s.history := rfl
@[simp] theorem disarm_inputs : s.disarm.inputs = s.inputs := rfl
@[simp] theorem disarm_nanDraws : s.disarm.nanDraws = s.nanDraws := rfl

end arm

/-! ### ClearPid -/

section clearPid
variable (c : Channel)

@[simp] theorem clearPid_duty : c.clearPid.duty = c.duty := rfl
@[simp] theorem clearPid_dir : c.clearPid.dir = c.dir := rfl
@[simp] theorem clearPid_cl : c.clearPid.cl = c.cl := rfl
@[simp] theorem clearPid_sensor : c.clearPid.sensor = c.sensor := rfl
@[simp] theorem clearPid_kp : c.clearPid.kp = posZero := rfl
@[simp] theorem clearPid_ki : c.clearPid.ki = posZero := rfl
@[simp] theorem clearPid_kd : c.clearPid.kd = posZero := rfl
@[simp] theorem clearPid_target : c.clearPid.target = posZero := rfl
@[simp] theorem clearPid_eprev : c.clearPid.eprev = posZero := rfl
@[simp] theorem clearPid_eint : c.clearPid.eint = posZero := rfl
@[simp] theorem clearPid_pwmCmp : c.clearPid.pwmCmp = c.pwmCmp := rfl
@[simp] theorem clearPid_dirOut : c.clearPid.dirOut = c.dirOut := rfl

end clearPid

end Sys2Proof.Machine
end

