-- ==== Sys2Proof/Laws/Ops.lean ====
section
/-! SUPPORT. For each shared operation, one lemma that says all it can do, as an equation over the
registers: later proofs cite these and do not unfold the operations. -/

namespace Sys2Proof.Machine

/-! ### Parameters -/

/-- `MAX_DUTY` is 1..65535 (R11). -/
theorem maxDuty_range (P : Params) : 1 ≤ P.maxDuty.toNat ∧ P.maxDuty.toNat ≤ 65535 := by
  have h := P.maxDutyPred.isLt
  simp only [Params.maxDuty, BitVec.toNat_ofNat]
  omega

/-- `MSGQ_DEPTH` is 1..127 (R11). -/
theorem msgqDepth_range (P : Params) : 1 ≤ P.msgqDepth ∧ P.msgqDepth ≤ 127 := by
  have h := P.msgqDepthPred.isLt
  simp only [Params.msgqDepth]
  omega

/-- `OUTPUT_SCALE` is positive and finite (R11): its pattern lies between the least subnormal and the
largest finite value. -/
theorem outputScale_range (P : Params) :
    1 ≤ P.outputScale.toNat ∧ P.outputScale.toNat ≤ 0x7FEFFFFFFFFFFFFF := by
  have h := P.outputScalePred.isLt
  simp only [Params.outputScale, BitVec.toNat_ofNat]
  omega

/-! ### Actuation and ForceStop -/

/-- All that `WriteActuation` does (R74), channel A. -/
theorem writeActuation_a (s : State) : s.writeActuation .a =
    { s with
      chA := { s.chA with pwmCmp := s.chA.duty, dirOut := s.chA.dir }
      history := s.history ++ [.pwmWrite .a s.chA.duty s.chA.dir.bit] } := rfl

/-- All that `WriteActuation` does (R74), channel B. -/
theorem writeActuation_b (s : State) : s.writeActuation .b =
    { s with
      chB := { s.chB with pwmCmp := s.chB.duty, dirOut := s.chB.dir }
      history := s.history ++ [.pwmWrite .b s.chB.duty s.chB.dir.bit] } := rfl

/-- All that `ForceStop` does (R76). -/
theorem forceStop_eq (s : State) : s.forceStop =
    { s with
      chA := { s.chA with duty := 0#16, eint := posZero, pwmCmp := 0#16 }
      chB := { s.chB with duty := 0#16, eint := posZero, pwmCmp := 0#16 }
      armed := false
      wdCount := 0#16
      history := s.history ++
        [.pwmWrite .a 0#16 s.chA.dirOut.bit, .pwmWrite .b 0#16 s.chB.dirOut.bit] } := by
  simp [State.forceStop, State.forceStopChannel, State.disarm, State.emit]

/-! ### LogMessage -/

/-- LogMessage where the queue has room (R112). -/
theorem logMessage_room (s : State) (P : Params) (code detail : Byte)
    (h : s.msgq.length < P.msgqDepth) : s.logMessage P code detail =
    { s with
      msgq := s.msgq ++ [⟨code, detail⟩]
      history := s.history ++ [.annProtoError code detail] } := by
  simp [State.logMessage, State.emit, h]

/-- LogMessage where the queue is full (R112). -/
theorem logMessage_full (s : State) (P : Params) (code detail : Byte)
    (h : ¬ s.msgq.length < P.msgqDepth) : s.logMessage P code detail =
    { s with
      msgqOvf := true
      history := s.history ++ [.annProtoError code detail] } := by
  simp [State.logMessage, State.emit, h]

/-- All that LogMessage can do: one event, and either a message appended or the overflow bit set. -/
theorem logMessage_cases (s : State) (P : Params) (code detail : Byte) :
    (s.msgq.length < P.msgqDepth ∧ s.logMessage P code detail =
      { s with
        msgq := s.msgq ++ [⟨code, detail⟩]
        history := s.history ++ [.annProtoError code detail] }) ∨
    (P.msgqDepth ≤ s.msgq.length ∧ s.logMessage P code detail =
      { s with
        msgqOvf := true
        history := s.history ++ [.annProtoError code detail] }) := by
  by_cases h : s.msgq.length < P.msgqDepth
  · exact .inl ⟨h, logMessage_room s P code detail h⟩
  · exact .inr ⟨Nat.le_of_not_lt h, logMessage_full s P code detail h⟩

/-! ### Channel evaluation and the watchdog -/

/-- Disarmed, a channel's duty and compare latch are written 0 (R68). -/
theorem evaluate_disarmed (s : State) (P : Params) (ch : ChannelId) (m : Measurement)
    (h : s.armed = false) : s.evaluate P ch m =
    (s.setChan ch { s.chan ch with duty := 0#16 }).writeActuation ch := by
  simp [State.evaluate, h]

/-- Armed and open-loop, a channel's duty and direction go to the latches as they are (R69). -/
theorem evaluate_openLoop (s : State) (P : Params) (ch : ChannelId) (m : Measurement)
    (h : s.armed = true) (hc : (s.chan ch).cl = false) :
    s.evaluate P ch m = s.writeActuation ch := by
  simp [State.evaluate, h, hc]

/-- Armed and closed-loop, a channel computes first (R68). -/
theorem evaluate_closedLoop (s : State) (P : Params) (ch : ChannelId) (m : Measurement)
    (h : s.armed = true) (hc : (s.chan ch).cl = true) :
    s.evaluate P ch m = (s.closedLoop P ch m).writeActuation ch := by
  simp [State.evaluate, h, hc]

/-- A sentinel gives the correction `+0.0` and touches no register (R71). -/
theorem closedLoopCorrection_sentinel (s : State) (ch : ChannelId) (m : Measurement)
    (h : m = .invalid ∨ ∃ x, m = .value x ∧ isNan x = true) :
    s.closedLoopCorrection ch m = (posZero, s.emit (.measRead ch (s.chan ch).sensor m)) := by
  rcases h with rfl | ⟨x, rfl, hx⟩
  · rfl
  · simp [State.closedLoopCorrection, hx]

/-- Any other measurement runs the PID step (R70). -/
theorem closedLoopCorrection_value (s : State) (ch : ChannelId) (x : F64) (h : isNan x = false) :
    s.closedLoopCorrection ch (.value x) =
      (s.emit (.measRead ch (s.chan ch).sensor (.value x))).pidStep ch x := by
  simp [State.closedLoopCorrection, h]

/-- All that `WatchdogTick` can do (R90). -/
theorem watchdogTick_cases (s : State) :
    (s.armed = false ∧ s.watchdogTick = s) ∨
    (s.armed = true ∧ s.wdCount ≠ 0#16 ∧
      s.watchdogTick = { s with wdCount := s.wdCount - 1#16 }) ∨
    (s.armed = true ∧ s.wdCount = 0#16 ∧ s.watchdogTick = s.forceStop.emit .annExpired) := by
  unfold State.watchdogTick
  cases ha : s.armed
  · simp
  · by_cases hw : s.wdCount = 0#16 <;> simp [hw]

/-! ### The addressed channel -/

/-- All that a set command can do: one write to the closed-loop addressed channel, or nothing (R109,
R110). -/
theorem writeAddressed_cases (s : State) (f : Channel → Channel) :
    ((s.chan s.sel).cl = true ∧ s.writeAddressed f = s.setChan s.sel (f (s.chan s.sel))) ∨
    ((s.chan s.sel).cl = false ∧ s.writeAddressed f = s) := by
  unfold State.writeAddressed
  cases (s.chan s.sel).cl <;> simp

/-! ### Reply reads -/

/-- All that `TxRead` can do (R116). -/
theorem txRead_cases (s : State) :
    (∃ b, s.reply[s.replyPtr]? = some b ∧
      s.txRead = { s with replyPtr := s.replyPtr + 1, history := s.history ++ [.txByte b] }) ∨
    (s.reply.length ≤ s.replyPtr ∧
      s.txRead = { s with history := s.history ++ [.txByte 0x00#8] }) := by
  unfold State.txRead
  by_cases h : s.replyPtr < s.reply.length
  · exact .inl ⟨s.reply[s.replyPtr], List.getElem?_eq_getElem h, by simp [h, State.emit]⟩
  · exact .inr ⟨Nat.le_of_not_lt h, by simp [h, State.emit]⟩

/-! ### Commands and the receiver -/

/-- Every command completes: no arm of `exec` faults or refuses (R98: a defined opcode with a complete
payload cannot fail). -/
theorem exec_isNext (i : Instr) (s : State) : ∃ t, exec i s = .next t := by
  cases i <;> exact ⟨_, rfl⟩

/-- All that RxByte can do in `IDLE` (R95). -/
theorem rxByteIdle_cases (b : Byte) (s : State) :
    (opcodeOf b = none ∧ rxByteIdle b s =
      .next { s.logMessage Config.params unknownOpcodeCode b with rxState := .discard }) ∨
    (∃ o, opcodeOf b = some o ∧ o.len = 0 ∧
      rxByteIdle b s = commit (o.instr (stagedByte s.rxBuf)) s) ∨
    (∃ o, opcodeOf b = some o ∧ o.len ≠ 0 ∧
      rxByteIdle b s = .next { s with rxOp := b, rxCnt := 0, rxState := .payload }) := by
  unfold rxByteIdle
  cases h : opcodeOf b with
  | none => simp
  | some o => by_cases hl : o.len = 0 <;> simp [hl]

/-- All that RxByte can do in `PAYLOAD` (R95). -/
theorem rxBytePayload_cases (b : Byte) (s : State) :
    (opcodeOf s.rxOp = none ∧ rxBytePayload b s = .fault .payloadLengthUndefined) ∨
    (∃ o, opcodeOf s.rxOp = some o ∧ 8 ≤ s.rxCnt ∧
      rxBytePayload b s = .fault .stagingIndexOutOfRange) ∨
    (∃ o, ∃ h : s.rxCnt < 8, opcodeOf s.rxOp = some o ∧ s.rxCnt + 1 = o.len ∧
      rxBytePayload b s = commit (o.instr (stagedByte (s.rxBuf.set s.rxCnt b h)))
        { s with rxBuf := s.rxBuf.set s.rxCnt b h, rxState := .idle, rxCnt := 0 }) ∨
    (∃ o, ∃ h : s.rxCnt < 8, opcodeOf s.rxOp = some o ∧ s.rxCnt + 1 ≠ o.len ∧
      rxBytePayload b s =
        .next { s with rxBuf := s.rxBuf.set s.rxCnt b h, rxCnt := s.rxCnt + 1 }) := by
  unfold rxBytePayload
  cases ho : opcodeOf s.rxOp with
  | none => simp
  | some o =>
    by_cases h : s.rxCnt < 8
    · by_cases hl : s.rxCnt + 1 = o.len <;> simp [h, hl]
    · simp [h, Nat.le_of_not_lt h]

end Sys2Proof.Machine
end

