-- ==== Sys2Proof/Laws/Commands.lean ====
section
/-! SUPPORT. What the commands can do, all of them together: later proofs split on these cases and
unfold no command. -/

namespace Sys2Proof.Machine

/-- All that RESET does (R104). -/
theorem execReset_eq (s : State) : execReset s = .next { s with
    chA := Channel.reset
    chB := Channel.reset
    armed := false
    wdCount := 0#16
    sel := .a
    history := s.history ++
      [.pwmWrite .a 0#16 s.chA.dirOut.bit, .pwmWrite .b 0#16 s.chB.dirOut.bit,
        .pwmWrite .a 0#16 0#1, .pwmWrite .b 0#16 0#1, .annReset] } := by
  simp [execReset, State.resetChannel, State.emit, forceStop_eq, Channel.reset, Direction.bit]

/-- The reply's message bytes, two a message (R115). -/
theorem messageBytes_eq (l : List Message) :
    messageBytes l = l.flatMap fun m => [m.code, m.detail] := by
  induction l with
  | nil => rfl
  | cons m l ih => simp [messageBytes, ih]

/-- All that a command can do (R98, R103 to R115). -/
theorem exec_cases {i : Instr} {s t : State} (h : exec i s = .next t) :
    ((i = .stop ∨ i = .pause) ∧ t = s.forceStop) ∨
    (i = .reset ∧ execReset s = .next t) ∨
    (∃ x, i = .go x ∧ t = s.arm x) ∨
    (∃ ch cle idx, i = .setChannelMode ch cle idx ∧
      t = ({ s with sel := ch } : State).setChan ch ((s.chan ch).setMode cle idx)) ∨
    (∃ f : Channel → Channel, i.isMotion = false ∧ t = s.writeAddressed f ∧
      ∀ c, (f c).duty = c.duty ∧ (f c).dir = c.dir ∧ (f c).cl = c.cl ∧ (f c).sensor = c.sensor ∧
        (f c).eprev = c.eprev ∧ (f c).eint = c.eint ∧
        (f c).pwmCmp = c.pwmCmp ∧ (f c).dirOut = c.dirOut) ∨
    (i = .getFirmwareVersion ∧ t = s.setReply (versionBytes Config.params.fwVersion)) ∨
    (i = .getMessages ∧ t = { s with
      reply := messageHeader s.msgqOvf s.msgq.length :: messageBytes s.msgq
      replyPtr := 0
      msgq := []
      msgqOvf := false }) := by
  cases i
  case stop => exact .inl ⟨.inl rfl, (Host.Outcome.next.inj h).symm⟩
  case pause => exact .inl ⟨.inr rfl, (Host.Outcome.next.inj h).symm⟩
  case reset => exact .inr (.inl ⟨rfl, h⟩)
  case go x => exact .inr (.inr (.inl ⟨x, rfl, (Host.Outcome.next.inj h).symm⟩))
  case setChannelMode ch cle idx =>
    exact .inr (.inr (.inr (.inl ⟨ch, cle, idx, rfl, (Host.Outcome.next.inj h).symm⟩)))
  case setTarget x | setP x | setI x | setD x =>
    exact .inr (.inr (.inr (.inr (.inl ⟨_, rfl, (Host.Outcome.next.inj h).symm,
      fun c => ⟨rfl, rfl, rfl, rfl, rfl, rfl, rfl, rfl⟩⟩))))
  case getFirmwareVersion =>
    exact .inr (.inr (.inr (.inr (.inr (.inl ⟨rfl, (Host.Outcome.next.inj h).symm⟩)))))
  case getMessages =>
    exact .inr (.inr (.inr (.inr (.inr (.inr ⟨rfl, (Host.Outcome.next.inj h).symm⟩)))))

/-- No command touches the receiver, the inputs or the count of draws (R98). -/
theorem exec_frame {i : Instr} {s t : State} (h : exec i s = .next t) :
    t.rxState = s.rxState ∧ t.rxOp = s.rxOp ∧ t.rxCnt = s.rxCnt ∧ t.rxBuf = s.rxBuf ∧
      t.inputs = s.inputs ∧ t.nanDraws = s.nanDraws := by
  rcases exec_cases h with ⟨-, rfl⟩ | ⟨-, h⟩ | ⟨_, -, rfl⟩ | ⟨_, _, _, -, rfl⟩ | ⟨f, -, rfl, -⟩ |
    ⟨-, rfl⟩ | ⟨-, rfl⟩
  · simp [forceStop_eq]
  · rw [execReset_eq] at h
    rw [← Host.Outcome.next.inj h]
    simp
  · simp
  · simp
  · rcases writeAddressed_cases s f with ⟨-, h⟩ | ⟨-, h⟩ <;> rw [h] <;> simp
  · simp [State.setReply]
  · simp

end Sys2Proof.Machine
end

