-- ==== Sys2Proof/Laws/Decode.lean ====
section
/-! SUPPORT. What the decoder's tables and operand fields do: the opcode map and its inverse, the
payload fields and their bytes, and which bytes are one whole frame. -/

namespace Sys2Proof

/-- The opcode map reads back every opcode (R49). -/
theorem opcodeOf_code (o : Opcode) : opcodeOf o.code = some o := by cases o <;> decide

/-- Only an opcode's own byte reads as that opcode (R56). -/
theorem eq_code_of_opcodeOf {b : Byte} {o : Opcode} (h : opcodeOf b = some o) : b = o.code := by
  revert h; cases o <;> (revert b; decide +kernel)

/-- No payload is longer than the staging buffer (R26, R49). -/
theorem opcode_len_le (o : Opcode) : o.len ≤ 8 := by cases o <;> decide

/-- The payload of an instruction has the length of its opcode (R49). -/
theorem length_payload (i : Instr) : i.payload.length = i.opcode.len := by cases i <;> rfl

/-- The instruction of a frame has the frame's opcode (R50 to R53). -/
theorem opcode_instr (o : Opcode) (p : Nat → Byte) : (o.instr p).opcode = o := by cases o <;> rfl

/-- Only the payload bytes below `LEN` are read (R54). -/
theorem instr_congr (o : Opcode) (p q : Nat → Byte) (h : ∀ i, i < o.len → p i = q i) :
    o.instr p = o.instr q := by
  cases o <;> simp only [Opcode.len] at h <;> simp only [Opcode.instr]
  · rw [h 0 (by omega), h 1 (by omega)]
  · rw [h 0 (by omega)]
  all_goals
    rw [h 0 (by omega), h 1 (by omega), h 2 (by omega), h 3 (by omega), h 4 (by omega),
      h 5 (by omega), h 6 (by omega), h 7 (by omega)]

/-- `u16_le` of a half's two bytes (R38). -/
theorem u16le_bytes (t : Half) : u16le (t.extractLsb' 0 8) (t.extractLsb' 8 8) = t := by
  simp only [u16le]
  ext i hi
  simp
  grind

/-- `f64_le` of a pattern's eight bytes (R38). -/
theorem f64le_bytes (x : F64) :
    f64le (byteOf x 0) (byteOf x 1) (byteOf x 2) (byteOf x 3) (byteOf x 4) (byteOf x 5) (byteOf x 6)
      (byteOf x 7) = x := by
  simp only [f64le, byteOf]
  ext i hi
  simp
  grind

/-- The mode byte's three fields (R52). -/
theorem modeOfByte_modeByte (ch : ChannelId) (cle : Bool) (idx : SensorIndex) :
    modeOfByte (modeByte ch cle idx) = .setChannelMode ch cle idx := by
  cases ch <;> cases cle <;> (revert idx; decide +kernel)

/-- The decoder on a sequence with a first byte (R48). -/
theorem decode_cons (op : Byte) (l : List Byte) : decode (op :: l) =
    match opcodeOf op with
    | none => .error (.unknownOpcode op)
    | some o =>
      if l.length < o.len then .error (.shortFrame op)
      else .ok (o.instr (fun j => l.getD j 0x00#8), l.drop o.len) := rfl

/-- A byte sequence is one whole frame exactly where its opcode is defined and as many bytes follow
as `LEN` says (R48). -/
theorem decode_whole (op : Byte) (l : List Byte) (i : Instr) :
    decode (op :: l) = .ok (i, []) ↔
      ∃ o, opcodeOf op = some o ∧ l.length = o.len ∧ i = o.instr fun j => l.getD j 0x00#8 := by
  rw [decode_cons]
  cases opcodeOf op with
  | none => simp
  | some o =>
    simp only [Option.some.injEq, exists_eq_left']
    split_ifs with h
    · simp only [false_iff, not_and]; omega
    · simp only [Except.ok.injEq, Prod.mk.injEq, List.drop_eq_nil_iff]
      constructor
      · rintro ⟨rfl, h2⟩; exact ⟨by omega, rfl⟩
      · rintro ⟨h1, rfl⟩; exact ⟨rfl, by omega⟩

end Sys2Proof
end

