-- ==== Sys2Proof/Laws/Float.lean ====
section
/-! SUPPORT. The small lemmas of the binary64 operations: what a pattern's classes are, which
operations yield a NaN, and what a packed magnitude and a rounding read back as. -/

namespace Sys2Proof.Machine

/-- `isnan` and the reading of the pattern agree (R55, R77). -/
theorem isNan_iff (x : F64) : isNan x = true ↔ classify x = .nan := by
  unfold isNan classify
  split_ifs with h1 h2 h3 <;> simp_all

/-- Which patterns are finite (R55). -/
theorem classify_fin_iff (x : F64) :
    (∃ neg u, classify x = .fin neg u) ↔ f64Exponent x ≠ 0x7FF := by
  unfold classify
  split_ifs with h1 h2 h3 <;> simp_all

/-- The sum of two finite values (R77). -/
theorem fadd_fin {n : NanBits} {a b : F64} {s s' : Bool} {u u' : Nat}
    (ha : classify a = .fin s u) (hb : classify b = .fin s' u') : fadd n a b =
    if signedUnits s u + signedUnits s' u' = 0 then packF64 (s && s') 0
    else roundF64 (decide (signedUnits s u + signedUnits s' u' < 0))
      (signedUnits s u + signedUnits s' u').natAbs 0 := by
  simp [fadd, ha, hb]

/-- The product of two finite values (R77). -/
theorem fmul_fin {n : NanBits} {a b : F64} {s s' : Bool} {u u' : Nat}
    (ha : classify a = .fin s u) (hb : classify b = .fin s' u') :
    fmul n a b = roundF64 (s ^^ s') (u * u') 1074 := by
  simp [fmul, ha, hb]

/-- A sum with a NaN is the free NaN (R77). -/
theorem fadd_nan {n : NanBits} {a b : F64} (h : classify a = .nan ∨ classify b = .nan) :
    fadd n a b = nanF64 n := by
  rcases h with h | h
  · simp [fadd, h]
  · cases ha : classify a <;> simp [fadd, h, ha]

/-- A product with a NaN is the free NaN (R77). -/
theorem fmul_nan {n : NanBits} {a b : F64} (h : classify a = .nan ∨ classify b = .nan) :
    fmul n a b = nanF64 n := by
  rcases h with h | h
  · simp [fmul, h]
  · cases ha : classify a <;> simp [fmul, h, ha]

/-! ### Patterns as numbers -/

theorem f64Sign_eq (x : F64) : f64Sign x = decide (2 ^ 63 ≤ x.toNat) := BitVec.msb_eq_decide x

theorem f64Exponent_eq (x : F64) : f64Exponent x = x.toNat / 2 ^ 52 % 2 ^ 11 := by
  simp [f64Exponent, BitVec.extractLsb'_toNat, Nat.shiftRight_eq_div_pow]

theorem f64Fraction_eq (x : F64) : f64Fraction x = x.toNat % 2 ^ 52 := by
  simp [f64Fraction, BitVec.extractLsb'_toNat]

theorem f64Fraction_lt (x : F64) : f64Fraction x < 2 ^ 52 := by
  unfold f64Fraction
  exact BitVec.isLt _

/-- A pattern is its sign, its exponent and its fraction (R55). -/
theorem pattern_ext {x y : F64} (hs : f64Sign x = f64Sign y) (he : f64Exponent x = f64Exponent y)
    (hf : f64Fraction x = f64Fraction y) : x = y := by
  rw [f64Sign_eq, f64Sign_eq, decide_eq_decide] at hs
  rw [f64Exponent_eq, f64Exponent_eq] at he
  rw [f64Fraction_eq, f64Fraction_eq] at hf
  apply BitVec.eq_of_toNat_eq
  have := x.isLt
  have := y.isLt
  omega

theorem packF64_toNat (neg : Bool) {m : Nat} (h : m < 2 ^ 63) :
    (packF64 neg m).toNat = (if neg then 2 ^ 63 else 0) + m := by
  unfold packF64
  rw [BitVec.toNat_append, BitVec.toNat_ofNat, BitVec.toNat_ofBool, Nat.mod_eq_of_lt h,
    ← Nat.shiftLeft_add_eq_or_of_lt h]
  cases neg <;> simp

theorem f64Sign_packF64 (neg : Bool) {m : Nat} (h : m < 2 ^ 63) : f64Sign (packF64 neg m) = neg := by
  rw [f64Sign_eq, packF64_toNat neg h]
  cases neg
  · simp; omega
  · simp

theorem f64Exponent_packF64 (neg : Bool) {m : Nat} (h : m < 2 ^ 63) :
    f64Exponent (packF64 neg m) = m / 2 ^ 52 := by
  rw [f64Exponent_eq, packF64_toNat neg h]
  cases neg <;> simp <;> omega

theorem f64Fraction_packF64 (neg : Bool) {m : Nat} (h : m < 2 ^ 63) :
    f64Fraction (packF64 neg m) = m % 2 ^ 52 := by
  rw [f64Fraction_eq, packF64_toNat neg h]
  cases neg <;> simp
  omega

/-- What a packed magnitude stands for (R55). -/
theorem classify_packF64 (neg : Bool) {m : Nat} (h : m < 2 ^ 63) : classify (packF64 neg m) =
    if infMagnitude < m then .nan
    else if m = infMagnitude then .inf neg
    else if m < 2 ^ 52 then .fin neg m
    else .fin neg ((2 ^ 52 + m % 2 ^ 52) <<< (m / 2 ^ 52 - 1)) := by
  unfold classify
  rw [f64Exponent_packF64 neg h, f64Fraction_packF64 neg h, f64Sign_packF64 neg h]
  unfold infMagnitude
  split_ifs <;> first | rfl | omega | skip
  congr 1
  omega

/-- A magnitude built as an exponent over an integer of at most 53 bits reads back as that integer
scaled. -/
theorem classify_packF64_scaled (neg : Bool) (e q : Nat) (hq : q ≤ 2 ^ 53)
    (hn : e = 0 ∨ 2 ^ 52 ≤ q) (h : (e <<< 52) + q < infMagnitude) :
    classify (packF64 neg ((e <<< 52) + q)) = .fin neg (q <<< e) := by
  unfold infMagnitude at h
  rw [Nat.shiftLeft_eq] at *
  rw [classify_packF64 neg (by omega)]
  unfold infMagnitude
  rw [if_neg (by omega), if_neg (by omega)]
  by_cases hs : e * 2 ^ 52 + q < 2 ^ 52
  · have : e = 0 := by omega
    subst this
    simp at hs ⊢
    omega
  · rw [if_neg hs]
    congr 1
    by_cases h53 : q = 2 ^ 53
    · subst h53
      rw [show (e * 2 ^ 52 + 2 ^ 53) % 2 ^ 52 = 0 by omega,
        show (e * 2 ^ 52 + 2 ^ 53) / 2 ^ 52 - 1 = e + 1 by omega]
      simp only [Nat.shiftLeft_eq, Nat.pow_succ]
      omega
    · rw [show (e * 2 ^ 52 + q) / 2 ^ 52 - 1 = e by omega,
        show 2 ^ 52 + (e * 2 ^ 52 + q) % 2 ^ 52 = q by omega]

/-- A finite value is an integer below 2^53, scaled (R55). -/
theorem fin_units {y : F64} {neg : Bool} {u : Nat} (h : classify y = .fin neg u) :
    ∃ q e, q < 2 ^ 53 ∧ e ≤ 2045 ∧ u = q * 2 ^ e := by
  unfold classify at h
  have h1 : f64Exponent y < 2 ^ 11 := by unfold f64Exponent; exact BitVec.isLt _
  have h2 := f64Fraction_lt y
  split_ifs at h
  · obtain ⟨-, rfl⟩ := F64Class.fin.inj h
    exact ⟨f64Fraction y, 0, by omega, by omega, by simp⟩
  · obtain ⟨-, rfl⟩ := F64Class.fin.inj h
    exact ⟨_, f64Exponent y - 1, by omega, by omega, Nat.shiftLeft_eq _ _⟩

/-! ### Rounding -/

/-- All that one rounding does: it moves to a neighbouring integer no further than half a step, and at
half a step to the even one (R77). -/
theorem roundShift_spec (m t : Nat) :
    (2 * (m : Int) - 2 ^ t ≤ 2 * (roundShift m t * 2 ^ t : Nat)) ∧
    (2 * ((roundShift m t * 2 ^ t : Nat) : Int) ≤ 2 * (m : Int) + 2 ^ t) ∧
    ((2 * (m : Int) - 2 ^ t = 2 * (roundShift m t * 2 ^ t : Nat) ∨
        2 * ((roundShift m t * 2 ^ t : Nat) : Int) = 2 * (m : Int) + 2 ^ t) →
      roundShift m t % 2 = 0) ∧
    (roundShift m t = m / 2 ^ t ∨
      roundShift m t = m / 2 ^ t + 1 ∧ m / 2 ^ t * 2 ^ t ≠ m) := by
  unfold roundShift
  simp only [Nat.shiftRight_eq_div_pow, Nat.shiftLeft_eq, Nat.one_mul]
  have hdm := Nat.div_add_mod m (2 ^ t)
  have hlt := Nat.mod_lt m (Nat.two_pow_pos t)
  have hp := Nat.two_pow_pos t
  have hp' : ((2 : Int) ^ t) = ((2 ^ t : Nat) : Int) := by push_cast; rfl
  rw [hp']
  generalize 2 ^ t = p at *
  generalize m % p = r at *
  generalize m / p = q at *
  have hmul : p * q = q * p := Nat.mul_comm _ _
  rw [hmul] at hdm
  have hq1 : (q + 1) * p = q * p + p := by rw [Nat.add_mul, Nat.one_mul]
  split_ifs with h1 h2
  · rw [hq1]; generalize q * p = a at *; refine ⟨by omega, by omega, by omega, by omega⟩
  · rw [hq1]; generalize q * p = a at *; refine ⟨by omega, by omega, by omega, by omega⟩
  · generalize q * p = a at *; refine ⟨by omega, by omega, by omega, by omega⟩

/-- The rounded integer has at most 53 bits, or is 2^53 by a carry. -/
theorem roundShift_le (m k : Nat) : roundShift m (roundPlace m k) ≤ 2 ^ 53 := by
  have h := (roundShift_spec m (roundPlace m k)).2.2.2
  have : m / 2 ^ roundPlace m k < 2 ^ 53 := by
    rw [Nat.div_lt_iff_lt_mul (Nat.two_pow_pos _), ← Nat.pow_add]
    refine Nat.lt_of_lt_of_le Nat.lt_log2_self (Nat.pow_le_pow_right (by decide) ?_)
    unfold roundPlace
    omega
  omega

/-- Above the least place the integer part has 53 bits. -/
theorem roundPlace_cases (m k : Nat) : roundPlace m k = k ∨ 2 ^ 52 ≤ m / 2 ^ roundPlace m k := by
  by_cases h : m.log2 - 52 ≤ k
  · left; unfold roundPlace; omega
  · right
    have hm : m ≠ 0 := by rintro rfl; simp at h
    have ht : roundPlace m k = m.log2 - 52 := by unfold roundPlace; omega
    rw [ht, Nat.le_div_iff_mul_le (Nat.two_pow_pos _), ← Nat.pow_add,
      show 52 + (m.log2 - 52) = m.log2 by omega]
    exact Nat.log2_self_le hm

/-- All that rounding to binary64 does: the rounded integer at its place, or the infinity of its sign
where its magnitude is past the largest finite one (R77). -/
theorem classify_roundF64 (neg : Bool) (m k : Nat) : classify (roundF64 neg m k) =
    if ((roundPlace m k - k) <<< 52) + roundShift m (roundPlace m k) < infMagnitude then
      .fin neg (roundShift m (roundPlace m k) <<< (roundPlace m k - k))
    else .inf neg := by
  unfold roundF64
  simp only
  have hle := roundShift_le m k
  have hge := roundPlace_cases m k
  have hq := (roundShift_spec m (roundPlace m k)).2.2.2
  have hk : k ≤ roundPlace m k := by unfold roundPlace; omega
  split_ifs with h
  · rw [Nat.min_eq_left (Nat.le_of_lt h)]
    exact classify_packF64_scaled neg _ _ hle (by omega) h
  · rw [Nat.min_eq_right (Nat.le_of_not_lt h), classify_packF64 neg (by decide)]
    simp

/-! ### NaNs, signs and magnitudes -/

/-- A magnitude up to infinity's is no NaN. -/
theorem isNan_packF64 (neg : Bool) {m : Nat} (h : m ≤ infMagnitude) : isNan (packF64 neg m) = false := by
  unfold infMagnitude at h
  unfold isNan
  rw [f64Exponent_packF64 neg (by omega), f64Fraction_packF64 neg (by omega)]
  simp
  omega

/-- A rounding is never a NaN. -/
theorem isNan_roundF64 (neg : Bool) (m k : Nat) : isNan (roundF64 neg m k) = false :=
  isNan_packF64 _ (Nat.min_le_right _ _)

/-- Every free NaN is a NaN. -/
theorem isNan_nanF64 (n : NanBits) : isNan (nanF64 n) = true := by
  have := n.fractionPred.isLt
  unfold nanF64 isNan infMagnitude
  rw [f64Exponent_packF64 _ (by omega), f64Fraction_packF64 _ (by omega)]
  simp
  omega

/-- `fabs` keeps the class and clears the sign (R77). -/
theorem classify_fabs (c : F64) : classify (fabs c) =
    match classify c with
    | .nan => .nan
    | .inf _ => .inf false
    | .fin _ u => .fin false u := by
  have hn : (fabs c).toNat = c.toNat % 2 ^ 63 := by
    unfold fabs
    rw [BitVec.toNat_and, show (0x7FFFFFFFFFFFFFFF#64).toNat = 2 ^ 63 - 1 from rfl,
      Nat.and_two_pow_sub_one_eq_mod]
  have hE : f64Exponent (fabs c) = f64Exponent c := by
    rw [f64Exponent_eq, f64Exponent_eq, hn]; omega
  have hF : f64Fraction (fabs c) = f64Fraction c := by
    rw [f64Fraction_eq, f64Fraction_eq, hn]; omega
  have hS : f64Sign (fabs c) = false := by
    rw [f64Sign_eq, hn, decide_eq_false_iff_not]; omega
  unfold classify
  rw [hE, hF, hS]
  split_ifs <;> rfl

/-- Complementing the sign bit keeps the class and turns the sign, so that a difference is a sum whose
classes are known (R77). -/
theorem classify_fneg (x : F64) : classify (fneg x) =
    match classify x with
    | .nan => .nan
    | .inf s => .inf (!s)
    | .fin s u => .fin (!s) u := by
  have hE : f64Exponent (fneg x) = f64Exponent x := by
    have low : ∀ i, i < 11 → (0x8000000000000000#64).getLsbD (52 + i) = false := by decide
    unfold f64Exponent fneg
    congr 1
    ext i hi
    simp [BitVec.getElem_extractLsb', show (0x8000000000000000#64).getLsbD _ = false from low i hi]
  have hF : f64Fraction (fneg x) = f64Fraction x := by
    have low : ∀ i, i < 52 → (0x8000000000000000#64).getLsbD i = false := by decide
    unfold f64Fraction fneg
    congr 1
    ext i hi
    simp [BitVec.getElem_extractLsb', show (0x8000000000000000#64).getLsbD _ = false from low i hi]
  have hS : f64Sign (fneg x) = !f64Sign x := by simp [f64Sign, fneg]
  unfold classify
  rw [hE, hF, hS]
  split_ifs <;> rfl

/-- `OUTPUT_SCALE` is positive and finite (R11). -/
theorem classify_outputScale (P : Params) : ∃ u, 0 < u ∧ classify P.outputScale = .fin false u := by
  obtain ⟨h1, h2⟩ := outputScale_range P
  have he : P.outputScale = packF64 false P.outputScale.toNat := by
    apply BitVec.eq_of_toNat_eq
    rw [packF64_toNat _ (by omega)]
    simp
  generalize P.outputScale.toNat = m at *
  rw [he, classify_packF64 _ (by omega)]
  unfold infMagnitude
  rw [if_neg (by omega), if_neg (by omega)]
  split_ifs
  · exact ⟨_, h1, rfl⟩
  · refine ⟨_, ?_, rfl⟩
    rw [Nat.shiftLeft_eq]
    positivity

end Sys2Proof.Machine
end

