-- ==== Sys2Proof/Laws/PerInstr.lean ====
section
/-! SUPPORT. A law of every instruction as syntax, one lemma a constructor: its frame has the length
that the opcode table declares for its opcode byte (R48, R49). -/

namespace Sys2Proof.Laws.FrameLength

/-- The first byte of the frame is a defined opcode, and exactly `LEN` of it bytes follow (R48). -/
def Statement (i : Instr) : Prop :=
  ∃ op payload, encode i = op :: payload ∧ opcodeOf op = some i.opcode ∧
    payloadLen op = some payload.length

theorem stop : Statement .stop := ⟨_, _, rfl, by decide, by decide⟩
theorem reset : Statement .reset := ⟨_, _, rfl, by decide, by decide⟩
theorem pause : Statement .pause := ⟨_, _, rfl, by decide, by decide⟩
theorem go (t : Half) : Statement (.go t) :=
  ⟨0x03#8, [t.extractLsb' 0 8, t.extractLsb' 8 8], rfl, by rfl, by rfl⟩
theorem setChannelMode (ch : ChannelId) (cle : Bool) (idx : SensorIndex) :
    Statement (.setChannelMode ch cle idx) := ⟨0x10#8, [modeByte ch cle idx], rfl, by rfl, by rfl⟩
theorem setTarget (x : F64) : Statement (.setTarget x) := ⟨0x20#8, f64Bytes x, rfl, by rfl, by rfl⟩
theorem setP (x : F64) : Statement (.setP x) := ⟨0x21#8, f64Bytes x, rfl, by rfl, by rfl⟩
theorem setI (x : F64) : Statement (.setI x) := ⟨0x22#8, f64Bytes x, rfl, by rfl, by rfl⟩
theorem setD (x : F64) : Statement (.setD x) := ⟨0x23#8, f64Bytes x, rfl, by rfl, by rfl⟩
theorem getFirmwareVersion : Statement .getFirmwareVersion := ⟨_, _, rfl, by decide, by decide⟩
theorem getMessages : Statement .getMessages := ⟨_, _, rfl, by decide, by decide⟩

end Sys2Proof.Laws.FrameLength
end

