-- ==== Sys2Proof/Laws/Receiver.lean ====
section
/-! SUPPORT. The receiver against the decoder: the staged bytes are the frame's payload, so what a
byte commits is what the decoder reads. -/

namespace Sys2Proof.Machine

/-- The staged bytes with one more written are the frame's payload so far (R54, R95). -/
theorem stagedByte_set (buf : Vector Byte 8) (n : Nat) (b : Byte) (h : n < 8) (i : Nat)
    (hi : i < n + 1) :
    stagedByte (buf.set n b h) i = (buf.toList.take n ++ [b]).getD i 0x00#8 := by
  unfold stagedByte
  have h8 : i < 8 := by omega
  rw [Vector.getElem?_eq_getElem h8, Option.getD_some, Vector.getElem_set]
  simp only [List.getD_eq_getElem?_getD]
  by_cases hin : i = n
  · subst hin
    rw [List.getElem?_append_right (by simp)]
    simp [Nat.min_eq_left (Nat.le_of_lt h)]
  · rw [List.getElem?_append_left (by simp; omega), List.getElem?_take_of_lt (by omega)]
    simp [h8, Ne.symm hin]

/-- A byte completes an instruction where the decoder reads the frame with it as that instruction. -/
theorem completes_iff (s : State) (b : Byte) (i : Instr) :
    s.completes b = some i ↔ ∃ bytes, s.frameWith b = some bytes ∧ decode bytes = .ok (i, []) := by
  unfold State.completes
  cases s.frameWith b with
  | none => simp
  | some bytes =>
    simp only [Option.some.injEq, exists_eq_left']
    constructor
    · intro h; split at h <;> simp_all
    · intro h; rw [h]

/-- In `IDLE` a byte completes an instruction without payload (R95). -/
theorem completes_idle (s : State) (b : Byte) (hs : s.rxState = .idle) (i : Instr) :
    s.completes b = some i ↔
      ∃ o, opcodeOf b = some o ∧ o.len = 0 ∧ i = o.instr (stagedByte s.rxBuf) := by
  rw [completes_iff]
  simp only [State.frameWith, hs, Option.some.injEq, exists_eq_left', decode_whole]
  refine exists_congr fun o => and_congr_right fun ho => ?_
  constructor
  · rintro ⟨hl, rfl⟩
    simp only [List.length_nil] at hl
    exact ⟨hl.symm, instr_congr _ _ _ (by intro j hj; omega)⟩
  · rintro ⟨hl, rfl⟩
    exact ⟨by simp [hl], instr_congr _ _ _ (by intro j hj; omega)⟩

/-- In `PAYLOAD` a byte completes the instruction whose last payload byte it is (R95). -/
theorem completes_payload (s : State) (b : Byte) (hs : s.rxState = .payload) (i : Instr) :
    s.completes b = some i ↔
      ∃ o, opcodeOf s.rxOp = some o ∧ ∃ h : s.rxCnt < 8, s.rxCnt + 1 = o.len ∧
        i = o.instr (stagedByte (s.rxBuf.set s.rxCnt b h)) := by
  rw [completes_iff]
  simp only [State.frameWith, hs, Option.some.injEq, exists_eq_left', decode_whole]
  refine exists_congr fun o => and_congr_right fun ho => ?_
  have := opcode_len_le o
  simp only [List.length_append, List.length_take, Vector.length_toList, List.length_cons,
    List.length_nil]
  constructor
  · rintro ⟨hl, rfl⟩
    refine ⟨by omega, by omega, instr_congr _ _ _ fun j hj => ?_⟩
    rw [stagedByte_set _ _ _ _ _ (by omega)]
  · rintro ⟨hc, hl, rfl⟩
    refine ⟨by omega, instr_congr _ _ _ fun j hj => ?_⟩
    rw [stagedByte_set _ _ _ _ _ (by omega)]

/-- In `DISCARD` no byte completes anything (R95). -/
theorem completes_discard (s : State) (b : Byte) (hs : s.rxState = .discard) :
    s.completes b = none := by
  simp [State.completes, State.frameWith, hs]

/-- All that RxByte can do (R95): commit the instruction the byte completes, log an unknown opcode,
stage a byte, or ignore it. -/
theorem rxByte_cases {b : Byte} {s t : State} (h : rxByte b s = .next t) :
    (∃ i buf cnt, s.completes b = some i ∧
      exec i { s with
        rxState := .idle
        rxBuf := buf
        rxCnt := cnt
        history := s.history ++ [.annActivity i.opcode.code] } = .next t ∧
      (s.rxState = .payload → cnt = 0) ∧ (s.rxState = .idle → cnt = s.rxCnt)) ∨
    (s.completes b = none ∧
      ((s.rxState = .idle ∧ opcodeOf b = none ∧
        t = { s.logMessage Config.params unknownOpcodeCode b with rxState := .discard }) ∨
      (∃ op buf cnt o, t = { s with rxState := .payload, rxOp := op, rxBuf := buf, rxCnt := cnt } ∧
        opcodeOf op = some o ∧
        (s.rxState = .payload → op = s.rxOp ∧ (s.rxCnt < o.len → cnt < o.len)) ∧
        (s.rxState = .idle → cnt < o.len)) ∨
      (s.rxState = .discard ∧ t = s))) := by
  unfold rxByte at h
  cases hs : s.rxState with
  | idle =>
    simp only [hs] at h
    rcases rxByteIdle_cases b s with ⟨ho, h2⟩ | ⟨o, ho, hl, h2⟩ | ⟨o, ho, hl, h2⟩ <;> rw [h2] at h
    · refine .inr ⟨?_, .inl ⟨rfl, ho, (Host.Outcome.next.inj h).symm⟩⟩
      refine Option.eq_none_iff_forall_ne_some.mpr fun i hc => ?_
      obtain ⟨o, ho', -⟩ := (completes_idle s b hs i).mp hc
      rw [ho] at ho'; cases ho'
    · refine .inl ⟨_, s.rxBuf, s.rxCnt, (completes_idle s b hs _).mpr ⟨o, ho, hl, rfl⟩, ?_,
        by simp, by simp⟩
      rw [← h, ← hs]; rfl
    · refine .inr ⟨?_, .inr (.inl ⟨b, s.rxBuf, 0, o, (Host.Outcome.next.inj h).symm, ho, by simp,
        fun _ => by omega⟩)⟩
      refine Option.eq_none_iff_forall_ne_some.mpr fun i hc => ?_
      obtain ⟨o', ho', hl', -⟩ := (completes_idle s b hs i).mp hc
      rw [ho] at ho'; cases ho'; exact hl hl'
  | payload =>
    simp only [hs] at h
    rcases rxBytePayload_cases b s with ⟨ho, h2⟩ | ⟨o, ho, hl, h2⟩ | ⟨o, hc, ho, hl, h2⟩ |
      ⟨o, hc, ho, hl, h2⟩ <;> rw [h2] at h
    · cases h
    · cases h
    · refine .inl ⟨_, s.rxBuf.set s.rxCnt b hc, 0,
        (completes_payload s b hs _).mpr ⟨o, ho, hc, hl, rfl⟩, ?_, by simp, by simp⟩
      rw [← h]; rfl
    · refine .inr ⟨?_, .inr (.inl ⟨s.rxOp, s.rxBuf.set s.rxCnt b hc, s.rxCnt + 1, o, ?_, ho,
        fun _ => ⟨rfl, fun _ => by omega⟩, by simp⟩)⟩
      · refine Option.eq_none_iff_forall_ne_some.mpr fun i hcc => ?_
        obtain ⟨o', ho', hc', hl', -⟩ := (completes_payload s b hs i).mp hcc
        rw [ho] at ho'; cases ho'; exact hl hl'
      · rw [← hs]; exact (Host.Outcome.next.inj h).symm
  | discard =>
    simp only [hs] at h
    exact .inr ⟨completes_discard s b hs, .inr (.inr ⟨rfl, (Host.Outcome.next.inj h).symm⟩)⟩

end Sys2Proof.Machine
end

