-- ==== Sys2Proof/Laws/Step.lean ====
section
/-! SUPPORT. What one step can do, by the input it takes. -/

namespace Sys2Proof.Machine

/-- With no input the block waits. -/
theorem step_waits {s : State} (h : s.inputs = []) : step s = .next s := by simp [step, h]

/-- With an input at the head, the step is its transition. -/
theorem step_input {s : State} {i : Input} {rest : List Input} (h : s.inputs = i :: rest) :
    step s = accept i { s with inputs := rest } := by simp [step, h]

/-- All that a step that answers a next state can have done, the guards included. -/
theorem step_cases {s t : State} (h : step s = .next t) :
    (s.inputs = [] ∧ t = s) ∨
    (∃ mA mB rest, s.inputs = .tick mA mB :: rest ∧
      t = State.tick { s with inputs := rest } Config.params mA mB) ∨
    (∃ b rest, s.inputs = .rxByte b :: rest ∧ rxByte b { s with inputs := rest } = .next t) ∨
    (∃ rest, s.inputs = .rxEnd :: rest ∧ t = State.rxEnd { s with inputs := rest }) ∨
    (∃ rest, s.inputs = .txRead :: rest ∧ t = State.txRead { s with inputs := rest }) := by
  cases hi : s.inputs with
  | nil =>
    rw [step_waits hi] at h
    exact .inl ⟨rfl, (Host.Outcome.next.inj h).symm⟩
  | cons i rest =>
    rw [step_input hi] at h
    cases i with
    | tick mA mB => exact .inr (.inl ⟨mA, mB, rest, rfl, (Host.Outcome.next.inj h).symm⟩)
    | rxByte b => exact .inr (.inr (.inl ⟨b, rest, rfl, h⟩))
    | rxEnd => exact .inr (.inr (.inr (.inl ⟨rest, rfl, (Host.Outcome.next.inj h).symm⟩)))
    | txRead => exact .inr (.inr (.inr (.inr ⟨rest, rfl, (Host.Outcome.next.inj h).symm⟩)))

end Sys2Proof.Machine
end

