-- ==== Sys2Proof/Laws/Run.lean ====
section
/-! SUPPORT. Runs of several steps, one step at a time, and what carries over them. -/

namespace Sys2Proof.Machine

@[simp] theorem run_zero (s : State) : run 0 s = .next s := rfl

/-- A run whose first step answers a next state goes on from there. -/
theorem run_succ {s t : State} (k : Nat) (h : step s = .next t) : run (k + 1) s = run k t := by
  have h' : Sys2Proof.core.step s = .next t := h
  simp only [run, Host.Core.run, h']
  rfl

/-- A run of one step is the step. -/
theorem run_one (s : State) : run 1 s = step s := by
  cases h : step s with
  | next t => rw [run_succ 0 h, run_zero]
  | fault r =>
    have h' : Sys2Proof.core.step s = .fault r := h
    simp only [run, Host.Core.run, h']
    rfl
  | refused r =>
    have h' : Sys2Proof.core.step s = .refused r := h
    simp only [run, Host.Core.run, h']
    rfl

/-- What every step keeps holds after every run that answers a next state. -/
theorem run_keeps {p : State → Prop} (hp : ∀ s t, p s → step s = .next t → p t) :
    ∀ (k : Nat) (s t : State), p s → run k s = .next t → p t
  | 0, s, t, hs, h => by
    rw [run_zero] at h
    exact Host.Outcome.next.inj h ▸ hs
  | k + 1, s, t, hs, h => by
    cases hstep : step s with
    | next u => exact run_keeps hp k u t (hp s u hs hstep) (run_succ k hstep ▸ h)
    | fault r =>
      have h' : Sys2Proof.core.step s = .fault r := hstep
      simp [run, Host.Core.run, h'] at h
    | refused r =>
      have h' : Sys2Proof.core.step s = .refused r := hstep
      simp [run, Host.Core.run, h'] at h

end Sys2Proof.Machine
end

