-- ==== Sys2Proof/Laws/Tick.lean ====
section
/-! SUPPORT. What one channel's evaluation does in each of its cases, register by register, and
what the whole Tick makes of the two. -/

namespace Sys2Proof.Machine

/-- All that a disarmed channel's evaluation does (R68, R74). -/
theorem evaluate_disarmed_eq (s : State) (P : Params) (ch : ChannelId) (m : Measurement)
    (h : s.armed = false) : s.evaluate P ch m =
    { s.setChan ch { s.chan ch with
        duty := 0#16
        pwmCmp := 0#16
        dirOut := (s.chan ch).dir } with
      history := s.history ++ [.pwmWrite ch 0#16 (s.chan ch).dir.bit] } := by
  rw [evaluate_disarmed s P ch m h]
  cases ch <;> rfl

/-- All that an armed open-loop channel's evaluation does (R69, R74). -/
theorem evaluate_openLoop_eq (s : State) (P : Params) (ch : ChannelId) (m : Measurement)
    (h : s.armed = true) (hc : (s.chan ch).cl = false) : s.evaluate P ch m =
    { s.setChan ch { s.chan ch with
        pwmCmp := (s.chan ch).duty
        dirOut := (s.chan ch).dir } with
      history := s.history ++ [.pwmWrite ch (s.chan ch).duty (s.chan ch).dir.bit] } := by
  rw [evaluate_openLoop s P ch m h hc]
  cases ch <;> rfl

/-- All that an armed closed-loop channel's evaluation does (R68, R70 to R74, R78): `r` is the
correction with the registers that the PID step leaves, or `+0.0` and the registers as they were for a
sentinel. -/
theorem evaluate_closedLoop_eq (s : State) (P : Params) (ch : ChannelId) (m : Measurement)
    (h : s.armed = true) (hc : (s.chan ch).cl = true) :
    ∃ (r : F64 × Channel) (draws : Nat),
      ((m = .invalid ∨ ∃ x, m = .value x ∧ isNan x = true) →
        r = (posZero, s.chan ch) ∧ draws = s.nanDraws) ∧
      (∀ x, m = .value x → isNan x = false →
        r = pidStep (Config.freeNan s.nanDraws) (s.chan ch) x ∧ draws = s.nanDraws + 1) ∧
      let out := scale P (Config.freeNan draws .scaled) r.1 (s.chan ch).dir
      s.evaluate P ch m =
        { s.setChan ch { s.chan ch with
            eint := r.2.eint
            eprev := r.2.eprev
            duty := out.1
            dir := out.2
            pwmCmp := out.1
            dirOut := out.2 } with
          history := s.history ++
            [.measRead ch (s.chan ch).sensor m, .pwmWrite ch out.1 out.2.bit]
          nanDraws := draws } := by
  rw [evaluate_closedLoop s P ch m h hc]
  unfold State.closedLoop
  by_cases hm : m = .invalid ∨ ∃ x, m = .value x ∧ isNan x = true
  · refine ⟨(posZero, s.chan ch), s.nanDraws, fun _ => ⟨rfl, rfl⟩, ?_, ?_⟩
    · rintro x rfl hx
      rcases hm with hm | ⟨y, hy, hn⟩
      · cases hm
      · cases hy; rw [hx] at hn; cases hn
    · rw [closedLoopCorrection_sentinel s ch m hm]
      cases ch <;> simp [State.writeActuation, State.emit]
  · cases m with
    | invalid => exact absurd (.inl rfl) hm
    | value x =>
      have hx : isNan x = false := by
        cases hn : isNan x
        · rfl
        · exact absurd (.inr ⟨x, rfl, hn⟩) hm
      refine ⟨pidStep (Config.freeNan s.nanDraws) (s.chan ch) x, s.nanDraws + 1,
        fun h' => absurd h' hm, ?_, ?_⟩
      · rintro y hy -
        cases hy
        exact ⟨rfl, rfl⟩
      · rw [closedLoopCorrection_value s ch x hx]
        cases ch <;> simp [State.pidStep, pidStep, State.writeActuation, State.emit]

/-- One channel's evaluation leaves the other channel and every register outside the channels as they
are, but for the history and the count of draws (R68). -/
theorem evaluate_frame (s : State) (P : Params) (ch : ChannelId) (m : Measurement) :
    let t := s.evaluate P ch m
    (∀ ch', ch' ≠ ch → t.chan ch' = s.chan ch') ∧ t.armed = s.armed ∧ t.wdCount = s.wdCount ∧
      t.sel = s.sel ∧ t.rxState = s.rxState ∧ t.rxOp = s.rxOp ∧ t.rxCnt = s.rxCnt ∧
      t.rxBuf = s.rxBuf ∧ t.msgq = s.msgq ∧ t.msgqOvf = s.msgqOvf ∧ t.reply = s.reply ∧
      t.replyPtr = s.replyPtr ∧ t.inputs = s.inputs := by
  have key : ∃ c l n, s.evaluate P ch m = { s.setChan ch c with history := l, nanDraws := n } := by
    cases ha : s.armed
    · rw [evaluate_disarmed_eq s P ch m ha]
      refine ⟨{ s.chan ch with duty := 0#16, pwmCmp := 0#16, dirOut := (s.chan ch).dir },
        s.history ++ [.pwmWrite ch 0#16 (s.chan ch).dir.bit], s.nanDraws, ?_⟩
      cases ch <;> rfl
    · cases hc : (s.chan ch).cl
      · rw [evaluate_openLoop_eq s P ch m ha hc]
        refine ⟨{ s.chan ch with pwmCmp := (s.chan ch).duty, dirOut := (s.chan ch).dir },
          s.history ++ [.pwmWrite ch (s.chan ch).duty (s.chan ch).dir.bit], s.nanDraws, ?_⟩
        cases ch <;> rfl
      · obtain ⟨r, draws, -, -, h⟩ := evaluate_closedLoop_eq s P ch m ha hc
        exact ⟨_, _, _, h⟩
  obtain ⟨c, l, n, h⟩ := key
  simp only [h, setChan_armed, setChan_wdCount, setChan_sel, setChan_rxState, setChan_rxOp,
    setChan_rxCnt, setChan_rxBuf, setChan_msgq, setChan_msgqOvf, setChan_reply, setChan_replyPtr,
    setChan_inputs, and_self, and_true]
  intro ch' hne
  cases ch <;> cases ch' <;> first | exact absurd rfl hne | rfl

/-- All that phase 2 makes of a channel's duty, direction, integral and previous error, case by case
(R68 to R72, R78). -/
structure EvaluatesTo (P : Params) (armed : Bool) (c : Channel) (m : Measurement) (duty : Half)
    (dir : Direction) (eint eprev : F64) : Prop where
  disarmed : armed = false → duty = 0#16 ∧ dir = c.dir ∧ eint = c.eint ∧ eprev = c.eprev
  openLoop : armed = true → c.cl = false →
    duty = c.duty ∧ dir = c.dir ∧ eint = c.eint ∧ eprev = c.eprev
  sentinel : armed = true → c.cl = true → (m = .invalid ∨ ∃ x, m = .value x ∧ isNan x = true) →
    duty = 0#16 ∧ dir = c.dir ∧ eint = c.eint ∧ eprev = c.eprev
  value : armed = true → c.cl = true → ∀ x, m = .value x → isNan x = false →
    ∃ (nan : NanSite → NanBits) (n : NanBits),
      (duty, dir) = scale P n (pidStep nan c x).1 c.dir ∧
      eint = (pidStep nan c x).2.eint ∧ eprev = (pidStep nan c x).2.eprev

/-- The measurement that phase 2 asks for (R68, R70). -/
def measured (ch : ChannelId) (armed : Bool) (c : Channel) (m : Measurement) : List Event :=
  if armed ∧ c.cl then [.measRead ch c.sensor m] else []

/-- A zero correction gives duty 0 and keeps the direction (R72). -/
theorem scale_posZero (P : Params) (n : NanBits) (d : Direction) :
    scale P n posZero d = (0#16, d) := by
  have h1 : isNan posZero = false := by decide
  have h2 : feq posZero posZero = true := by decide
  simp [scale, h1, h2]

/-- All that a channel's evaluation does, in every case (R68 to R74). -/
theorem evaluate_result (s : State) (P : Params) (ch : ChannelId) (m : Measurement) :
    ∃ duty dir eint eprev draws,
      EvaluatesTo P s.armed (s.chan ch) m duty dir eint eprev ∧
      s.evaluate P ch m =
        { s.setChan ch { s.chan ch with
            duty := duty
            dir := dir
            eint := eint
            eprev := eprev
            pwmCmp := duty
            dirOut := dir } with
          history := s.history ++ (measured ch s.armed (s.chan ch) m ++ [.pwmWrite ch duty dir.bit])
          nanDraws := draws } := by
  cases ha : s.armed
  · refine ⟨0#16, (s.chan ch).dir, (s.chan ch).eint, (s.chan ch).eprev, s.nanDraws, ?_, ?_⟩
    · constructor <;> simp
    · rw [evaluate_disarmed_eq s P ch m ha]
      cases ch <;> simp [measured]
  cases hc : (s.chan ch).cl
  · refine ⟨(s.chan ch).duty, (s.chan ch).dir, (s.chan ch).eint, (s.chan ch).eprev, s.nanDraws,
      ?_, ?_⟩
    · constructor <;> simp [hc]
    · rw [evaluate_openLoop_eq s P ch m ha hc]
      cases ch <;> simp_all [measured]
  obtain ⟨r, draws, hs, hv, he⟩ := evaluate_closedLoop_eq s P ch m ha hc
  refine ⟨(scale P (Config.freeNan draws .scaled) r.1 (s.chan ch).dir).1,
    (scale P (Config.freeNan draws .scaled) r.1 (s.chan ch).dir).2, r.2.eint, r.2.eprev, draws,
    ⟨by simp, by simp [hc], ?_, ?_⟩, he.trans ?_⟩
  · rintro - - hm
    rw [(hs hm).1, scale_posZero]
    exact ⟨rfl, rfl, rfl, rfl⟩
  · rintro - - x hx hn
    rw [(hv x hx hn).1]
    exact ⟨_, _, rfl, rfl, rfl⟩
  · cases ch <;> simp_all [measured]

/-- Phase 2 does not look at the watchdog's count (R68). -/
theorem evaluate_wdCount (s : State) (P : Params) (ch : ChannelId) (m : Measurement) (k : Half) :
    State.evaluate { s with wdCount := k } P ch m = { s.evaluate P ch m with wdCount := k } := by
  have hch : ({ s with wdCount := k } : State).chan ch = s.chan ch := by cases ch <;> rfl
  rcases Bool.eq_false_or_eq_true s.armed with ha | ha
  rotate_left
  · rw [evaluate_disarmed_eq s P ch m ha, evaluate_disarmed_eq _ P ch m (by exact ha)]
    cases ch <;> rfl
  rcases Bool.eq_false_or_eq_true (s.chan ch).cl with hc | hc
  rotate_left
  · rw [evaluate_openLoop_eq s P ch m ha hc,
      evaluate_openLoop_eq _ P ch m (by exact ha) (by rw [hch]; exact hc)]
    cases ch <;> rfl
  rw [evaluate_closedLoop s P ch m ha hc,
    evaluate_closedLoop _ P ch m (by exact ha) (by rw [hch]; exact hc)]
  unfold State.closedLoop State.closedLoopCorrection
  cases m with
  | invalid => cases ch <;> rfl
  | value x =>
    cases hx : isNan x <;> cases ch <;> simp only [hx, if_true, if_false, Bool.false_eq_true] <;> rfl

/-- All that a Tick does (R63): phases 1 and 2 give a state `u` whatever the watchdog counts, and phase
3 runs on it. -/
theorem tick_result (s : State) (P : Params) (mA mB : Measurement) :
    ∃ dutyA dirA eintA eprevA dutyB dirB eintB eprevB draws,
      EvaluatesTo P s.armed s.chA mA dutyA dirA eintA eprevA ∧
      EvaluatesTo P s.armed s.chB mB dutyB dirB eintB eprevB ∧
      ∀ k : Half, State.tick { s with wdCount := k } P mA mB =
        State.watchdogTick { s with
          chA := { s.chA with
            duty := dutyA, dir := dirA, eint := eintA, eprev := eprevA
            pwmCmp := dutyA, dirOut := dirA }
          chB := { s.chB with
            duty := dutyB, dir := dirB, eint := eintB, eprev := eprevB
            pwmCmp := dutyB, dirOut := dirB }
          wdCount := k
          history := s.history ++ (.annRefresh ::
            (measured .a s.armed s.chA mA ++ [.pwmWrite .a dutyA dirA.bit] ++
              measured .b s.armed s.chB mB ++ [.pwmWrite .b dutyB dirB.bit]))
          nanDraws := draws } := by
  obtain ⟨dA, rA, iA, pA, nA, hA, eA⟩ := evaluate_result (s.emit .annRefresh) P .a mA
  obtain ⟨dB, rB, iB, pB, nB, hB, eB⟩ :=
    evaluate_result ((s.emit .annRefresh).evaluate P .a mA) P .b mB
  refine ⟨dA, rA, iA, pA, dB, rB, iB, pB, nB, hA, ?_, fun k => ?_⟩
  · simpa [eA] using hB
  · have h1 := evaluate_wdCount (s.emit .annRefresh) P .a mA k
    have h2 := evaluate_wdCount ((s.emit .annRefresh).evaluate P .a mA) P .b mB k
    change (State.evaluate (State.evaluate { s.emit .annRefresh with wdCount := k } P .a mA) P .b
      mB).watchdogTick = _
    rw [h1, h2, eB]
    simp only [eA]
    simp [State.emit]

end Sys2Proof.Machine
end

