-- ==== Sys2Proof/Tests/Slice0.lean ====
section
/-! SUPPORT. The model's own tests. Expected results come from the spec: 95_test_vectors.md, whose
vectors are named L, V and P (program), and the examples inside the rules. Then, for each statement
with hypotheses, a witness that meets them all. -/

namespace Sys2Proof.Tests

open Sys2Proof Sys2Proof.Machine

/-! ### Helpers -/

/-- The parameters of the vectors (95_test_vectors.md): `MAX_DUTY` 1000, `OUTPUT_SCALE` 1.0,
`MSGQ_DEPTH` 4, `FW_VERSION` 0x0107. -/
def vectorParams : Params :=
  { maxDutyPred := ⟨999, by decide⟩
    outputScalePred := ⟨0x3FEFFFFFFFFFFFFF, by decide⟩
    msgqDepthPred := ⟨3, by decide⟩
    fwVersion := 0x0107#16 }

/-- The parameters of V2.16: `MAX_DUTY` 65535 and `OUTPUT_SCALE` 1e-300. -/
def tinyScaleParams : Params :=
  { vectorParams with
    maxDutyPred := ⟨65534, by decide⟩
    outputScalePred := ⟨0x01A56E1FC2F8F358, by decide⟩ }

/-- A quiet NaN, for the results that no vector looks at. -/
def someNan : NanBits := ⟨false, ⟨0x7FFFFFFFFFFFF, by decide⟩⟩

/-- A step answered a next state with a property. -/
def answersNext (r : Result) (p : State → Bool) : Bool :=
  match r with
  | .next t => p t
  | .fault _ => false
  | .refused _ => false

/-- The reset state with inputs to come. -/
def idle (is : List Input) : State := { State.reset with inputs := is }

/-- An armed block, else as after reset. -/
def armed (n : Half) (is : List Input) : State := { idle is with armed := true, wdCount := n }

/-- A block with a GO frame received but for its last byte. -/
def receivingGo (n : Half) (is : List Input) : State :=
  { armed n is with
    rxState := .payload
    rxOp := 0x03#8
    rxCnt := 1
    rxBuf := #v[0xA0#8, 0x00#8, 0x00#8, 0x00#8, 0x00#8, 0x00#8, 0x00#8, 0x00#8] }

/-- Channel A of P2 before its first Tick: closed-loop on sensor 1, target 100, gains 2, 0.5 and 1. -/
def tunedA : Channel :=
  { Channel.reset with
    cl := true
    sensor := 1#6
    target := 0x4059000000000000#64
    kp := 0x4000000000000000#64
    ki := 0x3FE0000000000000#64
    kd := 0x3FF0000000000000#64 }

/-! ### Well-formedness -/

theorem test_frame_go_is_well_formed : Frame.wellFormed ⟨0x03#8, [0xA0#8, 0x0F#8]⟩ = true := by decide
theorem test_frame_unknown_opcode_is_refused : Frame.wellFormed ⟨0x99#8, []⟩ = false := by decide
theorem test_frame_short_payload_is_refused :
    Frame.wellFormed ⟨0x20#8, [0x00#8, 0x00#8]⟩ = false := by decide
theorem test_frame_long_payload_is_refused : Frame.wellFormed ⟨0x02#8, [0x00#8]⟩ = false := by decide

/-! ### Decoding: words written out from 30_encoding.md -/

/-- `W 00` (R60). -/
theorem test_decode_stop : decodeTableWord 8 0x00 = some .stop := by decide
/-- `W 01` (R60). -/
theorem test_decode_reset : decodeTableWord 8 0x01 = some .reset := by decide
/-- `W 02` (R60). -/
theorem test_decode_pause : decodeTableWord 8 0x02 = some .pause := by decide
/-- `W 03 A0 0F` (L1.1). -/
theorem test_decode_go : decodeTableWord 24 0x0FA003 = some (.go 4000#16) := by decide
/-- `W 10 41` (L1.3). -/
theorem test_decode_setChannelMode_a :
    decodeTableWord 16 0x4110 = some (.setChannelMode .a true 1#6) := by decide
/-- `W 10 C2` (V7.1). -/
theorem test_decode_setChannelMode_b :
    decodeTableWord 16 0xC210 = some (.setChannelMode .b true 2#6) := by decide
/-- `W 20 00 00 00 00 00 00 59 40` (L1.2). -/
theorem test_decode_setTarget :
    decodeTableWord 72 0x405900000000000020 = some (.setTarget 0x4059000000000000#64) := by decide
/-- `W 21 00 00 00 00 00 00 00 80`: the sign of zero is kept (L1.5). -/
theorem test_decode_setP :
    decodeTableWord 72 0x800000000000000021 = some (.setP 0x8000000000000000#64) := by decide
/-- `W 22 9C 75 00 88 3C E4 37 7E`: 1e300, every byte in its place (the table of constants). -/
theorem test_decode_setI :
    decodeTableWord 72 0x7E37E43C8800759C22 = some (.setI 0x7E37E43C8800759C#64) := by decide
/-- `W 23 00 00 00 00 00 00 F0 3F` (P2). -/
theorem test_decode_setD :
    decodeTableWord 72 0x3FF000000000000023 = some (.setD 0x3FF0000000000000#64) := by decide
/-- `W 40` (R60). -/
theorem test_decode_getFirmwareVersion :
    decodeTableWord 8 0x40 = some .getFirmwareVersion := by decide
/-- `W 41` (R60). -/
theorem test_decode_getMessages : decodeTableWord 8 0x41 = some .getMessages := by decide
/-- Bits above `nbits` are 0: the GO row with 8 bits is GO 0. -/
theorem test_decode_go_zero_payload : decodeTableWord 8 0xFF03 = some (.go 0#16) := by decide
/-- 0x99 is no opcode (V5.1), and 0x11 is none (R111). -/
theorem test_decode_unknown : decodeTableWord 8 0x99 = none ∧ decodeTableWord 8 0x11 = none := by
  decide
/-- `B 20 00 00` is cut short (V5.2). -/
theorem test_decode_short_frame :
    decode [0x20#8, 0x00#8, 0x00#8] = .error (.shortFrame 0x20#8) := by decide
/-- `W 03 A0 0F 02` is GO 4000, and PAUSE is left (V5.3). -/
theorem test_decode_back_to_back :
    decode [0x03#8, 0xA0#8, 0x0F#8, 0x02#8] = .ok (.go 4000#16, [0x02#8]) := by decide
/-- R60: `GO t` is `03 t[7:0] t[15:8]`. -/
theorem test_encode_go : encode (.go 4000#16) = [0x03#8, 0xA0#8, 0x0F#8] := by decide
/-- R60: `10 {ch, cl, idx}`. -/
theorem test_encode_setChannelMode :
    encode (.setChannelMode .b true 2#6) = [0x10#8, 0xC2#8] := by decide

/-! ### The placed frame runs as the next step -/

theorem test_placed_go_runs :
    answersNext (step (State.reset.withFetchWord 24 0x0FA003))
      (fun t => t.armed && t.wdCount == 4000#16 && t.rxState == .idle && t.inputs == []) = true := by
  decide
theorem test_placed_setTarget_runs :
    answersNext (step (State.withFetchWord { State.reset with chA := tunedA } 72 0x404900000000000020))
      (fun t => t.chA.target == 0x4049000000000000#64) = true := by
  decide

/-! ### One command, one step -/

/-- R103's example: armed at duty (35, 0), then STOP. -/
theorem test_stop :
    answersNext (exec .stop { armed 7#16 [] with chA := { tunedA with duty := 35#16, pwmCmp := 35#16 } })
      (fun t => t.chA.duty == 0#16 && t.chA.pwmCmp == 0#16 && !t.armed && t.wdCount == 0#16 &&
        t.chA.kp == tunedA.kp && t.chA.cl) = true := by
  decide
/-- V6.4: the RESET command keeps the queue and the reply. -/
theorem test_reset :
    answersNext (exec .reset
        { armed 7#16 [] with chA := tunedA, chB := tunedA, sel := .b, reply := [7#8], msgq := [⟨1#8, 0x99#8⟩] })
      (fun t => t.chA == Channel.reset && t.chB == Channel.reset && t.sel == .a &&
        t.reply == [7#8] && t.msgq == [⟨1#8, 0x99#8⟩]) = true := by
  decide
/-- P5 step 6, the order of the events, with `DIR_OUT` (1, 0) before. -/
theorem test_reset_events :
    answersNext (commit .reset { armed 7#16 [] with chA := { tunedA with dirOut := .reverse } })
      (fun t => t.history == [.annActivity 0x01#8, .pwmWrite .a 0#16 1#1, .pwmWrite .b 0#16 0#1,
        .pwmWrite .a 0#16 0#1, .pwmWrite .b 0#16 0#1, .annReset]) = true := by
  decide
/-- V6.3: PAUSE clears the integral and keeps `EPREV` (10.0) and the target. -/
theorem test_pause :
    answersNext (exec .pause { armed 7#16 [] with
        chA := { tunedA with eint := 0x4024000000000000#64, eprev := 0x4024000000000000#64 } })
      (fun t => t.chA.eint == posZero && t.chA.eprev == 0x4024000000000000#64 &&
        t.chA.target == tunedA.target) = true := by
  decide
/-- V4.4: a renewal may shorten the window; no actuation (V6.1). -/
theorem test_go :
    answersNext (exec (.go 5#16) (armed 90#16 []))
      (fun t => t.armed && t.wdCount == 5#16 && t.history == []) = true := by
  decide
/-- V7.3: closed to closed keeps the controller. -/
theorem test_setChannelMode_keeps :
    answersNext (exec (.setChannelMode .a true 5#6) { idle [] with chA := tunedA, sel := .b })
      (fun t => t.chA == { tunedA with sensor := 5#6 } && t.sel == .a) = true := by
  decide
/-- V7.6: `W 10 01` opens the loop and clears the duty, not the latch. -/
theorem test_setChannelMode_opens :
    answersNext (exec (.setChannelMode .a false 1#6)
        { armed 9#16 [] with chA := { tunedA with duty := 35#16, pwmCmp := 35#16 } })
      (fun t => t.chA == { Channel.reset with pwmCmp := 35#16 }) = true := by
  decide
/-- L1.2: the target goes to channel A alone. -/
theorem test_setTarget :
    answersNext (exec (.setTarget 0x4059000000000000#64)
        { idle [] with chA := { Channel.reset with cl := true }, chB := tunedA })
      (fun t => t.chA.target == 0x4059000000000000#64 && t.chB == tunedA) = true := by
  decide
/-- V7.2: a set to an open-loop channel is discarded. -/
theorem test_setTarget_openLoop :
    answersNext (exec (.setTarget 0x4059000000000000#64) (idle [])) (fun t => t == idle []) = true := by
  decide
/-- R110's example, on channel B. -/
theorem test_setP :
    answersNext (exec (.setP 0x4000000000000000#64)
        { idle [] with chB := { Channel.reset with cl := true }, sel := .b })
      (fun t => t.chB.kp == 0x4000000000000000#64 && t.chB.ki == posZero && t.chA == Channel.reset) =
      true := by
  decide
/-- V7.7: a NaN gain is stored unchanged. -/
theorem test_setI :
    answersNext (exec (.setI 0x7FF8000000000000#64) { idle [] with chA := tunedA })
      (fun t => t.chA == { tunedA with ki := 0x7FF8000000000000#64 }) = true := by
  decide
/-- R110: 0x23 selects `KD`. -/
theorem test_setD :
    answersNext (exec (.setD 0x3FF0000000000000#64) { idle [] with chA := { Channel.reset with cl := true } })
      (fun t => t.chA.kd == 0x3FF0000000000000#64 && t.chA.kp == posZero) = true := by
  decide
/-- R114's example: 0x0107 is sent `07 01`. -/
theorem test_version_bytes : versionBytes vectorParams.fwVersion = [0x07#8, 0x01#8] := by decide
/-- R114: an unread reply is replaced. -/
theorem test_getFirmwareVersion :
    answersNext (exec .getFirmwareVersion { idle [] with reply := [1#8, 2#8, 3#8], replyPtr := 1 })
      (fun t => t.reply.length == 2 && t.replyPtr == 0) = true := by
  decide
/-- V8.3: the header 0x84 is OVF and four messages. -/
theorem test_getMessages :
    answersNext (exec .getMessages { idle [] with
        msgq := [⟨1#8, 0x99#8⟩, ⟨1#8, 0x04#8⟩, ⟨1#8, 0x11#8⟩, ⟨1#8, 0x30#8⟩]
        msgqOvf := true })
      (fun t => t.reply == [0x84#8, 0x01#8, 0x99#8, 0x01#8, 0x04#8, 0x01#8, 0x11#8, 0x01#8, 0x30#8] &&
        t.msgq == [] && !t.msgqOvf) = true := by
  decide
/-- V8.2: an empty queue replies `00`. -/
theorem test_getMessages_empty :
    answersNext (exec .getMessages (idle [])) (fun t => t.reply == [0x00#8]) = true := by decide

/-! ### Messages, replies and the receiver -/

/-- R112's example: a full queue keeps its messages and sets the overflow bit. -/
theorem test_logMessage_full :
    (State.logMessage { idle [] with msgq := [⟨1#8, 4#8⟩, ⟨1#8, 5#8⟩, ⟨1#8, 6#8⟩, ⟨1#8, 7#8⟩] }
      vectorParams 0x01#8 0x99#8).msgq.length = 4 ∧
    (State.logMessage { idle [] with msgq := [⟨1#8, 4#8⟩, ⟨1#8, 5#8⟩, ⟨1#8, 6#8⟩, ⟨1#8, 7#8⟩] }
      vectorParams 0x01#8 0x99#8).msgqOvf = true := by
  decide
/-- V8.5: a read before any query gives `00` and changes nothing but the history. -/
theorem test_txRead_empty : (idle []).txRead = { idle [] with history := [.txByte 0x00#8] } := by decide
/-- R95's example: 0x03 opens a payload. -/
theorem test_rxByte_opens_payload :
    answersNext (step (idle [.rxByte 0x03#8]))
      (fun t => t.rxState == .payload && t.rxOp == 0x03#8 && t.rxCnt == 0) = true := by
  decide
/-- V5.6: a payload byte equal to an opcode is data. -/
theorem test_rxByte_payload_is_data :
    answersNext (step { receivingGo 9#16 [.rxByte 0x00#8] with
        rxBuf := #v[0x00#8, 0x00#8, 0x00#8, 0x00#8, 0x00#8, 0x00#8, 0x00#8, 0x00#8] })
      (fun t => t.armed && t.wdCount == 0#16 && t.history == [.annActivity 0x03#8]) = true := by
  decide

/-! ### The Tick -/

/-- V1.1: a Tick from reset. -/
theorem test_tick_from_reset :
    answersNext (step (idle [.tick .invalid .invalid])) (fun t => t ==
      { idle [] with history := [.annRefresh, .pwmWrite .a 0#16 0#1, .pwmWrite .b 0#16 0#1] }) =
      true := by
  decide
/-- V4.1: the Tick after GO 0. -/
theorem test_tick_expires :
    answersNext (step (armed 0#16 [.tick .invalid .invalid])) (fun t => !t.armed && t.history ==
      [.annRefresh, .pwmWrite .a 0#16 0#1, .pwmWrite .b 0#16 0#1, .pwmWrite .a 0#16 0#1,
        .pwmWrite .b 0#16 0#1, .annExpired]) = true := by
  decide
/-- P2 tick 3, with the vectors' parameters: -32.5 gives 32, Reverse, EINT 5, EPREV -10. -/
theorem test_tick_closedLoop :
    let s : State := { armed 8#16 [] with
      chA := { tunedA with eint := 0x402E000000000000#64, eprev := 0x4014000000000000#64 } }
    let t := s.tick vectorParams (.value 0x405B800000000000#64) .invalid
    t.chA.duty = 32#16 ∧ t.chA.dirOut = .reverse ∧ t.chA.eint = 0x4014000000000000#64 ∧
      t.chA.eprev = 0xC024000000000000#64 ∧ t.wdCount = 7#16 := by
  decide +kernel
/-- P3 tick 2, the expiring one, with the vectors' parameters: the computed duties are written before the
zero writes, and the directions and EPREV stay. -/
theorem test_tick_closedLoop_expires :
    let cA : Channel := { Channel.reset with
      cl := true, sensor := 1#6, target := 0x4059000000000000#64, kp := 0x4000000000000000#64
      eprev := 0x4024000000000000#64, eint := 0x4024000000000000#64 }
    let cB : Channel := { Channel.reset with
      cl := true, sensor := 2#6, target := 0x4049000000000000#64, kp := 0x4010000000000000#64
      eprev := 0xC024000000000000#64, eint := 0xC024000000000000#64 }
    let t := ({ armed 0#16 [] with chA := cA, chB := cB } : State).tick vectorParams
      (.value 0x4056800000000000#64) (.value 0x404E000000000000#64)
    t.history = [.annRefresh,
      .measRead .a 1#6 (.value 0x4056800000000000#64), .pwmWrite .a 20#16 0#1,
      .measRead .b 2#6 (.value 0x404E000000000000#64), .pwmWrite .b 40#16 1#1,
      .pwmWrite .a 0#16 0#1, .pwmWrite .b 0#16 1#1, .annExpired] ∧
    t.chA = { cA with eint := posZero } ∧
    t.chB = { cB with eint := posZero, dir := .reverse, dirOut := .reverse } := by
  decide +kernel
/-- V2.19 tick 2: INVALID gives duty 0 and keeps EINT and EPREV. -/
theorem test_tick_sentinel :
    let c : Channel := { tunedA with
      eint := 0x4024000000000000#64, eprev := 0x4024000000000000#64, duty := 35#16 }
    let t := ({ armed 8#16 [] with chA := c } : State).tick vectorParams .invalid .invalid
    t.chA = { c with duty := 0#16, pwmCmp := 0#16 } := by
  decide +kernel

/-! ### Scaling, the control law and the operations of R77 -/

/-- V2.1, V2.2, V2.4, V2.6. -/
theorem test_scale_signs_zero_nan :
    scale vectorParams someNan 0x4041800000000000#64 .forward = (35#16, .forward) ∧
    scale vectorParams someNan 0xC040400000000000#64 .forward = (32#16, .reverse) ∧
    scale vectorParams someNan 0x0000000000000000#64 .reverse = (0#16, .reverse) ∧
    scale vectorParams someNan 0x7FF8000000000000#64 .reverse = (0#16, .reverse) := by
  decide +kernel
/-- V2.8, V2.9 (999.99), V2.10, V2.14 (-0.99), V2.15. -/
theorem test_scale_clamp_and_truncation :
    scale vectorParams someNan 0xFFF0000000000000#64 .forward = (1000#16, .reverse) ∧
    scale vectorParams someNan 0x408F3FEB851EB852#64 .forward = (999#16, .forward) ∧
    scale vectorParams someNan 0x408F400000000000#64 .forward = (1000#16, .forward) ∧
    scale vectorParams someNan 0xBFEFAE147AE147AE#64 .forward = (0#16, .reverse) ∧
    scale vectorParams someNan 0x0000000000000001#64 .forward = (0#16, .forward) := by
  decide +kernel
/-- V2.16: `fmul(1e300, 1e-300)` rounds to exactly 1.0, and a subnormal product underflows. -/
theorem test_scale_rounds_once :
    scale tinyScaleParams someNan 0x7E37E43C8800759C#64 .forward = (1#16, .forward) ∧
    scale tinyScaleParams someNan 0x0000000000000001#64 .forward = (0#16, .forward) := by
  decide +kernel
/-- V3.2: c = 12.5, EINT 15, EPREV 5. -/
theorem test_pidStep :
    pidStep (fun _ => someNan)
        { tunedA with eint := 0x4024000000000000#64, eprev := 0x4024000000000000#64 }
        0x4057C00000000000#64 =
      (0x4029000000000000#64,
        { tunedA with eint := 0x402E000000000000#64, eprev := 0x4014000000000000#64 }) := by
  decide +kernel
/-- V3.7: an unclamped integral makes `inf - inf`, a NaN. -/
theorem test_pidStep_unbounded_integral :
    isNan (pidStep (fun _ => someNan)
        { tunedA with
          target := 0x7FF0000000000000#64
          eint := 0x7FF0000000000000#64
          eprev := 0x7FF0000000000000#64 }
        posZero).1 = true := by
  decide +kernel

/-- R77: differences in both directions, and the sign of a zero difference. -/
theorem test_fsub :
    fsub someNan 0x4059000000000000#64 0x404E000000000000#64 = 0x4044000000000000#64 ∧
    fsub someNan 0x404E000000000000#64 0x4059000000000000#64 = 0xC044000000000000#64 ∧
    fsub someNan negZero posZero = negZero ∧
    fsub someNan 0x4059000000000000#64 0x7FF0000000000000#64 = 0xFFF0000000000000#64 := by
  decide +kernel

/-! ### Witnesses: the hypotheses of each statement are met -/

/-- An armed block, else as after reset, meets the invariants. -/
theorem armed_inv (n : Half) (is : List Input) : (armed n is).Inv where
  chanA := by constructor <;> simp [armed, idle, State.reset, Channel.reset]
  chanB := by constructor <;> simp [armed, idle, State.reset, Channel.reset]
  payloadProgress := by simp [armed, idle, State.reset]
  countOutsidePayload := by simp [armed, idle, State.reset]
  queueBound := by simp [armed, idle, State.reset]
  replyPointer := by simp [armed, idle, State.reset]
  replyBound := by simp [armed, idle, State.reset]
  disarmedCount := by simp [armed]

theorem witness_DecodedBytesAreTheFrame :
    decode [0x03#8, 0xA0#8, 0x0F#8, 0x02#8] = .ok (.go 4000#16, [0x02#8]) := by decide

theorem witness_PayloadLengthsAreTheTable :
    (0xFF#8 : Byte) ∉ [0x00#8, 0x01#8, 0x02#8, 0x03#8, 0x10#8, 0x20#8, 0x21#8, 0x22#8, 0x23#8, 0x40#8,
      0x41#8] := by decide

theorem witness_StepRunsTheDecodedInstruction :
    (∃ (s : State) (b : Byte) (rest : List Input) (i : Instr), s.inputs = .rxByte b :: rest ∧
      s.rxState = .idle ∧ decode [b] = .ok (i, [])) ∧
    (∃ (s : State) (b : Byte) (rest : List Input) (i : Instr), s.inputs = .rxByte b :: rest ∧
      s.rxState = .payload ∧ decode (s.rxOp :: (s.rxBuf.toList.take s.rxCnt ++ [b])) = .ok (i, [])) :=
  ⟨⟨idle [.rxByte 0x02#8], 0x02#8, [], .pause, rfl, rfl, by decide⟩,
    ⟨receivingGo 9#16 [.rxByte 0x0F#8], 0x0F#8, [], .go 4000#16, rfl, rfl, by decide⟩⟩

theorem witness_DeliveredFrameCommitsItsInstruction :
    (∃ (i : Instr) (s : State) (rest : List Input), s.rxState = .idle ∧
      s.inputs = (encode i).map .rxByte ++ rest ∧ i.payload = []) ∧
    (∃ (i : Instr) (s : State) (rest : List Input), s.rxState = .idle ∧
      s.inputs = (encode i).map .rxByte ++ rest ∧ i.payload ≠ []) :=
  ⟨⟨.pause, idle [.rxByte 0x02#8], [], rfl, rfl, rfl⟩,
    ⟨.setTarget posZero, idle ((encode (.setTarget posZero)).map .rxByte ++ [.rxEnd]), [.rxEnd], rfl, rfl,
      by decide⟩⟩

/-- The last byte that is staged without completing a frame is the seventh of eight. -/
theorem witness_PayloadBytesAreOnlyStaged :
    (∃ (s : State) (b : Byte) (rest : List Input) (n : Nat), s.inputs = .rxByte b :: rest ∧
      s.rxState = .idle ∧ payloadLen b = some n ∧ 0 < n ∧ n = 1) ∧
    (∃ (s : State) (b : Byte) (rest : List Input) (n : Nat), s.inputs = .rxByte b :: rest ∧
      s.rxState = .payload ∧ payloadLen s.rxOp = some n ∧ s.rxCnt + 1 < n ∧ s.rxCnt + 2 = n) :=
  ⟨⟨idle [.rxByte 0x10#8], 0x10#8, [], 1, rfl, rfl, by decide, by decide, rfl⟩,
    ⟨{ receivingGo 9#16 [.rxByte 0x0F#8] with rxOp := 0x20#8, rxCnt := 6 }, 0x0F#8, [], 8, rfl, rfl,
      by decide, by decide, rfl⟩⟩

/-- Both with room in the queue and without. -/
theorem witness_UnknownOpcodeIsLoggedAndDiscarded :
    (∃ (s : State) (b : Byte) (rest : List Input), s.inputs = .rxByte b :: rest ∧ s.rxState = .idle ∧
      opcodeOf b = none ∧ s.msgq.length < Config.params.msgqDepth) ∧
    (∃ (s : State) (b : Byte) (rest : List Input), s.inputs = .rxByte b :: rest ∧ s.rxState = .idle ∧
      opcodeOf b = none ∧ ¬ s.msgq.length < Config.params.msgqDepth) := by
  have h := msgqDepth_range Config.params
  refine ⟨⟨idle [.rxByte 0x99#8], 0x99#8, [], rfl, rfl, by decide, h.1⟩,
    ⟨{ idle [.rxByte 0x42#8] with msgq := List.replicate 127 ⟨1#8, 2#8⟩ }, 0x42#8, [], rfl, rfl,
      by decide, ?_⟩⟩
  simp only [List.length_replicate]
  omega

theorem witness_FrameEndDropsAShortFrame :
    (idle [.rxEnd]).inputs = .rxEnd :: [] ∧ (idle [.rxEnd]).rxState = .idle ∧
    (receivingGo 9#16 [.rxEnd]).inputs = .rxEnd :: [] ∧
    (receivingGo 9#16 [.rxEnd]).rxState = .payload ∧
    ({ idle [.rxEnd] with rxState := .discard } : State).inputs = .rxEnd :: [] := by decide

theorem witness_DiscardIgnoresEveryByte :
    ∃ (bytes : List Byte) (s : State) (rest : List Input), s.rxState = .discard ∧
      s.inputs = bytes.map .rxByte ++ rest ∧ bytes = [0x00#8, 0x03#8] :=
  ⟨[0x00#8, 0x03#8], { idle [.rxByte 0x00#8, .rxByte 0x03#8, .rxEnd] with rxState := .discard },
    [.rxEnd], rfl, rfl, rfl⟩

theorem witness_ProtocolErrorsHaveTwoSources :
    (∃ (s t : State) (l : List Event), step s = .next t ∧ Appended s t l ∧
      .annProtoError 0x01#8 0x99#8 ∈ l) ∧
    (∃ (s t : State) (l : List Event), step s = .next t ∧ Appended s t l ∧
      .annProtoError 0x02#8 0x03#8 ∈ l) := by
  have h := msgqDepth_range Config.params
  constructor
  · refine ⟨idle [.rxByte 0x99#8], _, [.annProtoError 0x01#8 0x99#8], rfl, ?_, by simp⟩
    simp only [Appended]
    rw [logMessage_room (h := ?_)]
    · rfl
    · exact h.1
  · refine ⟨receivingGo 9#16 [.rxEnd], _, [.annProtoError 0x02#8 0x03#8], rfl, ?_, by simp⟩
    simp only [Appended, State.rxEnd, receivingGo]
    rw [logMessage_room (h := ?_)]
    · rfl
    · exact h.1

theorem witness_SecondStopChangesNoRegister : ∃ s t : State, exec .stop s = .next t ∧ s.armed = true :=
  ⟨armed 3#16 [], _, rfl, rfl⟩

theorem witness_ResetCommandEqualsPowerOnButForDiagnostics :
    ∃ (s t : State) (i : Instr), s.nextCommit = some i ∧ step s = .next t ∧ i = .go 4000#16 :=
  ⟨receivingGo 9#16 [.rxByte 0x0F#8], _, .go 4000#16, by decide, rfl, rfl⟩

theorem witness_MessagesAreRepliedAndDrained :
    ({ idle [] with msgq := List.replicate 127 ⟨1#8, 2#8⟩, msgqOvf := true } : State).msgq.length ≤ 127 := by
  simp

theorem witness_ReplyReadsGiveTheBytesInOrder :
    ∃ (k : Nat) (s : State) (rest : List Input), s.replyPtr ≤ s.reply.length ∧
      s.inputs = List.replicate k .txRead ++ rest ∧ s.reply.length < k :=
  ⟨3, { idle [.txRead, .txRead, .txRead] with reply := [0x07#8, 0x01#8] }, [], by decide, rfl, by decide⟩

theorem witness_ReplyReadKeepsTheReceiver :
    (receivingGo 9#16 [.txRead]).inputs = .txRead :: [] := rfl

theorem witness_DisarmedTickDrivesZero :
    ∃ (s : State) (mA mB : Measurement) (rest : List Input), s.inputs = .tick mA mB :: rest ∧
      s.armed = false :=
  ⟨idle [.tick .invalid (.value posZero)], .invalid, .value posZero, [], rfl, rfl⟩

/-- The count at its boundary, 1: one channel open-loop beside a closed-loop one, and both open-loop. -/
theorem witness_OpenLoopTickCopiesToTheLatches :
    (∃ (s : State) (mA mB : Measurement) (rest : List Input), s.inputs = .tick mA mB :: rest ∧
      s.armed = true ∧ s.wdCount ≠ 0#16 ∧ (s.chan .a).cl = false ∧ (s.chan .b).cl = true) ∧
    (∃ (s : State) (mA mB : Measurement) (rest : List Input), s.inputs = .tick mA mB :: rest ∧
      s.armed = true ∧ s.wdCount ≠ 0#16 ∧ s.chA.cl = false ∧ s.chB.cl = false) :=
  ⟨⟨{ armed 1#16 [.tick .invalid (.value posZero)] with chB := tunedA }, .invalid, .value posZero, [], rfl,
      rfl, by decide, rfl, rfl⟩,
    ⟨armed 1#16 [.tick .invalid .invalid], .invalid, .invalid, [], rfl, rfl, by decide, rfl, rfl⟩⟩

/-- The Tick before the expiring one, and the expiring one. -/
theorem witness_ClosedLoopTickRunsTheControlLaw :
    (∃ (s : State) (mA mB : Measurement) (rest : List Input) (ch : ChannelId) (m : F64),
      s.inputs = .tick mA mB :: rest ∧ s.armed = true ∧ s.wdCount = 1#16 ∧ (s.chan ch).cl = true ∧
      answerTo ch mA mB = .value m ∧ isNan m = false) ∧
    (∃ (s : State) (mA mB : Measurement) (rest : List Input) (ch : ChannelId) (m : F64),
      s.inputs = .tick mA mB :: rest ∧ s.armed = true ∧ s.wdCount = 0#16 ∧ (s.chan ch).cl = true ∧
      answerTo ch mA mB = .value m ∧ isNan m = false) :=
  ⟨⟨{ armed 1#16 [.tick .invalid (.value posZero)] with chB := tunedA }, .invalid, .value posZero, [], .b,
      posZero, rfl, rfl, rfl, rfl, rfl, by decide⟩,
    ⟨{ armed 0#16 [.tick (.value posZero) .invalid] with chA := tunedA }, .value posZero, .invalid, [], .a,
      posZero, rfl, rfl, rfl, rfl, rfl, by decide⟩⟩

/-- Both sentinels: INVALID on A, a NaN on B. -/
theorem witness_SentinelTickDrivesZeroAndKeepsThePid :
    ∃ (s : State) (mA mB : Measurement) (rest : List Input), s.inputs = .tick mA mB :: rest ∧
      s.armed = true ∧ s.wdCount ≠ 0#16 ∧ s.chA.cl = true ∧ s.chB.cl = true ∧
      answerTo .a mA mB = .invalid ∧
      ∃ x, answerTo .b mA mB = .value x ∧ isNan x = true :=
  ⟨{ armed 1#16 [.tick .invalid (.value 0x7FF8000000000000#64)] with chA := tunedA, chB := tunedA },
    .invalid, .value 0x7FF8000000000000#64, [], rfl, rfl, by decide, rfl, rfl, rfl,
    0x7FF8000000000000#64, rfl, by decide⟩

theorem witness_ExpiringTickForcesAStop :
    ∃ (s : State) (mA mB : Measurement) (rest : List Input) (n : Half),
      s.inputs = .tick mA mB :: rest ∧ s.armed = true ∧ s.wdCount = 0#16 ∧ n ≠ 0#16 :=
  ⟨{ armed 0#16 [.tick .invalid .invalid] with chA := tunedA }, .invalid, .invalid, [], 1#16, rfl, rfl, rfl,
    by decide⟩

/-- An expiring Tick, and one short of expiry. -/
theorem witness_TickEmitsItsEventsInOrder :
    (∃ (s : State) (mA mB : Measurement) (rest : List Input), s.inputs = .tick mA mB :: rest ∧
      s.armed = true ∧ s.wdCount = 0#16) ∧
    (∃ (s : State) (mA mB : Measurement) (rest : List Input), s.inputs = .tick mA mB :: rest ∧
      s.armed = true ∧ s.wdCount = 1#16) :=
  ⟨⟨armed 0#16 [.tick .invalid .invalid], .invalid, .invalid, [], rfl, rfl, rfl⟩,
    ⟨armed 1#16 [.tick .invalid .invalid], .invalid, .invalid, [], rfl, rfl, rfl⟩⟩

/-- A Tick, and an input that is none. -/
theorem witness_RefreshIsEmittedOncePerTick :
    (∃ s t : State, step s = .next t ∧ ∃ mA mB, s.inputs.head? = some (.tick mA mB)) ∧
    (∃ s t : State, step s = .next t ∧ ∀ mA mB, s.inputs.head? ≠ some (.tick mA mB)) :=
  ⟨⟨idle [.tick .invalid .invalid], _, rfl, .invalid, .invalid, rfl⟩,
    ⟨idle [.txRead], _, rfl, by simp [idle]⟩⟩

/-- A commit, and a step that commits nothing. -/
theorem witness_ActivityIsEmittedOncePerCommit :
    (∃ (s t : State) (i : Instr), step s = .next t ∧ s.nextCommit = some i) ∧
    (∃ s t : State, step s = .next t ∧ s.nextCommit = none) :=
  ⟨⟨idle [.rxByte 0x02#8], _, .pause, rfl, by decide⟩, ⟨idle [.rxByte 0x03#8], _, rfl, by decide⟩⟩

/-- The expiring Tick, and the Tick before it. -/
theorem witness_ExpiryIsEmittedByTheExpiringTickAlone :
    (∃ s t : State, step s = .next t ∧ (∃ mA mB, s.inputs.head? = some (.tick mA mB)) ∧
      s.armed = true ∧ s.wdCount = 0#16) ∧
    (∃ s t : State, step s = .next t ∧
      ¬ ((∃ mA mB, s.inputs.head? = some (.tick mA mB)) ∧ s.armed = true ∧ s.wdCount = 0#16)) :=
  ⟨⟨armed 0#16 [.tick .invalid .invalid], _, rfl, ⟨.invalid, .invalid, rfl⟩, rfl, rfl⟩,
    ⟨armed 1#16 [.tick .invalid .invalid], _, rfl, by simp [armed]⟩⟩

theorem witness_AnnResetIsEmittedByResetAlone :
    (∃ s t : State, step s = .next t ∧ s.nextCommit = some .reset) ∧
    (∃ s t : State, step s = .next t ∧ s.nextCommit ≠ some .reset) :=
  ⟨⟨idle [.rxByte 0x01#8], _, rfl, by decide⟩, ⟨idle [.rxByte 0x02#8], _, rfl, by decide⟩⟩

theorem witness_EveryStepKeepsTheInvariants :
    ∃ s t : State, s.Inv ∧ step s = .next t ∧ s.inputs ≠ [] :=
  ⟨armed 1#16 [.tick .invalid .invalid], _, armed_inv _ _, rfl, by simp [armed, idle]⟩

theorem witness_EveryInputHasItsTransition : ∃ s : State, s.Inv ∧ s.inputs = [.rxByte 0x99#8] :=
  ⟨armed 1#16 [.rxByte 0x99#8], armed_inv _ _, rfl⟩

theorem witness_LatchesAreTheLastWritesInTheHistory :
    ∃ s t : State, s.LatchesFollowHistory ∧ step s = .next t ∧ s.history ≠ [] := by
  refine ⟨{ armed 1#16 [.tick .invalid .invalid] with
    chA := { Channel.reset with pwmCmp := 5#16, dirOut := .reverse }
    history := [.pwmWrite .a 9#16 0#1, .pwmWrite .a 5#16 1#1, .annRefresh] }, _, ?_, rfl, by simp⟩
  intro ch
  cases ch <;> decide

theorem witness_EachStepTakesOneInputAndOnlyAddsEvents :
    ∃ s t : State, step s = .next t ∧ s.inputs = [.txRead, .rxEnd] :=
  ⟨idle [.txRead, .rxEnd], _, rfl, rfl⟩

/-- A latch that becomes nonzero in a Tick, and a commit that disarms. -/
theorem witness_ActuationIsGatedByArmed :
    (∃ s t : State, step s = .next t ∧ (s.chan .a).pwmCmp = 0#16 ∧ (t.chan .a).pwmCmp ≠ 0#16) ∧
    (∃ s t : State, step s = .next t ∧ s.armed = true ∧ t.armed = false) :=
  ⟨⟨{ armed 1#16 [.tick .invalid .invalid] with chA := { Channel.reset with duty := 5#16 } }, _, rfl, rfl,
      by decide⟩,
    ⟨armed 1#16 [.rxByte 0x00#8], _, rfl, rfl, rfl⟩⟩

theorem witness_OnlyGoArmsAndOnlyAForcedStopDisarms :
    (∃ s t : State, step s = .next t ∧ s.armed = false ∧ t.armed = true) ∧
    (∃ s t : State, step s = .next t ∧ s.armed = true ∧ t.armed = false) :=
  ⟨⟨{ receivingGo 0#16 [.rxByte 0x0F#8] with armed := false }, _, rfl, rfl, rfl⟩,
    ⟨armed 0#16 [.tick .invalid .invalid], _, rfl, rfl, rfl⟩⟩

theorem witness_DisarmedWatchdogReadsZero :
    (∃ (s t : State) (mA mB : Measurement), s.inputs.head? = some (.tick mA mB) ∧ s.armed = false ∧
      step s = .next t) ∧
    (∃ s t : State, step s = .next t ∧ s.armed = true ∧ t.armed = false) ∧
    (∃ s t : State, s.Inv ∧ step s = .next t ∧ t.armed = false) :=
  ⟨⟨idle [.tick .invalid .invalid], _, .invalid, .invalid, rfl, rfl, rfl⟩,
    ⟨armed 0#16 [.tick .invalid .invalid], _, rfl, rfl, rfl⟩,
    ⟨armed 5#16 [.rxByte 0x02#8], _, armed_inv _ _, rfl, rfl⟩⟩

theorem witness_DutyIsZeroedOrScaledNeverPastTheBound :
    (∃ s t : State, step s = .next t ∧ ∃ mA mB, s.inputs.head? = some (.tick mA mB)) ∧
    (∃ s t : State, step s = .next t ∧ ∀ mA mB, s.inputs.head? ≠ some (.tick mA mB)) :=
  ⟨⟨{ armed 1#16 [.tick .invalid .invalid] with chA := tunedA }, _, rfl, .invalid, .invalid, rfl⟩,
    ⟨armed 1#16 [.rxByte 0x00#8], _, rfl, by simp [armed, idle]⟩⟩

theorem witness_ConfigurationChangesInCommitsAlone :
    ∃ s t : State, step s = .next t ∧ s.nextCommit = none ∧ s.inputs ≠ [] :=
  ⟨{ armed 1#16 [.tick .invalid .invalid] with chA := tunedA }, _, rfl, by decide, by simp [armed, idle]⟩

/-- An armed closed-loop Tick, and a commit. -/
theorem witness_PidMemoryMovesInArmedClosedLoopTicksAlone :
    (∃ s t : State, step s = .next t ∧ s.armed = true ∧ (s.chan .a).cl = true ∧
      ∃ mA mB, s.inputs.head? = some (.tick mA mB)) ∧
    (∃ s t : State, step s = .next t ∧ s.nextCommit = some .stop) :=
  ⟨⟨{ armed 1#16 [.tick .invalid .invalid] with chA := tunedA }, _, rfl, rfl, rfl, .invalid, .invalid,
      rfl⟩,
    ⟨armed 1#16 [.rxByte 0x00#8], _, rfl, by decide⟩⟩

/-- The queue and the reply change where GET_MESSAGES commits, the pointer in a reply read, a direction
where RESET commits. -/
theorem witness_QueueReplyAndDirectionHaveTheirWritersAlone :
    (∃ s t : State, step s = .next t ∧ t.msgq ≠ s.msgq ∧ t.reply ≠ s.reply) ∧
    (∃ s t : State, step s = .next t ∧ t.replyPtr ≠ s.replyPtr) ∧
    (∃ s t : State, step s = .next t ∧ (t.chan .a).dir ≠ (s.chan .a).dir) :=
  ⟨⟨{ idle [.rxByte 0x41#8] with msgq := [⟨0x01#8, 0x99#8⟩] }, _, rfl, by decide, by decide⟩,
    ⟨{ idle [.txRead] with reply := [0x07#8] }, _, rfl, by decide⟩,
    ⟨{ idle [.rxByte 0x01#8] with chA := { Channel.reset with dir := .reverse } }, _, rfl, by decide⟩⟩

/-- Two Ticks from a count of 1: the first of them in the window, the second past it. -/
theorem witness_ArmedWindowLastsTheTimeoutPlusOneTicks :
    (∃ (k : Nat) (s : State), s.Inv ∧ s.armed = true ∧ s.commitsNo Instr.isMotion k = true ∧
      s.ticksAmong k = s.wdCount.toNat ∧ 0 < k) ∧
    (∃ (k : Nat) (s : State), s.Inv ∧ s.armed = true ∧ s.commitsNo Instr.isMotion k = true ∧
      s.ticksAmong k = s.wdCount.toNat + 1) :=
  ⟨⟨1, armed 1#16 [.tick .invalid .invalid, .tick .invalid .invalid], armed_inv _ _, rfl, by decide,
      by decide, by decide⟩,
    ⟨2, armed 1#16 [.tick .invalid .invalid, .tick .invalid .invalid], armed_inv _ _, rfl, by decide,
      by decide⟩⟩

/-- One Tick from a count of 0, with a PAUSE after it. -/
theorem witness_WithoutGoTheMotorsStop :
    ∃ (k : Nat) (s : State), s.Inv ∧ s.commitsNo Instr.isGo k = true ∧
      s.wdCount.toNat < s.ticksAmong k ∧ s.armed = true :=
  ⟨2, armed 0#16 [.tick .invalid .invalid, .rxByte 0x02#8], armed_inv _ _, by decide, by decide, rfl⟩

theorem witness_RenewalRaceHasBothOutcomes :
    ∃ (s s' : State) (b : Byte) (x : Half) (mA mB : Measurement) (rest : List Input),
      s.armed = true ∧ s.wdCount = 0#16 ∧ s.completes b = some (.go x) ∧ x ≠ 0#16 ∧
      s.inputs = .rxByte b :: .tick mA mB :: rest ∧
      s' = { s with inputs := .tick mA mB :: .rxByte b :: rest } ∧ s'.completes b = some (.go x) :=
  ⟨receivingGo 0#16 [.rxByte 0x0F#8, .tick .invalid .invalid], _, 0x0F#8, 4000#16, .invalid, .invalid, [],
    rfl, rfl, by decide, by decide, rfl, rfl, by decide⟩

/-- The largest finite value and the least subnormal. -/
theorem witness_SumIsCorrectlyRounded :
    (∃ u, classify 0x7FEFFFFFFFFFFFFF#64 = .fin false u) ∧
    classify 0x8000000000000001#64 = .fin true 1 := by
  refine ⟨?_, by decide⟩
  obtain ⟨neg, u, h⟩ := (classify_fin_iff 0x7FEFFFFFFFFFFFFF#64).mpr (by decide)
  have : neg = false := by
    revert h
    unfold classify
    split_ifs
    all_goals intro h; cases h; try decide
  exact ⟨u, this ▸ h⟩

theorem witness_ProductIsCorrectlyRounded :
    classify 0x0000000000000001#64 = .fin false 1 ∧ classify 0x8000000000000000#64 = .fin true 0 := by
  decide

theorem witness_ZeroErrorArithmetic : isFinite 0x7FEFFFFFFFFFFFFF#64 = true ∧ isFinite negZero = true := by
  decide

theorem witness_IntegersConvertExactly : (2 ^ 53 : Nat) ≤ 2 ^ 53 := by decide

/-- A NaN, a zero, both infinities and a finite value other than zero; and of such values one whose
product is infinite (with `OUTPUT_SCALE` 2.0), one whose product is `MAX_DUTY` exactly, and the one
below it. -/
theorem witness_ScaleMeetsItsContract :
    isNan 0x7FF8000000000000#64 = true ∧ classify 0x7FF0000000000000#64 = .inf false ∧
      classify 0xFFF0000000000000#64 = .inf true ∧ classify 0x8000000000000001#64 = .fin true 1 ∧
      isNan 0x8000000000000001#64 = false ∧
      classify (fmul someNan (fabs 0xFFE0000000000000#64)
        { vectorParams with outputScalePred := ⟨0x3FFFFFFFFFFFFFFF, by decide⟩ }.outputScale) =
          .inf false ∧
      classify (fmul someNan (fabs 0xC08F400000000000#64) vectorParams.outputScale) =
        .fin false (vectorParams.maxDuty.toNat * 2 ^ 1074) ∧
      classify (fmul someNan (fabs 0x408F3FFFFFFFFFFF#64) vectorParams.outputScale) =
        .fin false (vectorParams.maxDuty.toNat * 2 ^ 1074 - 2 ^ 1031) := by
  decide +kernel

theorem witness_ZeroErrorKeepsTheDuty :
    ∃ (s : State) (mA mB : Measurement) (rest : List Input) (ch : ChannelId),
      s.inputs = .tick mA mB :: rest ∧ s.armed = true ∧ s.wdCount ≠ 0#16 ∧ (s.chan ch).cl = true ∧
      answerTo ch mA mB = .value (s.chan ch).target ∧
      isFinite (s.chan ch).target = true ∧ isFinite (s.chan ch).kp = true ∧
      isFinite (s.chan ch).ki = true ∧ isFinite (s.chan ch).kd = true ∧
      isNan (s.chan ch).eint = false ∧ (s.chan ch).eprev = posZero :=
  ⟨{ armed 1#16 [.tick (.value 0x4059000000000000#64) .invalid] with
      chA := { tunedA with eint := negZero } }, .value 0x4059000000000000#64, .invalid, [], .a,
    rfl, rfl, by decide, rfl, rfl, by decide, by decide, by decide, by decide, by decide, rfl⟩

/-- The largest finite value, less the least subnormal. -/
theorem witness_DifferenceIsCorrectlyRounded :
    classify 0x7FEFFFFFFFFFFFFF#64 = .fin false ((2 ^ 53 - 1) * 2 ^ 2045) ∧
    classify 0x0000000000000001#64 = .fin false 1 := by
  decide +kernel

/-- Both zeros, and opposite values. -/
theorem witness_ZeroSumsAndDifferencesHaveTheirSign :
    classify negZero = .fin true 0 ∧ classify posZero = .fin false 0 ∧
    classify 0x0000000000000001#64 = .fin false 1 ∧ classify 0x8000000000000001#64 = .fin true 1 ∧
    signedUnits false 1 + signedUnits true 1 = 0 := by
  decide

theorem witness_InfiniteOperandsGiveTheirInfinity :
    classify 0x7FF0000000000000#64 = .inf false ∧ classify 0xFFF0000000000000#64 = .inf true ∧
    classify 0x8000000000000001#64 = .fin true 1 := by
  decide

end Sys2Proof.Tests
end

section
/-! GET_MESSAGES (R115): its reply's header byte, its whole effect, and the obligation on both. -/

namespace Sys2Proof.Machine

/-- The header byte as a number: the overflow bit weighs 128, and a count that fits in the seven bits
below it is read back as it is (R59). -/
theorem messageHeader_toNat (ovf : Bool) {n : Nat} (hn : n ≤ 127) :
    (messageHeader ovf n).toNat = (if ovf then 128 else 0) + n := by
  have hlt : n < 2 ^ 7 := by omega
  have hlow : (BitVec.ofNat 7 n).toNat = n := (BitVec.toNat_ofNat n 7).trans (Nat.mod_eq_of_lt hlt)
  calc (messageHeader ovf n).toNat
    _ = (BitVec.ofBool ovf).toNat <<< 7 ||| n := by rw [messageHeader, BitVec.toNat_append, hlow]
    _ = (BitVec.ofBool ovf).toNat <<< 7 + n := (Nat.shiftLeft_add_eq_or_of_lt hlt _).symm
    _ = (if ovf then 128 else 0) + n := by cases ovf <;> rfl

/-- All that GET_MESSAGES does (R115): the queue is drained into the reply. -/
theorem exec_getMessages_eq (s : State) :
    exec .getMessages s = .next { s with
      reply := messageHeader s.msgqOvf s.msgq.length :: s.msgq.flatMap fun m => [m.code, m.detail]
      replyPtr := 0
      msgq := []
      msgqOvf := false } := by
  rw [← messageBytes_eq]
  rfl

/-- Settles O20: the header is `messageHeader` of the queue that the command finds. -/
theorem messagesAreRepliedAndDrained : Obligations.MessagesAreRepliedAndDrained := fun s =>
  ⟨messageHeader s.msgqOvf s.msgq.length, exec_getMessages_eq s, messageHeader_toNat s.msgqOvf⟩

end Sys2Proof.Machine
end

section
/-! The bound of Scale (R72): conversion of an integer is exact, so a product below `MAX_DUTY` in the
order of the comparisons has an integer part within it. -/

namespace Sys2Proof.Machine

/-- An integer below 2^53, scaled by `2^e`, has its last place at most at `e` (R77). -/
theorem roundPlace_scaled_le {n : Nat} (e : Nat) (hlt : n < 2 ^ 53) :
    roundPlace (n <<< e) 0 ≤ e := by
  unfold roundPlace
  rcases Nat.eq_zero_or_pos (n <<< e) with hzero | hpos
  · simp [hzero]
  · have hbits : (n <<< e).log2 < 53 + e := by
      rw [Nat.log2_lt (Nat.ne_of_gt hpos), Nat.shiftLeft_eq, Nat.pow_add]
      exact Nat.mul_lt_mul_of_pos_right hlt (Nat.two_pow_pos e)
    omega

/-- Rounding at a place below which a number has no bit keeps the number (R77). -/
theorem roundShift_exact {m t : Nat} (h : 2 ^ t ∣ m) : roundShift m t <<< t = m := by
  have hexact : m / 2 ^ t * 2 ^ t = m := Nat.div_mul_cancel h
  obtain ⟨-, -, -, hq | ⟨-, hne⟩⟩ := roundShift_spec m t
  · rw [hq, Nat.shiftLeft_eq, hexact]
  · exact absurd hexact hne

/-- An integer below 2^53, scaled by no more than its distance from the least subnormal, is a binary64
value, and rounding keeps it (R55, R77). -/
theorem classify_roundF64_scaled {n e : Nat} (neg : Bool) (hlt : n < 2 ^ 53) (he : e ≤ 1074) :
    classify (roundF64 neg (n <<< e) 0) = .fin neg (n <<< e) := by
  have hplace := roundPlace_scaled_le e hlt
  have hround := roundShift_le (n <<< e) 0
  have hdvd : 2 ^ roundPlace (n <<< e) 0 ∣ n <<< e :=
    ((Nat.pow_dvd_pow 2 hplace).mul_left n).trans (dvd_of_eq (Nat.shiftLeft_eq n e).symm)
  have hfinite : (roundPlace (n <<< e) 0 <<< 52) + roundShift (n <<< e) (roundPlace (n <<< e) 0) <
      infMagnitude := by
    rw [Nat.shiftLeft_eq (roundPlace _ _)]
    unfold infMagnitude
    omega
  rw [classify_roundF64, Nat.sub_zero, if_pos hfinite, roundShift_exact hdvd]

/-- `f64_of_int` is exact below 2^53 (R77). -/
theorem classify_f64OfNat {n : Nat} (hlt : n < 2 ^ 53) :
    classify (f64OfNat n) = .fin false (n <<< 1074) :=
  classify_roundF64_scaled false hlt (Nat.le_refl _)

/-- A rounded value that is finite keeps the sign it was given (R77). -/
theorem sign_of_classify_roundF64 {neg neg' : Bool} {m k u : Nat}
    (h : classify (roundF64 neg m k) = .fin neg' u) : neg' = neg := by
  rw [classify_roundF64] at h
  split at h
  · exact (F64Class.fin.inj h).1.symm
  · cases h

/-- The magnitude that Scale compares with `MAX_DUTY` is never negative (R72). -/
theorem scaledMagnitude_nonneg {P : Params} {n : NanBits} {c : F64} {neg : Bool} {u : Nat}
    (h : classify (fmul n (fabs c) P.outputScale) = .fin neg u) : neg = false := by
  obtain ⟨v, hv, hscale⟩ := classify_outputScale P
  have hnan : classify (nanF64 n) = .nan := (isNan_iff _).mp (isNan_nanF64 n)
  have hfabs := classify_fabs c
  cases hc : classify c with
  | nan =>
    rw [hc] at hfabs
    rw [fmul_nan (.inl hfabs), hnan] at h
    cases h
  | inf s =>
    rw [hc] at hfabs
    have hinf : classify (packF64 false infMagnitude) = .inf false := by decide
    simp [fmul, hfabs, hscale, Nat.ne_of_gt hv, hinf] at h
  | fin s w =>
    rw [hc] at hfabs
    rw [fmul_fin hfabs hscale] at h
    exact sign_of_classify_roundF64 h

/-- The quiet comparison of two finite values that are not negative is that of their units (R77). -/
theorem fge_fin_eq_false_iff {x y : F64} {u v : Nat} (hx : classify x = .fin false u)
    (hy : classify y = .fin false v) : fge x y = false ↔ u < v := by
  have hnotNan : ∀ {z : F64} {w : Nat}, classify z = .fin false w → isNan z = false := by
    intro z w hz
    rw [Bool.eq_false_iff, ne_eq, isNan_iff, hz]
    exact F64Class.noConfusion
  simp [fge, hnotNan hx, hnotNan hy, hx, hy, orderKey, signedUnits]

/-- A number of units below a whole number has an integer part within it. -/
theorem shiftRight_le_of_lt_shiftLeft {u n e : Nat} (h : u < n <<< e) : u >>> e ≤ n := by
  rw [Nat.shiftLeft_eq] at h
  rw [Nat.shiftRight_eq_div_pow]
  exact Nat.le_of_lt (Nat.div_lt_of_lt_mul (Nat.mul_comm n _ ▸ h))

/-- A product that the comparison finds below `MAX_DUTY` has an integer part within it (R72). -/
theorem truncF64_le_of_not_fge {P : Params} {n : NanBits} {c : F64}
    (h : fge (fmul n (fabs c) P.outputScale) (f64OfNat P.maxDuty.toNat) = false) :
    truncF64 (fmul n (fabs c) P.outputScale) ≤ P.maxDuty.toNat := by
  have hmax : classify (f64OfNat P.maxDuty.toNat) = .fin false (P.maxDuty.toNat <<< 1074) :=
    classify_f64OfNat (Nat.lt_of_le_of_lt (maxDuty_range P).2 (by decide))
  cases hm : classify (fmul n (fabs c) P.outputScale) with
  | nan => simp [truncF64, hm]
  | inf s => simp [truncF64, hm]
  | fin neg u =>
    obtain rfl := scaledMagnitude_nonneg hm
    simp only [truncF64, hm]
    exact shiftRight_le_of_lt_shiftLeft ((fge_fin_eq_false_iff hm hmax).mp h)

/-- The duty that Scale gives never passes `MAX_DUTY` (R72, R73). -/
theorem scale_duty_le (P : Params) (n : NanBits) (c : F64) (d : Direction) :
    (scale P n c d).1.toNat ≤ P.maxDuty.toNat := by
  unfold scale
  split
  · exact Nat.zero_le _
  split
  · exact Nat.zero_le _
  dsimp only
  split
  · exact Nat.le_refl _
  next hge =>
    rw [BitVec.toNat_ofNat]
    exact (Nat.mod_le _ _).trans (truncF64_le_of_not_fge (Bool.eq_false_iff.mpr hge))

end Sys2Proof.Machine
end

section
/-! What one step can do, sorted by what takes place rather than by the input taken: nothing outside
the receiver, one protocol error, one reply read, one Tick, or one commit. -/

namespace Sys2Proof.Machine

/-- The two states agree on everything outside the receiver, the inputs and the count of draws: on the
registers that a command or a Tick works on, and on the history. -/
structure SameBlock (s u : State) : Prop where
  chan : ∀ ch, u.chan ch = s.chan ch
  armed : u.armed = s.armed
  wdCount : u.wdCount = s.wdCount
  sel : u.sel = s.sel
  msgq : u.msgq = s.msgq
  msgqOvf : u.msgqOvf = s.msgqOvf
  reply : u.reply = s.reply
  replyPtr : u.replyPtr = s.replyPtr
  history : u.history = s.history

/-- Rewriting the receiver, the inputs and the count of draws is all that `SameBlock` allows. -/
theorem sameBlock_receiver (s : State) (st : RxState) (op : Byte) (cnt : Nat) (buf : Vector Byte 8)
    (ins : List Input) : SameBlock s { s with
      rxState := st, rxOp := op, rxCnt := cnt, rxBuf := buf, inputs := ins } :=
  ⟨fun ch => by cases ch <;> rfl, rfl, rfl, rfl, rfl, rfl, rfl, rfl, rfl⟩

/-- A protocol error is logged alike before and after the receiver moves to the state `st`, its count
kept (`f` the identity) or cleared (R112). -/
theorem logMessage_receiver (s : State) (P : Params) (code detail : Byte) (st : RxState)
    (f : Nat → Nat) :
    { s.logMessage P code detail with
      rxState := st, rxCnt := f (s.logMessage P code detail).rxCnt } =
        State.logMessage { s with rxState := st, rxCnt := f s.rxCnt } P code detail := by
  rcases logMessage_cases s P code detail with ⟨hroom, h⟩ | ⟨hfull, h⟩
  · rw [h, logMessage_room _ _ _ _ (by exact hroom)]
  · rw [h, logMessage_full _ _ _ _ (by exact Nat.not_lt.mpr hfull)]

/-- What took place in a step from `s` to `t`. -/
inductive StepKind (s t : State) : Prop
  | quiet (hc : s.nextCommit = none) (hu : SameBlock s t)
  | report (code detail : Byte) (u : State) (hc : s.nextCommit = none) (hu : SameBlock s u)
      (ht : t = u.logMessage Config.params code detail)
  | read (u : State) (hi : s.inputs.head? = some .txRead) (hc : s.nextCommit = none)
      (hu : SameBlock s u) (ht : t = u.txRead)
  | tick (mA mB : Measurement) (u : State) (hi : s.inputs.head? = some (.tick mA mB))
      (hc : s.nextCommit = none) (hu : SameBlock s u) (ht : t = u.tick Config.params mA mB)
  | commit (i : Instr) (u : State) (hc : s.nextCommit = some i) (hu : SameBlock s u)
      (he : exec i (u.emit (.annActivity i.opcode.code)) = .next t)

/-- What the next step commits is what its byte completes. -/
theorem nextCommit_rxByte {s : State} {b : Byte} {rest : List Input}
    (h : s.inputs = .rxByte b :: rest) :
    s.nextCommit = State.completes { s with inputs := rest } b := by
  unfold State.nextCommit
  rw [h]
  rfl

/-- No input but a byte commits anything. -/
theorem nextCommit_none {s : State} (h : ∀ b, s.inputs.head? ≠ some (.rxByte b)) :
    s.nextCommit = none := by
  unfold State.nextCommit
  split
  · next b rest heq => exact absurd (by rw [heq]; rfl) (h b)
  · rfl

/-- All that RxByte can do (R95), by what took place. -/
theorem stepKind_rxByte {s t : State} {b : Byte} {rest : List Input}
    (hi : s.inputs = .rxByte b :: rest) (h : rxByte b { s with inputs := rest } = .next t) :
    StepKind s t := by
  have hnext := nextCommit_rxByte hi
  rcases rxByte_cases h with ⟨i, buf, cnt, hc, he, -, -⟩ |
    ⟨hc, ⟨-, -, rfl⟩ | ⟨op, buf, cnt, -, rfl, -, -, -⟩ | ⟨-, rfl⟩⟩
  · exact .commit i _ (hnext.trans hc) (sameBlock_receiver s .idle s.rxOp cnt buf rest) he
  · exact .report _ _ _ (hnext.trans hc)
      (sameBlock_receiver s .discard s.rxOp s.rxCnt s.rxBuf rest)
      (logMessage_receiver { s with inputs := rest } _ _ _ .discard id)
  · exact .quiet (hnext.trans hc) (sameBlock_receiver s .payload op cnt buf rest)
  · exact .quiet (hnext.trans hc)
      (sameBlock_receiver s s.rxState s.rxOp s.rxCnt s.rxBuf rest)

/-- All that RxEnd can do (R96), by what took place. -/
theorem stepKind_rxEnd {s : State} {rest : List Input} (hi : s.inputs = .rxEnd :: rest) :
    StepKind s (State.rxEnd { s with inputs := rest }) := by
  have hc : s.nextCommit = none := nextCommit_none (by simp [hi])
  unfold State.rxEnd
  dsimp only
  split
  · exact .quiet hc (sameBlock_receiver s s.rxState s.rxOp s.rxCnt s.rxBuf rest)
  · exact .report _ _ _ hc (sameBlock_receiver s .idle s.rxOp 0 s.rxBuf rest)
      (logMessage_receiver { s with inputs := rest } _ _ _ .idle fun _ => 0)
  · exact .quiet hc (sameBlock_receiver s .idle s.rxOp s.rxCnt s.rxBuf rest)

/-- Every step that answers a next state is of one of the five kinds (R41, R95, R96, R98). -/
theorem step_kind {s t : State} (h : step s = .next t) : StepKind s t := by
  have taken (rest : List Input) : SameBlock s { s with inputs := rest } :=
    sameBlock_receiver s s.rxState s.rxOp s.rxCnt s.rxBuf rest
  rcases step_cases h with ⟨hi, rfl⟩ | ⟨mA, mB, rest, hi, ht⟩ | ⟨b, rest, hi, hb⟩ |
    ⟨rest, hi, rfl⟩ | ⟨rest, hi, ht⟩
  · exact .quiet (nextCommit_none (by simp [hi])) (taken t.inputs)
  · exact .tick mA mB _ (by simp [hi]) (nextCommit_none (by simp [hi])) (taken rest) ht
  · exact stepKind_rxByte hi hb
  · exact stepKind_rxEnd hi
  · exact .read _ (by simp [hi]) (nextCommit_none (by simp [hi])) (taken rest) ht

end Sys2Proof.Machine
end

section
/-! The output latches against the history (R37): a transition that appends the events `l` leaves each
channel's latches as the last `PwmWrite` to it in `l`, or untouched. -/

namespace Sys2Proof.Machine

/-- The output latches of a channel, as a `PwmWrite` shows them. -/
def Channel.latches (c : Channel) : Half × BitVec 1 := (c.pwmCmp, c.dirOut.bit)

/-- What one event writes to a channel's latches. -/
def Event.pwmWriteTo (ch : ChannelId) : Event → Option (Half × BitVec 1)
  | .pwmWrite c cmp dir => if c = ch then some (cmp, dir) else none
  | _ => none

/-- A later write supersedes the earlier ones (R37). -/
theorem lastPwmWrite_snoc (ch : ChannelId) (h : List Event) (e : Event) :
    lastPwmWrite ch (h ++ [e]) = (e.pwmWriteTo ch).or (lastPwmWrite ch h) := by
  unfold lastPwmWrite
  rw [List.foldl_append]
  cases e with
  | pwmWrite c cmp dir => by_cases hc : c = ch <;> simp [Event.pwmWriteTo, hc]
  | _ => rfl

/-- The last write in a history is the last one in its end, or the last one before. -/
theorem lastPwmWrite_append (ch : ChannelId) (h l : List Event) :
    lastPwmWrite ch (h ++ l) = (lastPwmWrite ch l).or (lastPwmWrite ch h) := by
  induction l using List.reverseRecOn with
  | nil => simp [lastPwmWrite]
  | append_singleton l e ih =>
    rw [← List.append_assoc, lastPwmWrite_snoc, ih, lastPwmWrite_snoc, Option.or_assoc]

@[simp] theorem lastPwmWrite_nil (ch : ChannelId) : lastPwmWrite ch [] = none := rfl

@[simp] theorem lastPwmWrite_cons (ch : ChannelId) (e : Event) (l : List Event) :
    lastPwmWrite ch (e :: l) = (lastPwmWrite ch l).or (e.pwmWriteTo ch) := by
  rw [← List.singleton_append, lastPwmWrite_append, ← List.nil_append [e], lastPwmWrite_snoc]
  simp

/-- Asking the oracle writes no latch (R70). -/
@[simp] theorem lastPwmWrite_measured (ch ch' : ChannelId) (armed : Bool) (c : Channel)
    (m : Measurement) : lastPwmWrite ch (measured ch' armed c m) = none := by
  unfold measured
  split <;> rfl

/-- The events that lead from `s` to `t` show every write to the latches. -/
def LatchesWritten (s t : State) : Prop :=
  ∃ l, Appended s t l ∧
    ∀ ch, (lastPwmWrite ch l).getD (s.chan ch).latches = (t.chan ch).latches

theorem LatchesWritten.trans {s u t : State} (hsu : LatchesWritten s u) (hut : LatchesWritten u t) :
    LatchesWritten s t := by
  obtain ⟨l, hl, hlatch⟩ := hsu
  obtain ⟨k, hk, klatch⟩ := hut
  unfold Appended at hl hk
  refine ⟨l ++ k, by rw [Appended, hk, hl, List.append_assoc], fun ch => ?_⟩
  rw [lastPwmWrite_append, Option.getD_or, hlatch, klatch]

/-- Where no event is appended, the latches must stay. -/
theorem latchesWritten_of_kept {s t : State} (hh : t.history = s.history)
    (hl : ∀ ch, (t.chan ch).latches = (s.chan ch).latches) : LatchesWritten s t :=
  ⟨[], by rw [Appended, hh, List.append_nil], fun ch => (hl ch).symm⟩

/-- An event that is no `PwmWrite` says that the latches stay. -/
theorem latchesWritten_emit (s : State) {e : Event} (he : ∀ ch, e.pwmWriteTo ch = none) :
    LatchesWritten s (s.emit e) :=
  ⟨[e], rfl, fun ch => by simp [he ch]⟩

/-- ForceStop shows both its writes (R76). -/
theorem latchesWritten_forceStop (s : State) : LatchesWritten s s.forceStop := by
  rw [forceStop_eq]
  refine ⟨_, rfl, fun ch => ?_⟩
  cases ch <;> rfl

/-- Where every transition shows its writes, the latches go on following the history (R37). -/
theorem LatchesWritten.keeps_history {s t : State} (h : LatchesWritten s t)
    (hs : s.LatchesFollowHistory) : t.LatchesFollowHistory := by
  obtain ⟨l, hl, hlatch⟩ := h
  unfold Appended at hl
  intro ch
  rw [hl, lastPwmWrite_append, Option.getD_or, hs ch]
  exact hlatch ch

end Sys2Proof.Machine
end

section
/-! What a Tick makes of the block in its phase 2, register by register, whatever the oracle answers:
the watchdog of phase 3 runs on the state that phase 2 leaves (R63). -/

namespace Sys2Proof.Machine

/-- What phase 2 keeps and changes in a channel's registers `c`, leaving `c'` (R68 to R74, R79). -/
structure ChannelEvaluated (P : Params) (armed : Bool) (c c' : Channel) : Prop where
  cl : c'.cl = c.cl
  sensor : c'.sensor = c.sensor
  kp : c'.kp = c.kp
  ki : c'.ki = c.ki
  kd : c'.kd = c.kd
  target : c'.target = c.target
  /-- The compare latch is written with the duty (R74). -/
  pwmCmp : c'.pwmCmp = c'.duty
  /-- The direction latch is written with the direction (R74). -/
  dirOut : c'.dirOut = c'.dir
  /-- Disarmed, the duty is 0 (R68). -/
  gated : armed = false → c'.duty = 0#16
  /-- Only a closed-loop channel of an armed block computes anything (R68, R69). -/
  uncontrolled : ¬ (armed = true ∧ c.cl = true) →
    c'.dir = c.dir ∧ c'.eint = c.eint ∧ c'.eprev = c.eprev ∧ (c'.duty = c.duty ∨ c'.duty = 0#16)
  /-- R73. -/
  range : c'.duty = c.duty ∨ c'.duty.toNat ≤ P.maxDuty.toNat

/-- A computed duty stays or is within `MAX_DUTY` (R72, R73). -/
theorem EvaluatesTo.duty_range {P : Params} {armed : Bool} {c : Channel} {m : Measurement}
    {duty : Half} {dir : Direction} {eint eprev : F64}
    (h : EvaluatesTo P armed c m duty dir eint eprev) :
    duty = c.duty ∨ duty.toNat ≤ P.maxDuty.toNat := by
  have hzero : duty = 0#16 → duty.toNat ≤ P.maxDuty.toNat := fun h0 => by simp [h0]
  cases harmed : armed with
  | false => exact .inr (hzero (h.disarmed harmed).1)
  | true =>
    cases hcl : c.cl with
    | false => exact .inl (h.openLoop harmed hcl).1
    | true =>
      by_cases hm : m = .invalid ∨ ∃ x, m = .value x ∧ isNan x = true
      · exact .inr (hzero (h.sentinel harmed hcl hm).1)
      · cases m with
        | invalid => exact absurd (.inl rfl) hm
        | value x =>
          have hx : isNan x = false :=
            Bool.eq_false_iff.mpr fun hx => hm (.inr ⟨x, rfl, hx⟩)
          obtain ⟨nan, n, hout, -, -⟩ := h.value harmed hcl x rfl hx
          right
          calc duty.toNat
            _ = (scale P n (pidStep nan c x).1 c.dir).1.toNat := by rw [← hout]
            _ ≤ P.maxDuty.toNat := scale_duty_le P n _ c.dir

/-- The registers that phase 2 writes, among the others (R68 to R74). -/
theorem EvaluatesTo.channel {P : Params} {armed : Bool} {c : Channel} {m : Measurement}
    {duty : Half} {dir : Direction} {eint eprev : F64}
    (h : EvaluatesTo P armed c m duty dir eint eprev) :
    ChannelEvaluated P armed c { c with
      duty := duty, dir := dir, eint := eint, eprev := eprev, pwmCmp := duty, dirOut := dir } where
  cl := rfl
  sensor := rfl
  kp := rfl
  ki := rfl
  kd := rfl
  target := rfl
  pwmCmp := rfl
  dirOut := rfl
  gated ha := (h.disarmed ha).1
  uncontrolled hn := by
    cases ha : armed with
    | false =>
      obtain ⟨hduty, hdir, heint, heprev⟩ := h.disarmed ha
      exact ⟨hdir, heint, heprev, .inr hduty⟩
    | true =>
      have hcl : c.cl = false := Bool.eq_false_iff.mpr fun hcl => hn ⟨ha, hcl⟩
      obtain ⟨hduty, hdir, heint, heprev⟩ := h.openLoop ha hcl
      exact ⟨hdir, heint, heprev, .inl hduty⟩
  range := h.duty_range

/-- `u` is what phases 1 and 2 of a Tick leave of `s` (R63). -/
structure PhaseTwo (P : Params) (s u : State) : Prop where
  chan : ∀ ch, ChannelEvaluated P s.armed (s.chan ch) (u.chan ch)
  armed : u.armed = s.armed
  wdCount : u.wdCount = s.wdCount
  frame : TickFrame s u
  latches : LatchesWritten s u

/-- Every Tick is its phase 2 with the watchdog after it (R63). -/
theorem tick_phases (s : State) (P : Params) (mA mB : Measurement) :
    ∃ u, PhaseTwo P s u ∧ s.tick P mA mB = u.watchdogTick := by
  obtain ⟨dutyA, dirA, eintA, eprevA, dutyB, dirB, eintB, eprevB, draws, hA, hB, heq⟩ :=
    tick_result s P mA mB
  refine ⟨_, ?_, heq s.wdCount⟩
  refine ⟨fun ch => ?_, rfl, rfl, ⟨rfl, rfl, rfl, rfl, rfl, rfl, rfl, rfl, rfl⟩, _, rfl, fun ch => ?_⟩
  · cases ch with
    | a => exact hA.channel
    | b => exact hB.channel
  · cases ch <;> simp [lastPwmWrite_append, Event.pwmWriteTo, Channel.latches]

/-- The watchdog leaves everything outside the channels, `ARMED` and `WD_COUNT` (R90). -/
theorem watchdogTick_frame (s : State) : TickFrame s s.watchdogTick := by
  rcases watchdogTick_cases s with ⟨-, h⟩ | ⟨-, -, h⟩ | ⟨-, -, h⟩ <;> rw [h] <;>
    exact ⟨rfl, rfl, rfl, rfl, rfl, rfl, rfl, rfl, rfl⟩

/-- A Tick writes none of the registers that `TickFrame` names (R25 to R28). -/
theorem tick_frame (s : State) (P : Params) (mA mB : Measurement) :
    TickFrame s (s.tick P mA mB) := by
  obtain ⟨u, hu, ht⟩ := tick_phases s P mA mB
  obtain ⟨h1, h2, h3, h4, h5, h6, h7, h8, h9⟩ := hu.frame
  obtain ⟨k1, k2, k3, k4, k5, k6, k7, k8, k9⟩ := watchdogTick_frame u
  rw [ht]
  exact ⟨k1.trans h1, k2.trans h2, k3.trans h3, k4.trans h4, k5.trans h5, k6.trans h6,
    k7.trans h7, k8.trans h8, k9.trans h9⟩

end Sys2Proof.Machine
end

section
/-! What one step can do to a channel, and to the watchdog. -/

namespace Sys2Proof.Machine

/-! ### The effect of the shared operations on one channel -/

/-- A channel's part of ForceStop (R76). -/
def Channel.stopped (c : Channel) : Channel :=
  { c with duty := 0#16, eint := posZero, pwmCmp := 0#16 }

theorem chan_forceStop (s : State) (ch : ChannelId) :
    s.forceStop.chan ch = (s.chan ch).stopped := by
  rw [forceStop_eq]
  cases ch <;> rfl

/-- The registers that neither a protocol error nor a reply read touches: the channels, the watchdog
and `SEL`. -/
structure SameMotors (s t : State) : Prop where
  chan : ∀ ch, t.chan ch = s.chan ch
  armed : t.armed = s.armed
  wdCount : t.wdCount = s.wdCount
  sel : t.sel = s.sel

theorem SameBlock.motors {s t : State} (h : SameBlock s t) : SameMotors s t :=
  ⟨h.chan, h.armed, h.wdCount, h.sel⟩

theorem SameMotors.trans {s u t : State} (h : SameMotors s u) (k : SameMotors u t) :
    SameMotors s t :=
  ⟨fun ch => (k.chan ch).trans (h.chan ch), k.armed.trans h.armed, k.wdCount.trans h.wdCount,
    k.sel.trans h.sel⟩

/-- A protocol error touches the queue alone (R112). -/
theorem logMessage_motors (s : State) (P : Params) (code detail : Byte) :
    SameMotors s (s.logMessage P code detail) := by
  rcases logMessage_cases s P code detail with ⟨-, h⟩ | ⟨-, h⟩ <;> rw [h] <;>
    exact ⟨fun ch => by cases ch <;> rfl, rfl, rfl, rfl⟩

/-- A reply read touches the reply pointer alone (R116). -/
theorem txRead_motors (s : State) : SameMotors s s.txRead := by
  rcases txRead_cases s with ⟨b, -, h⟩ | ⟨-, h⟩ <;> rw [h] <;>
    exact ⟨fun ch => by cases ch <;> rfl, rfl, rfl, rfl⟩

/-- A step moves the motors' registers in a Tick or in a commit alone. -/
theorem step_motors {s t : State} (h : step s = .next t) :
    (s.nextCommit = none ∧ SameMotors s t) ∨
    (∃ mA mB u, s.inputs.head? = some (.tick mA mB) ∧ s.nextCommit = none ∧ SameBlock s u ∧
      t = u.tick Config.params mA mB) ∨
    (∃ i u, s.nextCommit = some i ∧ SameBlock s u ∧
      exec i (u.emit (.annActivity i.opcode.code)) = .next t) := by
  cases step_kind h with
  | quiet hc hu => exact .inl ⟨hc, hu.motors⟩
  | report code detail u hc hu ht =>
    exact .inl ⟨hc, ht ▸ hu.motors.trans (logMessage_motors u _ _ _)⟩
  | read u hi hc hu ht => exact .inl ⟨hc, ht ▸ hu.motors.trans (txRead_motors u)⟩
  | tick mA mB u hi hc hu ht => exact .inr (.inl ⟨mA, mB, u, hi, hc, hu, ht⟩)
  | commit i u hc hu he => exact .inr (.inr ⟨i, u, hc, hu, he⟩)

/-! ### The channels -/

/-- All that a step can do to the registers of the channel `ch`. -/
inductive ChannelStep (s t : State) (ch : ChannelId) : Prop
  | kept (ht : t.chan ch = s.chan ch) (ha : t.armed = false → s.armed = false)
  | stopped (i : Instr) (hc : s.nextCommit = some i) (ht : t.chan ch = (s.chan ch).stopped)
  | reset (hc : s.nextCommit = some .reset) (ht : t.chan ch = Channel.reset)
  | mode (cle : Bool) (idx : SensorIndex) (hc : s.nextCommit = some (.setChannelMode ch cle idx))
      (ha : t.armed = s.armed) (ht : t.chan ch = (s.chan ch).setMode cle idx)
  /-- A set command, on a closed-loop channel: none of the registers named here is its to write. -/
  | written (i : Instr) (hc : s.nextCommit = some i) (ha : t.armed = s.armed)
      (hcl : (s.chan ch).cl = true)
      (ht : (t.chan ch).duty = (s.chan ch).duty ∧ (t.chan ch).dir = (s.chan ch).dir ∧
        (t.chan ch).cl = (s.chan ch).cl ∧ (t.chan ch).sensor = (s.chan ch).sensor ∧
        (t.chan ch).eprev = (s.chan ch).eprev ∧ (t.chan ch).eint = (s.chan ch).eint ∧
        (t.chan ch).pwmCmp = (s.chan ch).pwmCmp ∧ (t.chan ch).dirOut = (s.chan ch).dirOut)
  | evaluated (mA mB : Measurement) (hi : s.inputs.head? = some (.tick mA mB))
      (he : ChannelEvaluated Config.params s.armed (s.chan ch) (t.chan ch))
      (ha : t.armed = s.armed)
  /-- The Tick that expires. -/
  | evaluatedThenStopped (mA mB : Measurement) (c : Channel)
      (hi : s.inputs.head? = some (.tick mA mB))
      (he : ChannelEvaluated Config.params s.armed (s.chan ch) c) (ht : t.chan ch = c.stopped)

/-- What a command can do to a channel (R98). -/
theorem channelStep_commit {s u t : State} {i : Instr} (ch : ChannelId)
    (hc : s.nextCommit = some i) (hu : SameBlock s u)
    (he : exec i (u.emit (.annActivity i.opcode.code)) = .next t) : ChannelStep s t ch := by
  rcases exec_cases he with ⟨-, rfl⟩ | ⟨rfl, hr⟩ | ⟨x, -, rfl⟩ | ⟨ch', cle, idx, rfl, rfl⟩ |
    ⟨f, -, rfl, hf⟩ | ⟨-, rfl⟩ | ⟨-, rfl⟩
  · exact .stopped i hc (by rw [chan_forceStop, emit_chan, hu.chan])
  · rw [execReset_eq] at hr
    cases hr
    exact .reset hc (by cases ch <;> rfl)
  · exact .kept (by rw [← hu.chan]; cases ch <;> rfl) (fun ha => by simp at ha)
  · by_cases hch : ch = ch'
    · subst hch
      exact .mode cle idx hc (by simp [hu.armed])
        (by rw [chan_setChan_same, emit_chan, hu.chan])
    · refine .kept ?_ (fun ha => by simpa [hu.armed] using ha)
      rw [chan_setChan_other _ _ hch, ← hu.chan]
      cases ch <;> rfl
  · rcases writeAddressed_cases (u.emit (.annActivity i.opcode.code)) f with ⟨hcl, h⟩ | ⟨-, h⟩
    · rw [h]
      by_cases hch : ch = u.sel
      · subst hch
        refine .written i hc (by simp [hu.armed]) (by rw [← hu.chan]; exact hcl) ?_
        rw [emit_sel, chan_setChan_same, emit_chan, hu.chan]
        exact hf _
      · refine .kept ?_ (fun ha => by simpa [hu.armed] using ha)
        rw [emit_sel, chan_setChan_other _ _ hch, emit_chan, hu.chan]
    · rw [h]
      exact .kept (by rw [emit_chan, hu.chan]) (fun ha => by rw [← hu.armed]; exact ha)
  · exact .kept (by rw [← hu.chan]; cases ch <;> rfl) (fun ha => by rw [← hu.armed]; exact ha)
  · exact .kept (by rw [← hu.chan]; cases ch <;> rfl) (fun ha => by rw [← hu.armed]; exact ha)

/-- What a Tick can do to a channel (R63, R90). -/
theorem channelStep_tick {s u : State} {mA mB : Measurement} (ch : ChannelId)
    (hi : s.inputs.head? = some (.tick mA mB)) (hu : SameBlock s u) :
    ChannelStep s (u.tick Config.params mA mB) ch := by
  obtain ⟨v, hv, ht⟩ := tick_phases u Config.params mA mB
  have he : ChannelEvaluated Config.params s.armed (s.chan ch) (v.chan ch) := by
    rw [← hu.armed, ← hu.chan]
    exact hv.chan ch
  have harmed : v.armed = s.armed := hv.armed.trans hu.armed
  rw [ht]
  rcases watchdogTick_cases v with ⟨-, h⟩ | ⟨-, -, h⟩ | ⟨-, -, h⟩ <;> rw [h]
  · exact .evaluated mA mB hi he harmed
  · have hchan : ({ v with wdCount := v.wdCount - 1#16 } : State).chan ch = v.chan ch := by
      cases ch <;> rfl
    exact .evaluated mA mB hi (hchan ▸ he) harmed
  · exact .evaluatedThenStopped mA mB _ hi he (by rw [emit_chan, chan_forceStop])

/-- Every step does to each channel one of the things that `ChannelStep` names. -/
theorem step_channel {s t : State} (ch : ChannelId) (h : step s = .next t) : ChannelStep s t ch := by
  rcases step_motors h with ⟨-, hm⟩ | ⟨mA, mB, u, hi, -, hu, rfl⟩ | ⟨i, u, hc, hu, he⟩
  · exact .kept (hm.chan ch) (fun ha => hm.armed ▸ ha)
  · exact channelStep_tick ch hi hu
  · exact channelStep_commit ch hc hu he

/-! ### The watchdog -/

/-- All that a step can do to `ARMED` and `WD_COUNT` (R24, R29). -/
inductive WatchdogStep (s t : State) : Prop
  | kept (ha : t.armed = s.armed) (hw : t.wdCount = s.wdCount)
  | armed (x : Half) (hc : s.nextCommit = some (.go x)) (ha : t.armed = true)
  | disarmed (ha : t.armed = false) (hw : t.wdCount = 0#16)
      (hc : s.nextCommit = some .stop ∨ s.nextCommit = some .pause ∨ s.nextCommit = some .reset)
  | counted (hs : s.armed = true) (ha : t.armed = true)
  | expired (mA mB : Measurement) (hi : s.inputs.head? = some (.tick mA mB)) (hs : s.wdCount = 0#16)
      (ha : t.armed = false) (hw : t.wdCount = 0#16)

/-- A forced stop ends disarmed with the count 0 (R76). -/
@[simp] theorem forceStop_armed (s : State) : s.forceStop.armed = false := rfl
@[simp] theorem forceStop_wdCount (s : State) : s.forceStop.wdCount = 0#16 := rfl

/-- What a command can do to the watchdog (R98). -/
theorem watchdogStep_commit {s u t : State} {i : Instr} (hc : s.nextCommit = some i)
    (hu : SameBlock s u) (he : exec i (u.emit (.annActivity i.opcode.code)) = .next t) :
    WatchdogStep s t := by
  rcases exec_cases he with ⟨hi, rfl⟩ | ⟨rfl, hr⟩ | ⟨x, rfl, rfl⟩ | ⟨ch', cle, idx, rfl, rfl⟩ |
    ⟨f, -, rfl, -⟩ | ⟨-, rfl⟩ | ⟨-, rfl⟩
  · exact .disarmed rfl rfl (by rcases hi with rfl | rfl <;> simp [hc])
  · rw [execReset_eq] at hr
    cases hr
    exact .disarmed rfl rfl (.inr (.inr hc))
  · exact .armed x hc rfl
  · exact .kept (by simp [hu.armed]) (by simp [hu.wdCount])
  · rcases writeAddressed_cases (u.emit (.annActivity i.opcode.code)) f with ⟨-, h⟩ | ⟨-, h⟩ <;>
      rw [h] <;> exact .kept (by simp [hu.armed]) (by simp [hu.wdCount])
  · exact .kept hu.armed hu.wdCount
  · exact .kept hu.armed hu.wdCount

/-- Every step does to the watchdog one of the things that `WatchdogStep` names. -/
theorem step_watchdog {s t : State} (h : step s = .next t) : WatchdogStep s t := by
  rcases step_motors h with ⟨-, hm⟩ | ⟨mA, mB, u, hi, -, hu, rfl⟩ | ⟨i, u, hc, hu, he⟩
  · exact .kept hm.armed hm.wdCount
  · obtain ⟨v, hv, ht⟩ := tick_phases u Config.params mA mB
    have harmed : v.armed = s.armed := hv.armed.trans hu.armed
    have hcount : v.wdCount = s.wdCount := hv.wdCount.trans hu.wdCount
    rw [ht]
    rcases watchdogTick_cases v with ⟨-, h⟩ | ⟨ha, -, h⟩ | ⟨-, hw, h⟩ <;> rw [h]
    · exact .kept harmed hcount
    · exact .counted (harmed ▸ ha) ha
    · exact .expired mA mB hi (hcount ▸ hw) rfl rfl
  · exact watchdogStep_commit hc hu he

/-! ### SET_CHANNEL_MODE -/

/-- What SET_CHANNEL_MODE makes of a channel's registers: outside `CL` and `SENSOR` it keeps them, or it
clears the controller and the duty (R107, R108). -/
theorem setMode_cases (c : Channel) (cle : Bool) (idx : SensorIndex) :
    (c.cl = cle ∧ c.setMode cle idx = { c with sensor := if cle then idx else 0#6 }) ∨
    (c.cl ≠ cle ∧ c.setMode cle idx =
      { c.clearPid with duty := 0#16, cl := cle, sensor := if cle then idx else 0#6 }) := by
  cases cle <;> cases hc : c.cl <;> simp [Channel.setMode, hc]

end Sys2Proof.Machine
end

section
/-! What becomes of the channels and the watchdog: who moves `ARMED` (R24, R29, R89), the duty (R18,
R111), the configuration (R20 to R22, R25) and the controller's memory (R22, R79). -/

namespace Sys2Proof.Machine

/-- Settles O41. -/
theorem onlyGoArmsAndOnlyAForcedStopDisarms : Obligations.OnlyGoArmsAndOnlyAForcedStopDisarms := by
  intro s t h
  cases step_watchdog h with
  | kept ha hw =>
    rw [ha]
    exact ⟨fun h0 h1 => by simp [h0] at h1, fun h1 h0 => by simp [h1] at h0⟩
  | armed x hc ha => exact ⟨fun _ _ => ⟨x, hc⟩, by simp [ha]⟩
  | disarmed ha hw hc =>
    refine ⟨by simp [ha], fun _ _ => ?_⟩
    rcases hc with hc | hc | hc <;> simp [hc]
  | counted hs ha => simp [hs, ha]
  | expired mA mB hi hs ha hw =>
    exact ⟨by simp [ha], fun _ _ => .inr (.inr (.inr ⟨⟨mA, mB, hi⟩, hs⟩))⟩

/-- SET_CHANNEL_MODE keeps a duty or clears it (R108). -/
theorem setMode_duty (c : Channel) (cle : Bool) (idx : SensorIndex) :
    (c.setMode cle idx).duty = c.duty ∨ (c.setMode cle idx).duty = 0#16 := by
  rcases setMode_cases c cle idx with ⟨-, h⟩ | ⟨-, h⟩ <;> simp [h]

/-- SET_CHANNEL_MODE keeps the controller's memory or clears it (R107, R108). -/
theorem setMode_memory (c : Channel) (cle : Bool) (idx : SensorIndex) :
    ((c.setMode cle idx).eint = c.eint ∨ (c.setMode cle idx).eint = posZero) ∧
    ((c.setMode cle idx).eprev = c.eprev ∨ (c.setMode cle idx).eprev = posZero) := by
  rcases setMode_cases c cle idx with ⟨-, h⟩ | ⟨-, h⟩ <;> simp [h]

/-- Of all that a step can do, only a Tick's evaluation gives a duty that is neither kept nor 0, and
that one is within `MAX_DUTY`. -/
theorem ChannelStep.duty {s t : State} {ch : ChannelId} (h : ChannelStep s t ch) :
    ((t.chan ch).duty = (s.chan ch).duty ∨ (t.chan ch).duty = 0#16) ∨
    ((∃ mA mB, s.inputs.head? = some (.tick mA mB)) ∧
      (t.chan ch).duty.toNat ≤ Config.params.maxDuty.toNat) := by
  cases h with
  | kept ht => exact .inl (.inl (by rw [ht]))
  | stopped i hc ht => exact .inl (.inr (by rw [ht]; rfl))
  | reset hc ht => exact .inl (.inr (by rw [ht]; rfl))
  | mode cle idx hc ha ht =>
    rw [ht]
    exact .inl (setMode_duty _ cle idx)
  | written i hc ha hcl ht =>
    obtain ⟨hduty, -⟩ := ht
    exact .inl (.inl hduty)
  | evaluated mA mB hi he ha =>
    rcases he.range with hkept | hle
    · exact .inl (.inl hkept)
    · exact .inr ⟨⟨mA, mB, hi⟩, hle⟩
  | evaluatedThenStopped mA mB c hi he ht => exact .inl (.inr (by rw [ht]; rfl))

/-- Settles O43. -/
theorem dutyIsZeroedOrScaledNeverPastTheBound :
    Obligations.DutyIsZeroedOrScaledNeverPastTheBound := by
  intro s t ch h
  rcases (step_channel ch h).duty with (hkept | hzero) | ⟨⟨mA, mB, hi⟩, hle⟩
  · exact ⟨.inl hkept, fun _ => .inl hkept⟩
  · exact ⟨.inr (by simp [hzero]), fun _ => .inr hzero⟩
  · exact ⟨.inr hle, fun hn => absurd hi (hn mA mB)⟩

/-- Without a commit a step changes nothing of `SEL` (R25). -/
theorem step_sel_of_no_commit {s t : State} (h : step s = .next t) (hn : s.nextCommit = none) :
    t.sel = s.sel := by
  rcases step_motors h with ⟨-, hm⟩ | ⟨mA, mB, u, -, -, hu, rfl⟩ | ⟨i, u, hc, -, -⟩
  · exact hm.sel
  · obtain ⟨hsel, -⟩ := tick_frame u Config.params mA mB
    exact hsel.trans hu.sel
  · rw [hn] at hc
    cases hc

/-- Settles O44. -/
theorem configurationChangesInCommitsAlone : Obligations.ConfigurationChangesInCommitsAlone := by
  intro s t h hn
  refine ⟨step_sel_of_no_commit h hn, fun ch => ?_⟩
  cases step_channel ch h with
  | kept ht => simp [ht]
  | stopped i hc | reset hc | mode _ _ hc | written i hc => simp [hn] at hc
  | evaluated mA mB hi he ha => exact ⟨he.cl, he.sensor, he.kp, he.ki, he.kd, he.target⟩
  | evaluatedThenStopped mA mB c hi he ht =>
    rw [ht]
    exact ⟨he.cl, he.sensor, he.kp, he.ki, he.kd, he.target⟩

/-- Settles O45. -/
theorem pidMemoryMovesInArmedClosedLoopTicksAlone :
    Obligations.PidMemoryMovesInArmedClosedLoopTicksAlone := by
  intro s t ch h
  cases step_channel ch h with
  | kept ht => simp [ht]
  | stopped i hc ht => simp [ht, Channel.stopped]
  | reset hc ht => simp [ht, Channel.reset]
  | mode cle idx hc ha ht =>
    rw [ht]
    exact .inr (setMode_memory _ cle idx)
  | written i hc ha hcl ht =>
    obtain ⟨-, -, -, -, heprev, heint, -, -⟩ := ht
    exact .inr ⟨.inl heint, .inl heprev⟩
  | evaluated mA mB hi he ha =>
    by_cases hctl : s.armed = true ∧ (s.chan ch).cl = true
    · exact .inl ⟨hctl.1, hctl.2, mA, mB, hi⟩
    · obtain ⟨-, heint, heprev, -⟩ := he.uncontrolled hctl
      exact .inr ⟨.inl heint, .inl heprev⟩
  | evaluatedThenStopped mA mB c hi he ht =>
    by_cases hctl : s.armed = true ∧ (s.chan ch).cl = true
    · exact .inl ⟨hctl.1, hctl.2, mA, mB, hi⟩
    · obtain ⟨-, -, heprev, -⟩ := he.uncontrolled hctl
      rw [ht]
      exact .inr ⟨.inr rfl, .inl heprev⟩

end Sys2Proof.Machine
end

section
/-! The output latches follow the history (R37): every operation that writes them shows the write. -/

namespace Sys2Proof.Machine

/-- SET_CHANNEL_MODE leaves the direction and the output latches (R108). -/
theorem setMode_outputs (c : Channel) (cle : Bool) (idx : SensorIndex) :
    (c.setMode cle idx).dir = c.dir ∧ (c.setMode cle idx).pwmCmp = c.pwmCmp ∧
      (c.setMode cle idx).dirOut = c.dirOut := by
  rcases setMode_cases c cle idx with ⟨-, h⟩ | ⟨-, h⟩ <;> rw [h] <;> exact ⟨rfl, rfl, rfl⟩

/-- A write to one channel that keeps its latches keeps the latches of both. -/
theorem latches_setChan {s : State} {ch : ChannelId} {c : Channel}
    (hc : c.latches = (s.chan ch).latches) (ch' : ChannelId) :
    ((s.setChan ch c).chan ch').latches = (s.chan ch').latches := by
  by_cases hch : ch' = ch
  · subst hch
    rw [chan_setChan_same, hc]
  · rw [chan_setChan_other _ _ hch]

/-- Every command shows its writes to the latches (R103 to R115). -/
theorem latchesWritten_exec {i : Instr} {s t : State} (h : exec i s = .next t) :
    LatchesWritten s t := by
  rcases exec_cases h with ⟨-, rfl⟩ | ⟨-, hr⟩ | ⟨x, -, rfl⟩ | ⟨ch, cle, idx, -, rfl⟩ |
    ⟨f, -, rfl, hf⟩ | ⟨-, rfl⟩ | ⟨-, rfl⟩
  · exact latchesWritten_forceStop s
  · rw [execReset_eq] at hr
    cases hr
    exact ⟨_, rfl, fun ch => by cases ch <;> rfl⟩
  · exact latchesWritten_of_kept rfl fun ch => by cases ch <;> rfl
  · have hsel : ∀ ch', ({ s with sel := ch } : State).chan ch' = s.chan ch' := fun ch' => by
      cases ch' <;> rfl
    obtain ⟨-, hcmp, hdir⟩ := setMode_outputs (s.chan ch) cle idx
    refine latchesWritten_of_kept (setChan_history _ ch _) fun ch' => ?_
    rw [latches_setChan _ ch', hsel]
    rw [Channel.latches, hcmp, hdir, hsel, Channel.latches]
  · obtain ⟨-, -, -, -, -, -, hcmp, hdir⟩ := hf (s.chan s.sel)
    rcases writeAddressed_cases s f with ⟨-, h⟩ | ⟨-, h⟩ <;> rw [h]
    · exact latchesWritten_of_kept (setChan_history s _ _)
        (latches_setChan (by rw [Channel.latches, hcmp, hdir, Channel.latches]))
    · exact latchesWritten_of_kept rfl fun ch => rfl
  · exact latchesWritten_of_kept rfl fun ch => by cases ch <;> rfl
  · exact latchesWritten_of_kept rfl fun ch => by cases ch <;> rfl

/-- The watchdog shows its writes to the latches: those of the forced stop (R90). -/
theorem latchesWritten_watchdogTick (s : State) : LatchesWritten s s.watchdogTick := by
  rcases watchdogTick_cases s with ⟨-, h⟩ | ⟨-, -, h⟩ | ⟨-, -, h⟩ <;> rw [h]
  · exact latchesWritten_of_kept rfl fun ch => rfl
  · exact latchesWritten_of_kept rfl fun ch => by cases ch <;> rfl
  · exact (latchesWritten_forceStop s).trans (latchesWritten_emit _ fun ch => rfl)

/-- A protocol error writes no latch (R112). -/
theorem latchesWritten_logMessage (s : State) (P : Params) (code detail : Byte) :
    LatchesWritten s (s.logMessage P code detail) := by
  rcases logMessage_cases s P code detail with ⟨-, h⟩ | ⟨-, h⟩ <;> rw [h] <;>
    exact ⟨_, rfl, fun ch => by cases ch <;> rfl⟩

/-- A reply read writes no latch (R116). -/
theorem latchesWritten_txRead (s : State) : LatchesWritten s s.txRead := by
  rcases txRead_cases s with ⟨b, -, h⟩ | ⟨-, h⟩ <;> rw [h] <;>
    exact ⟨_, rfl, fun ch => by cases ch <;> rfl⟩

/-- Agreeing on the block, two states have the same latches and the same history. -/
theorem SameBlock.latchesWritten {s u : State} (h : SameBlock s u) : LatchesWritten s u :=
  latchesWritten_of_kept h.history fun ch => by rw [h.chan]

/-- Every step shows its writes to the latches (R37). -/
theorem latchesWritten_step {s t : State} (h : step s = .next t) : LatchesWritten s t := by
  cases step_kind h with
  | quiet hc hu => exact hu.latchesWritten
  | report code detail u hc hu ht =>
    exact ht ▸ hu.latchesWritten.trans (latchesWritten_logMessage u _ _ _)
  | read u hi hc hu ht => exact ht ▸ hu.latchesWritten.trans (latchesWritten_txRead u)
  | tick mA mB u hi hc hu ht =>
    obtain ⟨v, hv, hvt⟩ := tick_phases u Config.params mA mB
    rw [ht, hvt]
    exact hu.latchesWritten.trans (hv.latches.trans (latchesWritten_watchdogTick v))
  | commit i u hc hu he =>
    exact hu.latchesWritten.trans
      ((latchesWritten_emit u fun ch => rfl).trans (latchesWritten_exec he))

/-- Settles O38. -/
theorem latchesAreTheLastWritesInTheHistory : Obligations.LatchesAreTheLastWritesInTheHistory :=
  ⟨fun ch => by cases ch <;> rfl, fun _ _ hs h => (latchesWritten_step h).keeps_history hs⟩

end Sys2Proof.Machine
end

section
/-! The queue, the reply and the direction: who writes them (R19, R27, R28). -/

namespace Sys2Proof.Machine

/-- The message queue and the reply of the two states agree. -/
structure SameDiagnostics (s t : State) : Prop where
  msgq : t.msgq = s.msgq
  msgqOvf : t.msgqOvf = s.msgqOvf
  reply : t.reply = s.reply
  replyPtr : t.replyPtr = s.replyPtr

theorem SameBlock.diagnostics {s t : State} (h : SameBlock s t) : SameDiagnostics s t :=
  ⟨h.msgq, h.msgqOvf, h.reply, h.replyPtr⟩

/-- All that a step can do to the queue and the reply. -/
inductive DiagnosticStep (s t : State) : Prop
  | kept (hd : SameDiagnostics s t)
  | reported (code detail : Byte) (hh : Appended s t [.annProtoError code detail])
      (hq : t.msgq = s.msgq ∨
        s.msgq.length < Config.params.msgqDepth ∧ t.msgq = s.msgq ++ [⟨code, detail⟩])
      (hr : t.reply = s.reply) (hp : t.replyPtr = s.replyPtr)
  | byteRead (hi : s.inputs.head? = some .txRead) (hp : s.replyPtr < s.reply.length)
      (ht : t.replyPtr = s.replyPtr + 1) (hr : t.reply = s.reply)
      (hq : t.msgq = s.msgq) (ho : t.msgqOvf = s.msgqOvf)
  | version (hc : s.nextCommit = some .getFirmwareVersion)
      (hr : t.reply = versionBytes Config.params.fwVersion) (hp : t.replyPtr = 0)
      (hq : t.msgq = s.msgq) (ho : t.msgqOvf = s.msgqOvf)
  | drained (hc : s.nextCommit = some .getMessages)
      (hr : t.reply = messageHeader s.msgqOvf s.msgq.length :: messageBytes s.msgq)
      (hp : t.replyPtr = 0) (hq : t.msgq = [])

/-- A protocol error is one event and at most one message (R112). -/
theorem diagnosticStep_logMessage {s u : State} (code detail : Byte) (hu : SameBlock s u) :
    DiagnosticStep s (u.logMessage Config.params code detail) := by
  rcases logMessage_cases u Config.params code detail with ⟨hroom, h⟩ | ⟨-, h⟩ <;> rw [h]
  · exact .reported code detail (by simp [Appended, hu.history])
      (.inr ⟨hu.msgq ▸ hroom, by simp [hu.msgq]⟩) hu.reply hu.replyPtr
  · exact .reported code detail (by simp [Appended, hu.history]) (.inl hu.msgq) hu.reply
      hu.replyPtr

/-- A reply read moves the pointer within the reply, or nothing (R116). -/
theorem diagnosticStep_txRead {s u : State} (hi : s.inputs.head? = some .txRead)
    (hu : SameBlock s u) : DiagnosticStep s u.txRead := by
  rcases txRead_cases u with ⟨b, hb, h⟩ | ⟨-, h⟩ <;> rw [h]
  · obtain ⟨hlt, -⟩ := List.getElem?_eq_some_iff.mp hb
    rw [hu.reply, hu.replyPtr] at hlt
    exact .byteRead hi hlt (by simp [hu.replyPtr]) hu.reply hu.msgq hu.msgqOvf
  · exact .kept ⟨hu.msgq, hu.msgqOvf, hu.reply, hu.replyPtr⟩

/-- Of the commands, only the queries write the reply, and only GET_MESSAGES the queue (R27, R28). -/
theorem diagnosticStep_commit {s u t : State} {i : Instr} (hc : s.nextCommit = some i)
    (hu : SameBlock s u) (he : exec i (u.emit (.annActivity i.opcode.code)) = .next t) :
    DiagnosticStep s t := by
  rcases exec_cases he with ⟨-, rfl⟩ | ⟨-, hr⟩ | ⟨x, -, rfl⟩ | ⟨ch, cle, idx, -, rfl⟩ |
    ⟨f, -, rfl, -⟩ | ⟨rfl, rfl⟩ | ⟨rfl, rfl⟩
  · rw [forceStop_eq]
    exact .kept ⟨hu.msgq, hu.msgqOvf, hu.reply, hu.replyPtr⟩
  · rw [execReset_eq] at hr
    cases hr
    exact .kept ⟨hu.msgq, hu.msgqOvf, hu.reply, hu.replyPtr⟩
  · exact .kept ⟨hu.msgq, hu.msgqOvf, hu.reply, hu.replyPtr⟩
  · exact .kept ⟨by simp [hu.msgq], by simp [hu.msgqOvf], by simp [hu.reply], by simp [hu.replyPtr]⟩
  · rcases writeAddressed_cases (u.emit (.annActivity i.opcode.code)) f with ⟨-, h⟩ | ⟨-, h⟩ <;>
      rw [h]
    · exact .kept
        ⟨by simp [hu.msgq], by simp [hu.msgqOvf], by simp [hu.reply], by simp [hu.replyPtr]⟩
    · exact .kept ⟨hu.msgq, hu.msgqOvf, hu.reply, hu.replyPtr⟩
  · exact .version hc rfl rfl hu.msgq hu.msgqOvf
  · exact .drained hc (by simp [hu.msgq, hu.msgqOvf]) rfl rfl

/-- Every step does to the queue and the reply one of the things that `DiagnosticStep` names. -/
theorem step_diagnostics {s t : State} (h : step s = .next t) : DiagnosticStep s t := by
  cases step_kind h with
  | quiet hc hu => exact .kept hu.diagnostics
  | report code detail u hc hu ht => exact ht ▸ diagnosticStep_logMessage code detail hu
  | read u hi hc hu ht => exact ht ▸ diagnosticStep_txRead hi hu
  | tick mA mB u hi hc hu ht =>
    obtain ⟨-, -, -, -, -, hq, ho, hr, hp⟩ := tick_frame u Config.params mA mB
    rw [ht]
    exact .kept ⟨hq.trans hu.msgq, ho.trans hu.msgqOvf, hr.trans hu.reply, hp.trans hu.replyPtr⟩
  | commit i u hc hu he => exact diagnosticStep_commit hc hu he

/-- The direction has two writers: RESET, and a Tick's evaluation under control (R19). -/
theorem ChannelStep.dir {s t : State} {ch : ChannelId} (h : ChannelStep s t ch) :
    (t.chan ch).dir = (s.chan ch).dir ∨ s.nextCommit = some .reset ∨
    (s.armed = true ∧ (s.chan ch).cl = true ∧ ∃ mA mB, s.inputs.head? = some (.tick mA mB)) := by
  cases h with
  | kept ht => exact .inl (by rw [ht])
  | stopped i hc ht => exact .inl (by rw [ht]; rfl)
  | reset hc ht => exact .inr (.inl hc)
  | mode cle idx hc ha ht =>
    obtain ⟨hdir, -, -⟩ := setMode_outputs (s.chan ch) cle idx
    exact .inl (by rw [ht, hdir])
  | written i hc ha hcl ht =>
    obtain ⟨-, hdir, -⟩ := ht
    exact .inl hdir
  | evaluated mA mB hi he ha =>
    by_cases hctl : s.armed = true ∧ (s.chan ch).cl = true
    · exact .inr (.inr ⟨hctl.1, hctl.2, mA, mB, hi⟩)
    · obtain ⟨hdir, -⟩ := he.uncontrolled hctl
      exact .inl hdir
  | evaluatedThenStopped mA mB c hi he ht =>
    by_cases hctl : s.armed = true ∧ (s.chan ch).cl = true
    · exact .inr (.inr ⟨hctl.1, hctl.2, mA, mB, hi⟩)
    · obtain ⟨hdir, -⟩ := he.uncontrolled hctl
      exact .inl (by rw [ht]; exact hdir)

/-- Settles O59. -/
theorem queueReplyAndDirectionHaveTheirWritersAlone :
    Obligations.QueueReplyAndDirectionHaveTheirWritersAlone := by
  intro s t h
  rw [← and_assoc, ← and_assoc]
  refine ⟨?_, fun ch hne => (step_channel ch h).dir.resolve_left hne⟩
  cases step_diagnostics h with
  | kept hd => simp [hd.msgq, hd.msgqOvf, hd.reply, hd.replyPtr]
  | reported code detail hh hq hr hp =>
    simp only [hr, hp, ne_eq, not_true_eq_false, false_implies, and_true]
    exact fun _ => .inr ⟨code, detail, hh⟩
  | byteRead hi hp ht hr hq ho => simp [hr, hq, ho, hi]
  | version hc hr hp hq ho => simp [hq, ho, hc]
  | drained hc hr hp hq => simp [hc]

end Sys2Proof.Machine
end

section
/-! SET_TARGET, SET_P, SET_I and SET_D (R109, R110): one write, to the channel that `SEL` names. -/

namespace Sys2Proof.Machine

/-- A write to the addressed channel, the channel named: made where it is closed-loop, else nothing
(R22, R25). -/
theorem writeAddressed_eq (s : State) (f : Channel → Channel) : s.writeAddressed f =
    match s.sel, s.chA.cl, s.chB.cl with
    | .a, true, _ => { s with chA := f s.chA }
    | .b, _, true => { s with chB := f s.chB }
    | _, _, _ => s := by
  rcases writeAddressed_cases s f with ⟨hcl, h⟩ | ⟨hcl, h⟩ <;> rw [h] <;>
    cases hsel : s.sel <;> rw [hsel] at hcl
  · rw [chan_a] at hcl
    simp [hcl, hsel]
  · rw [chan_b] at hcl
    cases s.chA.cl <;> simp [hcl, hsel]
  · rw [chan_a] at hcl
    simp [hcl]
  · rw [chan_b] at hcl
    cases s.chA.cl <;> simp [hcl]

/-- Settles O18: each of the four commands is a write to the addressed channel. -/
theorem setCommandsWriteOneRegisterOfTheAddressedChannel :
    Obligations.SetCommandsWriteOneRegisterOfTheAddressedChannel := fun x s =>
  ⟨congrArg Host.Outcome.next (writeAddressed_eq s fun c => { c with target := x }),
    congrArg Host.Outcome.next (writeAddressed_eq s fun c => { c with kp := x }),
    congrArg Host.Outcome.next (writeAddressed_eq s fun c => { c with ki := x }),
    congrArg Host.Outcome.next (writeAddressed_eq s fun c => { c with kd := x })⟩

end Sys2Proof.Machine
end

section
/-! The invariants of R31: they hold at power-on reset, and every step keeps them, the channels', the
receiver's, the diagnostics' and the watchdog's apart. -/

namespace Sys2Proof.Machine

/-! ### The channels (items 1 to 4) -/

/-- The power-on registers of a channel meet the invariants, armed or not (R129). -/
theorem Channel.Inv.of_reset (P : Params) (armed : Bool) : Channel.reset.Inv P armed where
  gated _ := ⟨rfl, rfl⟩
  openLoopPid _ := ⟨rfl, rfl, rfl, rfl, rfl, rfl⟩
  openLoopSensor _ := rfl
  openLoopDuty _ := rfl
  dutyRange := Nat.zero_le _
  latchRange := Nat.zero_le _

section
variable {P : Params} {armed armed' : Bool} {c c' : Channel}

/-- Only a step into the disarmed state asks more of a channel that keeps its registers. -/
theorem Channel.Inv.of_armed (h : c.Inv P armed) (ha : armed' = false → armed = false) :
    c.Inv P armed' :=
  { h with gated := fun h0 => h.gated (ha h0) }

/-- A forced stop meets the invariants of a disarmed block (R76). -/
theorem Channel.Inv.stopped (h : c.Inv P armed) : c.stopped.Inv P armed' where
  gated _ := ⟨rfl, rfl⟩
  openLoopPid hcl := by
    obtain ⟨hkp, hki, hkd, htarget, heprev, -⟩ := h.openLoopPid hcl
    exact ⟨hkp, hki, hkd, htarget, heprev, rfl⟩
  openLoopSensor := h.openLoopSensor
  openLoopDuty _ := rfl
  dutyRange := Nat.zero_le _
  latchRange := Nat.zero_le _

/-- SET_CHANNEL_MODE keeps the invariants: open-loop, it clears what item 2 wants cleared (R108). -/
theorem Channel.Inv.setMode (h : c.Inv P armed) (cle : Bool) (idx : SensorIndex) :
    (c.setMode cle idx).Inv P armed := by
  rcases setMode_cases c cle idx with ⟨hcl, heq⟩ | ⟨-, heq⟩ <;> rw [heq]
  · exact { h with openLoopSensor := fun h0 => by simp [← hcl, show c.cl = false from h0] }
  · exact
      { gated := fun ha => ⟨rfl, (h.gated ha).2⟩
        openLoopPid := fun _ => ⟨rfl, rfl, rfl, rfl, rfl, rfl⟩
        openLoopSensor := fun h0 => by simp [show cle = false from h0]
        openLoopDuty := fun _ => rfl
        dutyRange := Nat.zero_le _
        latchRange := h.latchRange }

/-- Phase 2 of a Tick keeps the invariants (R68 to R74). -/
theorem ChannelEvaluated.inv (he : ChannelEvaluated P armed c c') (h : c.Inv P armed) :
    c'.Inv P armed := by
  have hrange : c'.duty.toNat ≤ P.maxDuty.toNat := by
    rcases he.range with hkept | hle
    · rw [hkept]
      exact h.dutyRange
    · exact hle
  have hopen (h0 : c'.cl = false) : c.cl = false := he.cl ▸ h0
  have hidle (h0 : c'.cl = false) := he.uncontrolled fun ⟨_, h1⟩ => by simp [hopen h0] at h1
  exact
    { gated := fun ha => ⟨he.gated ha, he.pwmCmp.trans (he.gated ha)⟩
      openLoopPid := fun h0 => by
        obtain ⟨hkp, hki, hkd, htarget, heprev, heint⟩ := h.openLoopPid (hopen h0)
        obtain ⟨-, hint, hprev, -⟩ := hidle h0
        rw [he.kp, he.ki, he.kd, he.target, hint, hprev]
        exact ⟨hkp, hki, hkd, htarget, heprev, heint⟩
      openLoopSensor := fun h0 => he.sensor.trans (h.openLoopSensor (hopen h0))
      openLoopDuty := fun h0 => by
        obtain ⟨-, -, -, hkept | hzero⟩ := hidle h0
        · exact hkept.trans (h.openLoopDuty (hopen h0))
        · exact hzero
      dutyRange := hrange
      latchRange := he.pwmCmp ▸ hrange }

end

/-- Whatever a step does to a channel keeps its invariants. -/
theorem ChannelStep.inv {s t : State} {ch : ChannelId} (h : ChannelStep s t ch)
    (hs : (s.chan ch).Inv Config.params s.armed) : (t.chan ch).Inv Config.params t.armed := by
  cases h with
  | kept ht ha =>
    rw [ht]
    exact hs.of_armed ha
  | stopped i hc ht =>
    rw [ht]
    exact hs.stopped
  | reset hc ht =>
    rw [ht]
    exact .of_reset _ _
  | mode cle idx hc ha ht =>
    rw [ht, ha]
    exact hs.setMode cle idx
  | written i hc ha hcl ht =>
    obtain ⟨hduty, -, hcl', -, -, -, hcmp, -⟩ := ht
    rw [ha]
    have hclosed : (t.chan ch).cl ≠ false := by simp [hcl', hcl]
    exact
      { gated := fun h0 => by
          rw [hduty, hcmp]
          exact hs.gated h0
        openLoopPid := fun h0 => absurd h0 hclosed
        openLoopSensor := fun h0 => absurd h0 hclosed
        openLoopDuty := fun h0 => absurd h0 hclosed
        dutyRange := hduty ▸ hs.dutyRange
        latchRange := hcmp ▸ hs.latchRange }
  | evaluated mA mB hi he ha =>
    rw [ha]
    exact he.inv hs
  | evaluatedThenStopped mA mB c hi he ht =>
    rw [ht]
    exact (he.inv hs).stopped

/-! ### The receiver (items 5 and 6) -/

/-- Items 5 and 6 of R31. -/
structure State.ReceiverInv (s : State) : Prop where
  payloadProgress : s.rxState = .payload → ∃ n, payloadLen s.rxOp = some n ∧ s.rxCnt < n
  countOutsidePayload : s.rxState ≠ .payload → s.rxCnt = 0

/-- The invariants of the receiver are about three of its registers. -/
theorem State.ReceiverInv.of_eq {s t : State} (h : s.ReceiverInv) (hst : t.rxState = s.rxState)
    (hop : t.rxOp = s.rxOp) (hcnt : t.rxCnt = s.rxCnt) : t.ReceiverInv where
  payloadProgress := by
    rw [hst, hop, hcnt]
    exact h.payloadProgress
  countOutsidePayload := by
    rw [hst, hcnt]
    exact h.countOutsidePayload

/-- Outside `PAYLOAD` the receiver's invariants ask for the count 0 alone. -/
theorem receiverInv_of_not_payload {s : State} (hst : s.rxState ≠ .payload) (hcnt : s.rxCnt = 0) :
    s.ReceiverInv :=
  ⟨fun h => absurd h hst, fun _ => hcnt⟩

/-- A protocol error leaves the receiver's registers (R112). -/
theorem logMessage_receiverRegisters (s : State) (P : Params) (code detail : Byte) :
    (s.logMessage P code detail).rxState = s.rxState ∧ (s.logMessage P code detail).rxOp = s.rxOp ∧
      (s.logMessage P code detail).rxCnt = s.rxCnt := by
  rcases logMessage_cases s P code detail with ⟨-, h⟩ | ⟨-, h⟩ <;> rw [h] <;> exact ⟨rfl, rfl, rfl⟩

/-- RxByte keeps the receiver's invariants (R95). -/
theorem rxByte_receiverInv {b : Byte} {s t : State} (hs : s.ReceiverInv)
    (h : rxByte b s = .next t) : t.ReceiverInv := by
  rcases rxByte_cases h with ⟨i, buf, cnt, hc, he, hpayload, hidle⟩ |
    ⟨-, ⟨hst, -, rfl⟩ | ⟨op, buf, cnt, o, rfl, ho, hpayload, hidle⟩ | ⟨-, rfl⟩⟩
  · obtain ⟨hst, -, hcnt, -, -, -⟩ := exec_frame he
    refine receiverInv_of_not_payload (by simp [hst]) (hcnt.trans ?_)
    cases hrx : s.rxState with
    | idle => exact (hidle hrx).trans (hs.countOutsidePayload (by simp [hrx]))
    | payload => exact hpayload hrx
    | discard =>
      rw [completes_discard s b hrx] at hc
      cases hc
  · obtain ⟨-, -, hcnt⟩ := logMessage_receiverRegisters s Config.params unknownOpcodeCode b
    exact receiverInv_of_not_payload (by simp) (hcnt.trans (hs.countOutsidePayload (by simp [hst])))
  · have hcnt : cnt < o.len := by
      cases hrx : s.rxState with
      | idle => exact hidle hrx
      | payload =>
        obtain ⟨rfl, hstays⟩ := hpayload hrx
        obtain ⟨n, hlen, hlt⟩ := hs.payloadProgress hrx
        obtain rfl : o.len = n := by simpa [payloadLen, ho] using hlen
        exact hstays hlt
      | discard =>
        have hsame : s.rxState = .payload := by
          have hkept : rxByte b s = .next s := by simp [rxByte, hrx]
          rw [Host.Outcome.next.inj (hkept.symm.trans h)]
        simp [hrx] at hsame
    exact ⟨fun _ => ⟨o.len, by simp [payloadLen, ho], hcnt⟩, fun hn => absurd rfl hn⟩
  · exact hs

/-- RxEnd ends every frame (R96). -/
theorem rxEnd_receiverInv {s : State} (hs : s.ReceiverInv) : s.rxEnd.ReceiverInv := by
  unfold State.rxEnd
  split
  · exact hs
  · exact receiverInv_of_not_payload (by simp) rfl
  · next hst => exact receiverInv_of_not_payload (by simp) (hs.countOutsidePayload (by simp [hst]))

/-- Every step keeps the receiver's invariants (R95, R96). -/
theorem step_receiverInv {s t : State} (hs : s.ReceiverInv) (h : step s = .next t) :
    t.ReceiverInv := by
  have taken (rest : List Input) : ({ s with inputs := rest } : State).ReceiverInv :=
    hs.of_eq rfl rfl rfl
  rcases step_cases h with ⟨-, rfl⟩ | ⟨mA, mB, rest, -, rfl⟩ | ⟨b, rest, -, hb⟩ |
    ⟨rest, -, rfl⟩ | ⟨rest, -, rfl⟩
  · exact hs
  · obtain ⟨-, hst, hop, hcnt, -⟩ := tick_frame { s with inputs := rest } Config.params mA mB
    exact hs.of_eq hst hop hcnt
  · exact rxByte_receiverInv (taken rest) hb
  · exact rxEnd_receiverInv (taken rest)
  · rcases txRead_cases { s with inputs := rest } with ⟨b, -, h⟩ | ⟨-, h⟩ <;> rw [h] <;>
      exact hs.of_eq rfl rfl rfl

/-! ### The queue and the reply (item 7, R28) -/

/-- Item 7 of R31, with the bound of the reply buffer (R28). -/
structure State.DiagnosticInv (s : State) : Prop where
  queueBound : s.msgq.length ≤ Config.params.msgqDepth
  replyPointer : s.replyPtr ≤ s.reply.length
  replyBound : s.reply.length ≤ 1 + 2 * Config.params.msgqDepth

/-- A message is two bytes of the reply (R115). -/
theorem length_messageBytes (l : List Message) : (messageBytes l).length = 2 * l.length := by
  induction l with
  | nil => rfl
  | cons m l ih =>
    simp only [messageBytes, List.length_cons, ih]
    omega

/-- Whatever a step does to the queue and the reply keeps them within their bounds. -/
theorem DiagnosticStep.inv {s t : State} (h : DiagnosticStep s t) (hs : s.DiagnosticInv) :
    t.DiagnosticInv := by
  obtain ⟨hqueue, hptr, hreply⟩ := hs
  obtain ⟨hdepth, -⟩ := msgqDepth_range Config.params
  cases h with
  | kept hd =>
    obtain ⟨hq, -, hr, hp⟩ := hd
    exact ⟨hq ▸ hqueue, by rw [hp, hr]; exact hptr, hr ▸ hreply⟩
  | reported code detail hh hq hr hp =>
    refine ⟨?_, by rw [hp, hr]; exact hptr, hr ▸ hreply⟩
    rcases hq with hq | ⟨hroom, hq⟩
    · exact hq ▸ hqueue
    · simpa [hq] using hroom
  | byteRead hi hlt ht hr hq ho => exact ⟨hq ▸ hqueue, by rw [ht, hr]; exact hlt, hr ▸ hreply⟩
  | version hc hr hp hq ho =>
    refine ⟨hq ▸ hqueue, by simp [hp], ?_⟩
    rw [hr, show (versionBytes Config.params.fwVersion).length = 2 from rfl]
    omega
  | drained hc hr hp hq =>
    refine ⟨by simp [hq], by simp [hp], ?_⟩
    rw [hr, List.length_cons, length_messageBytes]
    omega

/-! ### The invariants together -/

/-- Settles O35. -/
theorem powerOnStateMeetsTheInvariants : Obligations.PowerOnStateMeetsTheInvariants where
  chanA := .of_reset _ _
  chanB := .of_reset _ _
  payloadProgress h := by cases h
  countOutsidePayload _ := rfl
  queueBound := Nat.zero_le _
  replyPointer := Nat.zero_le _
  replyBound := Nat.zero_le _
  disarmedCount _ := rfl

/-- A step into or within the disarmed state leaves the count 0 (R91). -/
theorem WatchdogStep.disarmedCount {s t : State} (h : WatchdogStep s t)
    (hs : s.armed = false → s.wdCount = 0#16) (ht : t.armed = false) : t.wdCount = 0#16 := by
  cases h with
  | kept ha hw => exact hw.trans (hs (ha ▸ ht))
  | armed x hc ha => simp [ha] at ht
  | disarmed ha hw hc => exact hw
  | counted _ ha => simp [ha] at ht
  | expired mA mB hi h0 ha hw => exact hw

/-- Settles O36: a step keeps the invariants of the channels, the receiver, the diagnostics and the
watchdog each. -/
theorem everyStepKeepsTheInvariants : Obligations.EveryStepKeepsTheInvariants := by
  intro s t hs h
  have hrx : t.ReceiverInv := step_receiverInv ⟨hs.payloadProgress, hs.countOutsidePayload⟩ h
  have hdiag : t.DiagnosticInv :=
    (step_diagnostics h).inv ⟨hs.queueBound, hs.replyPointer, hs.replyBound⟩
  exact
    { chanA := (step_channel .a h).inv hs.chanA
      chanB := (step_channel .b h).inv hs.chanB
      payloadProgress := hrx.payloadProgress
      countOutsidePayload := hrx.countOutsidePayload
      queueBound := hdiag.queueBound
      replyPointer := hdiag.replyPointer
      replyBound := hdiag.replyBound
      disarmedCount := (step_watchdog h).disarmedCount hs.disarmedCount }

end Sys2Proof.Machine
end

section
/-! A Tick neither reads nor writes the receiver registers (R40, R63): each part of it gives the same
on a block with other receiver registers, and leaves those as they are. -/

namespace Sys2Proof.Machine

/-- The block with the four receiver registers (R26) as given. -/
def State.withReceiver (s : State) (st : RxState) (op : Byte) (cnt : Nat) (buf : Vector Byte 8) :
    State :=
  { s with rxState := st, rxOp := op, rxCnt := cnt, rxBuf := buf }

section withReceiver
variable (s : State) (st : RxState) (op : Byte) (cnt : Nat) (buf : Vector Byte 8)

@[simp] theorem withReceiver_armed : (s.withReceiver st op cnt buf).armed = s.armed := rfl
@[simp] theorem withReceiver_wdCount : (s.withReceiver st op cnt buf).wdCount = s.wdCount := rfl
@[simp] theorem withReceiver_nanDraws : (s.withReceiver st op cnt buf).nanDraws = s.nanDraws := rfl

@[simp] theorem withReceiver_chan (ch : ChannelId) :
    (s.withReceiver st op cnt buf).chan ch = s.chan ch := by cases ch <;> rfl

@[simp] theorem setChan_withReceiver (ch : ChannelId) (c : Channel) :
    (s.withReceiver st op cnt buf).setChan ch c = (s.setChan ch c).withReceiver st op cnt buf := by
  cases ch <;> rfl

@[simp] theorem emit_withReceiver (e : Event) :
    (s.withReceiver st op cnt buf).emit e = (s.emit e).withReceiver st op cnt buf := rfl

/-- WriteActuation is blind to the receiver (R74). -/
@[simp] theorem writeActuation_withReceiver (ch : ChannelId) :
    (s.withReceiver st op cnt buf).writeActuation ch =
      (s.writeActuation ch).withReceiver st op cnt buf := by
  simp [State.writeActuation]

/-- ForceStop is blind to the receiver (R76). -/
@[simp] theorem forceStop_withReceiver :
    (s.withReceiver st op cnt buf).forceStop = s.forceStop.withReceiver st op cnt buf := by
  rw [forceStop_eq, forceStop_eq]
  rfl

/-- The PID step is blind to the receiver (R78). -/
theorem pidStep_withReceiver (ch : ChannelId) (x : F64) :
    (s.withReceiver st op cnt buf).pidStep ch x =
      ((s.pidStep ch x).1, (s.pidStep ch x).2.withReceiver st op cnt buf) := by
  cases ch <;> rfl

/-- The correction is blind to the receiver, for a sentinel and for a number (R70, R71). -/
theorem closedLoopCorrection_withReceiver (ch : ChannelId) (m : Measurement) :
    (s.withReceiver st op cnt buf).closedLoopCorrection ch m =
      ((s.closedLoopCorrection ch m).1,
        (s.closedLoopCorrection ch m).2.withReceiver st op cnt buf) := by
  have sentinel (h : m = .invalid ∨ ∃ x, m = .value x ∧ isNan x = true) :
      (s.withReceiver st op cnt buf).closedLoopCorrection ch m =
        ((s.closedLoopCorrection ch m).1,
          (s.closedLoopCorrection ch m).2.withReceiver st op cnt buf) := by
    simp [closedLoopCorrection_sentinel _ ch m h]
  cases m with
  | invalid => exact sentinel (.inl rfl)
  | value x =>
    cases hx : isNan x with
    | true => exact sentinel (.inr ⟨x, rfl, hx⟩)
    | false => simp [closedLoopCorrection_value _ ch x hx, pidStep_withReceiver]

/-- Closed-loop evaluation is blind to the receiver (R68). -/
theorem closedLoop_withReceiver (P : Params) (ch : ChannelId) (m : Measurement) :
    (s.withReceiver st op cnt buf).closedLoop P ch m =
      (s.closedLoop P ch m).withReceiver st op cnt buf := by
  simp [State.closedLoop, closedLoopCorrection_withReceiver]

/-- Phase 2 is blind to the receiver, whether the channel is gated, open-loop or closed-loop (R68). -/
theorem evaluate_withReceiver (P : Params) (ch : ChannelId) (m : Measurement) :
    (s.withReceiver st op cnt buf).evaluate P ch m =
      (s.evaluate P ch m).withReceiver st op cnt buf := by
  cases harmed : s.armed with
  | false =>
    rw [evaluate_disarmed s P ch m harmed, evaluate_disarmed _ P ch m (by simpa using harmed)]
    simp
  | true =>
    cases hcl : (s.chan ch).cl with
    | false =>
      rw [evaluate_openLoop s P ch m harmed hcl,
        evaluate_openLoop _ P ch m (by simpa using harmed) (by simpa using hcl)]
      simp
    | true =>
      rw [evaluate_closedLoop s P ch m harmed hcl,
        evaluate_closedLoop _ P ch m (by simpa using harmed) (by simpa using hcl),
        closedLoop_withReceiver]
      simp

/-- Phase 3 is blind to the receiver (R90). -/
theorem watchdogTick_withReceiver :
    (s.withReceiver st op cnt buf).watchdogTick = s.watchdogTick.withReceiver st op cnt buf := by
  simp only [State.watchdogTick, withReceiver_armed, withReceiver_wdCount, forceStop_withReceiver,
    emit_withReceiver]
  split_ifs <;> rfl

end withReceiver

/-- Settles O29: the three phases are blind to the receiver each. -/
theorem tickIsBlindToTheReceiver : Obligations.TickIsBlindToTheReceiver := by
  intro s P mA mB st op cnt buf
  change (s.withReceiver st op cnt buf).tick P mA mB = (s.tick P mA mB).withReceiver st op cnt buf
  simp only [State.tick, emit_withReceiver, evaluate_withReceiver, watchdogTick_withReceiver]

end Sys2Proof.Machine
end

section
/-! Every input completes (R46, R99), is taken alone and in its turn (R41), and what it does is only
appended to the history (R37). -/

namespace Sys2Proof.Machine

/-! ### Completion -/

/-- A commit completes (R98). -/
theorem commit_isNext (i : Instr) (s : State) : ∃ t, commit i s = .next t := exec_isNext i _

/-- RxByte completes where the receiver's invariants hold: they leave no `PAYLOAD` state in which the
opcode is undefined or the staging buffer is full (R31 item 5, R95). -/
theorem rxByte_isNext (b : Byte) {s : State} (hs : s.ReceiverInv) : ∃ t, rxByte b s = .next t := by
  cases hst : s.rxState with
  | idle =>
    rw [show rxByte b s = rxByteIdle b s by simp [rxByte, hst]]
    rcases rxByteIdle_cases b s with ⟨-, h⟩ | ⟨o, -, -, h⟩ | ⟨o, -, -, h⟩ <;> rw [h]
    · exact ⟨_, rfl⟩
    · exact commit_isNext _ _
    · exact ⟨_, rfl⟩
  | payload =>
    obtain ⟨n, hlen, hcnt⟩ := hs.payloadProgress hst
    obtain ⟨o, ho, rfl⟩ := Option.map_eq_some_iff.mp hlen
    have hroom : s.rxCnt < 8 := hcnt.trans_le (opcode_len_le o)
    rw [show rxByte b s = rxBytePayload b s by simp [rxByte, hst]]
    rcases rxBytePayload_cases b s with ⟨hnone, -⟩ | ⟨-, -, hfull, -⟩ | ⟨_, _, -, -, h⟩ |
      ⟨_, _, -, -, h⟩
    · simp [ho] at hnone
    · omega
    · exact h ▸ commit_isNext _ _
    · exact ⟨_, h⟩
  | discard => exact ⟨s, by simp [rxByte, hst]⟩

/-- Settles O37: only RxByte could fail, and the receiver's invariants rule that out. -/
theorem everyInputHasItsTransition : Obligations.EveryInputHasItsTransition := by
  intro s hs
  cases hi : s.inputs with
  | nil => exact ⟨s, step_waits hi⟩
  | cons i rest =>
    rw [step_input hi]
    cases i with
    | rxByte b => exact rxByte_isNext b ⟨hs.payloadProgress, hs.countOutsidePayload⟩
    | tick _ _ | rxEnd | txRead => exact ⟨_, rfl⟩

/-! ### No transition touches the inputs to come -/

/-- LogMessage leaves the inputs (R112). -/
@[simp] theorem logMessage_inputs (s : State) (P : Params) (code detail : Byte) :
    (s.logMessage P code detail).inputs = s.inputs := by
  rcases logMessage_cases s P code detail with ⟨-, h⟩ | ⟨-, h⟩ <;> rw [h]

/-- The watchdog leaves the inputs (R90). -/
@[simp] theorem watchdogTick_inputs (s : State) : s.watchdogTick.inputs = s.inputs := by
  rcases watchdogTick_cases s with ⟨-, h⟩ | ⟨-, -, h⟩ | ⟨-, -, h⟩ <;> rw [h]
  simp [forceStop_eq]

/-- Phase 2 leaves the inputs (R68). -/
@[simp] theorem evaluate_inputs (s : State) (P : Params) (ch : ChannelId) (m : Measurement) :
    (s.evaluate P ch m).inputs = s.inputs := by
  obtain ⟨-, -, -, -, -, -, -, -, -, -, -, -, hinputs⟩ := evaluate_frame s P ch m
  exact hinputs

/-- A Tick leaves the inputs (R63). -/
@[simp] theorem tick_inputs (s : State) (P : Params) (mA mB : Measurement) :
    (s.tick P mA mB).inputs = s.inputs := by simp [State.tick]

/-- RxEnd leaves the inputs (R96). -/
@[simp] theorem rxEnd_inputs (s : State) : s.rxEnd.inputs = s.inputs := by
  unfold State.rxEnd
  split <;> simp

/-- A reply read leaves the inputs (R116). -/
@[simp] theorem txRead_inputs (s : State) : s.txRead.inputs = s.inputs := by
  rcases txRead_cases s with ⟨b, -, h⟩ | ⟨-, h⟩ <;> rw [h]

/-- RxByte leaves the inputs, commit included (R95). -/
theorem rxByte_inputs {b : Byte} {s t : State} (h : rxByte b s = .next t) : t.inputs = s.inputs := by
  rcases rxByte_cases h with ⟨i, buf, cnt, -, he, -, -⟩ |
    ⟨-, ⟨-, -, rfl⟩ | ⟨op, buf, cnt, o, rfl, -, -, -⟩ | ⟨-, rfl⟩⟩
  · obtain ⟨-, -, -, -, hinputs, -⟩ := exec_frame he
    exact hinputs
  · simp
  · rfl
  · rfl

/-- A step takes the first input and no other (R41, R42). -/
theorem step_inputs {s t : State} (h : step s = .next t) : t.inputs = s.inputs.tail := by
  rcases step_cases h with ⟨hi, rfl⟩ | ⟨mA, mB, rest, hi, rfl⟩ | ⟨b, rest, hi, hb⟩ |
    ⟨rest, hi, rfl⟩ | ⟨rest, hi, rfl⟩
  · simp [hi]
  · simp [hi]
  · simp [hi, rxByte_inputs hb]
  · simp [hi]
  · simp [hi]

/-- Settles O39: a step that shows its writes to the latches in the history has appended to it. -/
theorem eachStepTakesOneInputAndOnlyAddsEvents :
    Obligations.EachStepTakesOneInputAndOnlyAddsEvents := by
  intro s t h
  obtain ⟨l, happended, -⟩ := latchesWritten_step h
  exact ⟨step_inputs h, l, happended⟩

end Sys2Proof.Machine
end

section
/-! The decoder and the encoder invert each other (R48 to R57): field by field, then frame by frame,
and from that the words and the opcode table written out in the spec. -/

namespace Sys2Proof

/-! ### Payload fields -/

/-- The two bytes of a `u16_le` (R38). -/
theorem bytes_u16le (p0 p1 : Byte) :
    [(u16le p0 p1).extractLsb' 0 8, (u16le p0 p1).extractLsb' 8 8] = [p0, p1] := by
  simp only [u16le, List.cons.injEq, and_true]
  constructor <;> (ext i hi; simp; grind)

/-- The eight bytes of an `f64_le` (R38). -/
theorem f64Bytes_f64le (p0 p1 p2 p3 p4 p5 p6 p7 : Byte) :
    f64Bytes (f64le p0 p1 p2 p3 p4 p5 p6 p7) = [p0, p1, p2, p3, p4, p5, p6, p7] := by
  simp only [f64Bytes, byteOf, f64le, List.cons.injEq, and_true]
  refine ⟨?_, ?_, ?_, ?_, ?_, ?_, ?_, ?_⟩ <;> (ext i hi; simp; grind)

/-- The channel-select bit of the channel a bit names (R52). -/
theorem bit_channelOfBit (b : Bool) : (channelOfBit b).bit = b := by cases b <;> rfl

/-- The mode byte of the fields read from a byte is the byte: the three fields are all of its bits
(R52). -/
theorem payload_modeOfByte (p0 : Byte) : (modeOfByte p0).payload = [p0] := by
  simp only [modeOfByte, Instr.payload, modeByte, bit_channelOfBit, List.cons.injEq, and_true]
  ext i hi
  simp
  grind

/-! ### The payload of an instruction and the instruction of a payload -/

/-- An instruction's operands, laid out as payload bytes and assembled again, are the operands (R50 to
R54). -/
theorem instr_payload (i : Instr) : i.opcode.instr (fun j => i.payload.getD j 0x00#8) = i := by
  cases i with
  | stop | reset | pause | getFirmwareVersion | getMessages => rfl
  | go t => exact congrArg Instr.go (u16le_bytes t)
  | setChannelMode ch cle idx => exact modeOfByte_modeByte ch cle idx
  | setTarget x => exact congrArg Instr.setTarget (f64le_bytes x)
  | setP x => exact congrArg Instr.setP (f64le_bytes x)
  | setI x => exact congrArg Instr.setI (f64le_bytes x)
  | setD x => exact congrArg Instr.setD (f64le_bytes x)

/-- Payload bytes, assembled into operands and laid out again, are the bytes below `LEN`: no bit of them
is ignored (R52, R57). -/
theorem payload_instr (o : Opcode) (p : Nat → Byte) :
    (o.instr p).payload = (List.range o.len).map p := by
  cases o with
  | stop | reset | pause | getFirmwareVersion | getMessages => rfl
  | go => exact bytes_u16le _ _
  | setChannelMode => exact payload_modeOfByte _
  | setTarget | setP | setI | setD => exact f64Bytes_f64le _ _ _ _ _ _ _ _

/-- Reading the first `n` bytes one at a time gives the first `n` bytes. -/
theorem map_getD_range {l : List Byte} {n : Nat} (h : n ≤ l.length) :
    (List.range n).map (fun j => l.getD j 0x00#8) = l.take n := by
  refine List.ext_getElem (by simp [h]) fun j hj _ => ?_
  have hjl : j < l.length := by simp only [List.length_map, List.length_range] at hj; omega
  simp [hjl]

/-! ### Frames -/

/-- The decoder answers an instruction exactly where the opcode is defined and at least `LEN` bytes
follow it (R48, R96). -/
theorem decode_ok_iff {op : Byte} {l rest : List Byte} {i : Instr} :
    decode (op :: l) = .ok (i, rest) ↔
      ∃ o, opcodeOf op = some o ∧ o.len ≤ l.length ∧
        i = o.instr (fun j => l.getD j 0x00#8) ∧ rest = l.drop o.len := by
  rw [decode_cons]
  cases opcodeOf op with
  | none => simp
  | some o =>
    by_cases h : l.length < o.len
    · simp [h]
    · simp [h, Nat.le_of_not_lt h, eq_comm]

/-- Settles O1: the payload's bytes are the ones below `LEN`, so the bytes after them are not read, and
assembling them gives the operands back. -/
theorem decodeOfEncodeIsTheInstruction : Obligations.DecodeOfEncodeIsTheInstruction := by
  intro i rest
  have hlen := length_payload i
  refine decode_ok_iff.mpr ⟨i.opcode, opcodeOf_code _, by simp [hlen], ?_, by simp [← hlen]⟩
  calc i
    _ = i.opcode.instr (fun j => i.payload.getD j 0x00#8) := (instr_payload i).symm
    _ = i.opcode.instr (fun j => (i.payload ++ rest).getD j 0x00#8) :=
      instr_congr _ _ _ fun j hj => (List.getD_append _ _ _ _ (hlen ▸ hj)).symm

/-- Settles O2: encoding what was assembled from the first `LEN` bytes gives those bytes, and the rest
is what stands after them. -/
theorem decodedBytesAreTheFrame : Obligations.DecodedBytesAreTheFrame := by
  intro bytes i rest h
  cases bytes with
  | nil => cases h
  | cons op l =>
    obtain ⟨o, hop, hlen, rfl, rfl⟩ := decode_ok_iff.mp h
    have hpayload : (o.instr fun j => l.getD j 0x00#8).payload = l.take o.len :=
      (payload_instr o _).trans (map_getD_range hlen)
    rw [encode, opcode_instr, ← eq_code_of_opcodeOf hop, hpayload, List.cons_append,
      List.take_append_drop]

/-! ### The opcode table -/

/-- The opcode column of R49's table. -/
def definedOpcodes : List Byte :=
  [0x00#8, 0x01#8, 0x02#8, 0x03#8, 0x10#8, 0x20#8, 0x21#8, 0x22#8, 0x23#8, 0x40#8, 0x41#8]

/-- A byte is unknown exactly where it is none of the eleven (R56, R57). -/
theorem opcodeOf_eq_none_iff (b : Byte) : opcodeOf b = none ↔ b ∉ definedOpcodes := by
  have hknown : ∀ c ∈ definedOpcodes, opcodeOf c ≠ none := by decide
  have hcode : ∀ o : Opcode, o.code ∈ definedOpcodes := fun o => by cases o <;> decide
  constructor
  · exact fun h hb => hknown b hb h
  · refine fun hb => Option.eq_none_iff_forall_ne_some.mpr fun o ho => hb ?_
    exact eq_code_of_opcodeOf ho ▸ hcode o

/-- A row of R49's table: an opcode's byte has the opcode's name and its payload length. -/
theorem opcodeOf_payloadLen_code (o : Opcode) :
    opcodeOf o.code = some o ∧ payloadLen o.code = some o.len := by
  simp [payloadLen, opcodeOf_code]

/-- Settles O3: eleven rows, and no byte outside them. -/
theorem payloadLengthsAreTheTable : Obligations.PayloadLengthsAreTheTable := by
  refine ⟨opcodeOf_payloadLen_code .stop, opcodeOf_payloadLen_code .reset,
    opcodeOf_payloadLen_code .pause, opcodeOf_payloadLen_code .go,
    opcodeOf_payloadLen_code .setChannelMode, opcodeOf_payloadLen_code .setTarget,
    opcodeOf_payloadLen_code .setP, opcodeOf_payloadLen_code .setI, opcodeOf_payloadLen_code .setD,
    opcodeOf_payloadLen_code .getFirmwareVersion, opcodeOf_payloadLen_code .getMessages,
    fun b hb => ?_⟩
  have hnone := (opcodeOf_eq_none_iff b).mpr hb
  exact ⟨hnone, by rw [payloadLen, hnone]; rfl⟩

/-- The decoder answers that the opcode is unknown exactly where the byte is no opcode (R57). -/
theorem decode_unknownOpcode_iff (b : Byte) (rest : List Byte) :
    decode (b :: rest) = .error (.unknownOpcode b) ↔ opcodeOf b = none := by
  rw [decode_cons]
  cases opcodeOf b with
  | none => simp
  | some o => by_cases h : rest.length < o.len <;> simp [h]

/-- Settles O4. -/
theorem unknownOpcodesAreRefusedByName : Obligations.UnknownOpcodesAreRefusedByName := fun b rest =>
  (decode_unknownOpcode_iff b rest).trans (opcodeOf_eq_none_iff b)

/-! ### Table words -/

/-- A table word whose bytes begin with the frame of an instruction decodes to it. -/
theorem decodeTableWord_of_prefix {nbits w : Nat} {i : Instr}
    (h : encode i <+: tableBytes nbits w) : decodeTableWord nbits w = some i := by
  obtain ⟨rest, hrest⟩ := h
  rw [decodeTableWord, ← hrest, decodeOfEncodeIsTheInstruction i rest]

/-- Settles O5: each word begins with the frame of its instruction. -/
theorem specWordsDecodeToTheirInstructions : Obligations.SpecWordsDecodeToTheirInstructions := by
  refine ⟨?_, ?_, ?_, ?_, ?_, ?_, ?_, ?_⟩ <;> exact decodeTableWord_of_prefix (by decide)

end Sys2Proof
end

section
/-! What becomes of an unknown opcode in `IDLE` (R57, R95, R112), and the bytes that
GET_FIRMWARE_VERSION replies (R114). -/

namespace Sys2Proof.Machine

/-- The step that takes an unknown opcode in `IDLE` logs it and goes to `DISCARD` (R95). -/
theorem step_rxByte_unknown {s : State} {b : Byte} {rest : List Input}
    (hi : s.inputs = .rxByte b :: rest) (hidle : s.rxState = .idle) (hb : opcodeOf b = none) :
    step s = .next
      { State.logMessage { s with inputs := rest } Config.params unknownOpcodeCode b with
        rxState := .discard } := by
  simp [step_input hi, accept, rxByte, hidle, rxByteIdle, hb]

/-- Settles O9: what LogMessage does depends on the room in the queue alone. -/
theorem unknownOpcodeIsLoggedAndDiscarded : Obligations.UnknownOpcodeIsLoggedAndDiscarded := by
  intro s b rest hi hidle hb
  rw [step_rxByte_unknown hi hidle hb]
  split_ifs with hroom
  · rw [logMessage_room { s with inputs := rest } _ _ _ hroom]
    rfl
  · rw [logMessage_full { s with inputs := rest } _ _ _ hroom]
    rfl

/-- The version's bytes as numbers (R114). -/
theorem versionBytes_eq (v : Half) :
    versionBytes v = [BitVec.ofNat 8 (v.toNat % 256), BitVec.ofNat 8 (v.toNat / 256)] := by
  have hlow : v.extractLsb' 0 8 = BitVec.ofNat 8 (v.toNat % 256) := by
    apply BitVec.eq_of_toNat_eq; simp
  have hhigh : v.extractLsb' 8 8 = BitVec.ofNat 8 (v.toNat / 256) := by
    apply BitVec.eq_of_toNat_eq; simp [Nat.shiftRight_eq_div_pow]
  rw [versionBytes, hlow, hhigh]

/-- Settles O19: the reply is the version's two bytes. -/
theorem firmwareVersionIsRepliedLowByteFirst :
    Obligations.FirmwareVersionIsRepliedLowByteFirst := by
  intro s
  rw [← versionBytes_eq]
  rfl

end Sys2Proof.Machine
end

section
/-! The Tick as a whole: what phases 1 and 2 leave, whichever channel is asked about, what the watchdog
makes of it, and the obligations on both (R63, R68, R90). -/

namespace Sys2Proof.Machine

/-! ### The watchdog, by its count -/

/-- Short of expiry the watchdog counts down where the block is armed, and touches nothing else (R90). -/
theorem watchdogTick_shortOfExpiry {s : State} (h : ¬ (s.armed = true ∧ s.wdCount = 0#16)) :
    s.watchdogTick =
      { s with wdCount := if s.armed = true then s.wdCount - 1#16 else s.wdCount } := by
  rcases watchdogTick_cases s with ⟨ha, ht⟩ | ⟨ha, -, ht⟩ | ⟨ha, hw, -⟩
  · rw [ht, if_neg (by simp [ha])]
  · rw [ht, if_pos ha]
  · exact absurd ⟨ha, hw⟩ h

/-- A block that the watchdog has stopped: both channels stopped, disarmed, and the three events of the
stop in the history (R76, R90). -/
def State.expired (s : State) : State :=
  { s with
    chA := s.chA.stopped
    chB := s.chB.stopped
    armed := false
    wdCount := 0#16
    history := s.history ++
      [.pwmWrite .a 0#16 s.chA.dirOut.bit, .pwmWrite .b 0#16 s.chB.dirOut.bit, .annExpired] }

/-- On expiry the watchdog forces a stop and says so (R90). -/
theorem watchdogTick_expiry {s : State} (ha : s.armed = true) (hw : s.wdCount = 0#16) :
    s.watchdogTick = s.expired := by
  rw [State.watchdogTick, if_pos ha, if_pos hw, forceStop_eq]
  simp [State.emit, State.expired, Channel.stopped]

theorem expired_chan (s : State) (ch : ChannelId) : s.expired.chan ch = (s.chan ch).stopped := by
  cases ch <;> rfl

/-- The stop is appended to the history, and asks for no measurement (R76). -/
theorem expired_history (s : State) :
    ∃ stop, s.expired.history = s.history ++ stop ∧ ∀ ch i x, .measRead ch i x ∉ stop :=
  ⟨_, rfl, fun ch i x => by simp⟩

theorem chan_wdCount (s : State) (k : Half) (ch : ChannelId) :
    ({ s with wdCount := k } : State).chan ch = s.chan ch := by cases ch <;> rfl

/-- Counting down from a count that is not 0 is counting down by one. -/
theorem toNat_sub_one_add_one {n : Half} (h : n ≠ 0#16) : (n - 1#16).toNat + 1 = n.toNat := by
  bv_omega

/-! ### The state that the watchdog finds -/

/-- What a Tick shows of a channel in phase 2: the measurement where it asks for one, then the write of
the latches, with the duty and the direction that `p` holds (R70, R74). -/
def phaseTwoEvents (s p : State) (ch : ChannelId) (m : Measurement) : List Event :=
  measured ch s.armed (s.chan ch) m ++ [.pwmWrite ch (p.chan ch).duty (p.chan ch).dir.bit]

/-- `p` is what phases 1 and 2 make of `s` in a Tick after which the inputs `rest` are left (R63). -/
structure BeforeWatchdog (s : State) (mA mB : Measurement) (rest : List Input) (p : State) :
    Prop where
  /-- Phase 2 computes four registers (R68 to R72, R78). -/
  computes : ∀ ch, EvaluatesTo Config.params s.armed (s.chan ch) (answerTo ch mA mB)
    (p.chan ch).duty (p.chan ch).dir (p.chan ch).eint (p.chan ch).eprev
  /-- The latches are written with two of them, and the channel's other registers stay (R68, R74). -/
  chan : ∀ ch, p.chan ch =
    { s.chan ch with
      duty := (p.chan ch).duty
      dir := (p.chan ch).dir
      eint := (p.chan ch).eint
      eprev := (p.chan ch).eprev
      pwmCmp := (p.chan ch).duty
      dirOut := (p.chan ch).dir }
  armed : p.armed = s.armed
  frame : TickFrame s p
  inputs : p.inputs = rest
  history : p.history = s.history ++
    (.annRefresh :: (phaseTwoEvents s p .a mA ++ phaseTwoEvents s p .b mB))

/-- A Tick is the watchdog run on what phases 1 and 2 leave, and they leave the same whatever the
watchdog counts (R63). -/
theorem step_tick {s : State} {mA mB : Measurement} {rest : List Input}
    (hi : s.inputs = .tick mA mB :: rest) :
    ∃ p, BeforeWatchdog s mA mB rest p ∧
      ∀ k : Half,
        step { s with wdCount := k } = .next (State.watchdogTick { p with wdCount := k }) := by
  obtain ⟨dutyA, dirA, eintA, eprevA, dutyB, dirB, eintB, eprevB, draws, hA, hB, htick⟩ :=
    tick_result { s with inputs := rest } Config.params mA mB
  refine ⟨{ s with
    chA := { s.chA with
      duty := dutyA, dir := dirA, eint := eintA, eprev := eprevA, pwmCmp := dutyA, dirOut := dirA }
    chB := { s.chB with
      duty := dutyB, dir := dirB, eint := eintB, eprev := eprevB, pwmCmp := dutyB, dirOut := dirB }
    inputs := rest
    history := s.history ++ (.annRefresh ::
      (measured .a s.armed s.chA mA ++ [.pwmWrite .a dutyA dirA.bit] ++
        measured .b s.armed s.chB mB ++ [.pwmWrite .b dutyB dirB.bit]))
    nanDraws := draws },
    ⟨fun ch => ?_, fun ch => ?_, rfl, ⟨rfl, rfl, rfl, rfl, rfl, rfl, rfl, rfl, rfl⟩, rfl, ?_⟩,
    fun k => ?_⟩
  · cases ch with
    | a => exact hA
    | b => exact hB
  · cases ch <;> rfl
  · simp [phaseTwoEvents]
  · rw [step_input (by exact hi)]
    exact congrArg Host.Outcome.next (htick k)

/-- A Tick is phases 1 and 2, which leave the same whatever the watchdog counts, with the count one less
where the block is armed and short of expiry, and with the stop where it expires (R63, R90). -/
theorem step_tick_cases {s : State} {mA mB : Measurement} {rest : List Input}
    (hi : s.inputs = .tick mA mB :: rest) :
    ∃ p, BeforeWatchdog s mA mB rest p ∧
      (∀ k : Half, ¬ (s.armed = true ∧ k = 0#16) → step { s with wdCount := k } =
        .next { p with wdCount := if s.armed = true then k - 1#16 else k }) ∧
      (s.armed = true → s.wdCount = 0#16 → step s = .next p.expired) := by
  obtain ⟨p, hp, hstep⟩ := step_tick hi
  refine ⟨p, hp, fun k hk => ?_, fun ha hw => ?_⟩
  · rw [hstep, watchdogTick_shortOfExpiry (by simpa only [hp.armed] using hk)]
    simp only [hp.armed]
  · refine (hstep s.wdCount).trans ?_
    rw [watchdogTick_expiry (by exact hp.armed.trans ha) (by exact hw)]
    rfl

/-! ### A channel's events among those of a Tick -/

/-- The channel that an event of phase 2 is about (R70, R74). -/
def Event.channel : Event → Option ChannelId
  | .pwmWrite ch _ _ => some ch
  | .measRead ch _ _ => some ch
  | _ => none

theorem channel_of_mem_phaseTwoEvents {s p : State} {ch : ChannelId} {m : Measurement} {e : Event}
    (he : e ∈ phaseTwoEvents s p ch m) : e.channel = some ch := by
  rcases List.mem_append.mp he with he | he
  · unfold measured at he
    split at he
    · exact List.mem_singleton.mp he ▸ rfl
    · cases he
  · exact List.mem_singleton.mp he ▸ rfl

/-- A channel's events stand together in the history, and none around them is about the channel
(R63). -/
theorem BeforeWatchdog.history_split {s p : State} {mA mB : Measurement} {rest : List Input}
    (h : BeforeWatchdog s mA mB rest p) (ch : ChannelId) :
    ∃ before after,
      Appended s p (before ++ phaseTwoEvents s p ch (answerTo ch mA mB) ++ after) ∧
      ∀ e ∈ before ++ after, e.channel ≠ some ch := by
  cases ch with
  | a =>
    refine ⟨[.annRefresh], phaseTwoEvents s p .b mB, h.history, fun e he => ?_⟩
    rcases List.mem_cons.mp he with rfl | he
    · simp [Event.channel]
    · simp [channel_of_mem_phaseTwoEvents he]
  | b =>
    refine ⟨.annRefresh :: phaseTwoEvents s p .a mA, [], ?_, fun e he => ?_⟩
    · simpa [Appended, answerTo] using h.history
    · rcases List.mem_cons.mp (List.append_nil _ ▸ he) with rfl | he
      · simp [Event.channel]
      · simp [channel_of_mem_phaseTwoEvents he]

/-! ### The obligations -/

/-- Settles O23: the disarmed Tick is two disarmed evaluations, and the watchdog does not count. -/
theorem disarmedTickDrivesZero : Obligations.DisarmedTickDrivesZero := by
  intro s mA mB rest hi ha
  rw [step_input hi, accept, State.tick, evaluate_disarmed_eq _ _ .a mA (by exact ha),
    evaluate_disarmed_eq _ _ .b mB (by exact ha), watchdogTick_shortOfExpiry (by simp [ha])]
  simp [ha, State.emit]

/-- Settles O27: under both counts the watchdog finds the same state. -/
theorem expiringTickForcesAStop : Obligations.ExpiringTickForcesAStop := by
  intro s mA mB rest n hi ha hw hn
  obtain ⟨p, hp, hcounts, hexpires⟩ := step_tick_cases hi
  refine ⟨_, _, hexpires ha hw, hcounts n fun h => hn h.2, rfl, fun ch => ?_, hp.frame, hp.inputs⟩
  cases ch with
  | a => exact congrArg Channel.stopped (hp.chan .a)
  | b => exact congrArg Channel.stopped (hp.chan .b)

/-- Settles O28: both Ticks show what phase 2 computes, and the watchdog's events come after it. -/
theorem tickEmitsItsEventsInOrder : Obligations.TickEmitsItsEventsInOrder := by
  intro s mA mB rest hi
  obtain ⟨p, hp, hcounts, hexpires⟩ := step_tick_cases hi
  have hu := hcounts 1#16 fun h => absurd h.2 (by decide)
  have hlatch (ch : ChannelId) : (p.chan ch).dirOut = (p.chan ch).dir :=
    congrArg Channel.dirOut (hp.chan ch)
  have hevents : p.history = s.history ++
      (.annRefresh :: measured .a s.armed s.chA mA ++ [.pwmWrite .a p.chA.duty p.chA.dir.bit] ++
        measured .b s.armed s.chB mB ++ [.pwmWrite .b p.chB.duty p.chB.dir.bit]) := by
    simp [hp.history, phaseTwoEvents]
  by_cases hx : s.armed = true ∧ s.wdCount = 0#16
  · refine ⟨_, _, hexpires hx.1 hx.2, hu, ?_, fun ch => ?_, fun h => absurd hx h⟩
    · rw [if_pos hx]
      exact (congrArg (· ++ _) hevents).trans (List.append_assoc ..)
    · cases ch with
      | a => exact ⟨rfl, hlatch .a⟩
      | b => exact ⟨rfl, hlatch .b⟩
  · refine ⟨_, _, hcounts s.wdCount hx, hu, ?_, fun ch => ?_, fun _ ch => ?_⟩
    · rw [if_neg hx]
      exact hevents.trans (congrArg _ (List.append_nil _).symm)
    · cases ch with
      | a => exact ⟨rfl, hlatch .a⟩
      | b => exact ⟨rfl, hlatch .b⟩
    · cases ch <;> rfl

/-- An armed open-loop channel after phase 2: the latches follow the duty and the direction, nothing
else changes, and one write is all that the history shows of it (R69, R74). -/
theorem BeforeWatchdog.openLoop {s p : State} {mA mB : Measurement} {rest : List Input}
    (h : BeforeWatchdog s mA mB rest p) {ch : ChannelId} (ha : s.armed = true)
    (hcl : (s.chan ch).cl = false) :
    p.chan ch = { s.chan ch with pwmCmp := (s.chan ch).duty, dirOut := (s.chan ch).dir } ∧
    phaseTwoEvents s p ch (answerTo ch mA mB) =
      [.pwmWrite ch (s.chan ch).duty (s.chan ch).dir.bit] := by
  obtain ⟨hduty, hdir, heint, heprev⟩ := (h.computes ch).openLoop ha hcl
  have hchan := h.chan ch
  rw [hduty, hdir, heint, heprev] at hchan
  exact ⟨hchan, by simp [phaseTwoEvents, measured, hcl, hduty, hdir]⟩

/-- An armed Tick short of expiry with both channels open-loop: nothing but the latches, the count and
the history changes (R69, R74, R90). -/
theorem step_tick_bothOpenLoop {s : State} {mA mB : Measurement} {rest : List Input}
    (hi : s.inputs = .tick mA mB :: rest) (ha : s.armed = true) (hw : s.wdCount ≠ 0#16)
    (hA : s.chA.cl = false) (hB : s.chB.cl = false) :
    step s = .next { s with
      inputs := rest
      chA := { s.chA with pwmCmp := s.chA.duty, dirOut := s.chA.dir }
      chB := { s.chB with pwmCmp := s.chB.duty, dirOut := s.chB.dir }
      wdCount := s.wdCount - 1#16
      history := s.history ++
        [.annRefresh, .pwmWrite .a s.chA.duty s.chA.dir.bit,
          .pwmWrite .b s.chB.duty s.chB.dir.bit] } := by
  rw [step_input hi, accept, State.tick,
    evaluate_openLoop_eq _ _ .a mA (by exact ha) (by exact hA),
    evaluate_openLoop_eq _ _ .b mB (by exact ha) (by exact hB),
    watchdogTick_shortOfExpiry (by simp [hw])]
  simp [ha, State.emit]

/-- Settles O24: what the other channel shows stands before or after the channel's one event. -/
theorem openLoopTickCopiesToTheLatches : Obligations.OpenLoopTickCopiesToTheLatches := by
  intro s mA mB rest hi ha hw
  refine ⟨fun ch hcl => ?_, fun hA hB => ?_⟩
  · obtain ⟨p, hp, hcounts, -⟩ := step_tick_cases hi
    obtain ⟨hchan, hevents⟩ := hp.openLoop ha hcl
    obtain ⟨before, after, happended, hother⟩ := hp.history_split ch
    rw [hevents] at happended
    refine ⟨_, before, after, hcounts s.wdCount fun h => hw h.2, hp.armed.trans ha, ?_, hp.frame,
      hp.inputs, (chan_wdCount p _ ch).trans hchan, happended, fun e he => ⟨?_, ?_⟩⟩
    · simpa [ha] using toNat_sub_one_add_one hw
    · rintro cmp dir rfl
      exact hother _ he rfl
    · rintro i x rfl
      exact hother _ he rfl
  · exact ⟨_, step_tick_bothOpenLoop hi ha hw hA hB, toNat_sub_one_add_one hw, rfl⟩

/-- What an armed closed-loop channel shows in phase 2 (R70, R74). -/
theorem phaseTwoEvents_closedLoop {s p : State} {ch : ChannelId} (m : Measurement)
    (ha : s.armed = true) (hcl : (s.chan ch).cl = true) :
    phaseTwoEvents s p ch m =
      [.measRead ch (s.chan ch).sensor m,
        .pwmWrite ch (p.chan ch).duty (p.chan ch).dir.bit] := by
  simp [phaseTwoEvents, measured, ha, hcl]

/-- Settles O25: phase 2 computes by the control law whatever the watchdog counts, and then the count
goes down, or the stop clears the duty, the compare latch and the integral. -/
theorem closedLoopTickRunsTheControlLaw : Obligations.ClosedLoopTickRunsTheControlLaw := by
  intro s mA mB rest ch m hi ha hcl hm hnan
  obtain ⟨p, hp, hcounts, hexpires⟩ := step_tick_cases hi
  obtain ⟨nan, n, hout, heint, heprev⟩ := (hp.computes ch).value ha hcl m hm hnan
  obtain ⟨before, after, happended, hother⟩ := hp.history_split ch
  have hduty : (p.chan ch).duty = _ := congrArg Prod.fst hout
  have hdir : (p.chan ch).dir = _ := congrArg Prod.snd hout
  have hchan := hp.chan ch
  rw [heint, heprev, hduty, hdir] at hchan
  rw [phaseTwoEvents_closedLoop _ ha hcl, hm, hduty, hdir] at happended
  have hunread (i : SensorIndex) (x : Measurement) : .measRead ch i x ∉ before ++ after :=
    fun h => hother _ h rfl
  by_cases hw : s.wdCount = 0#16
  · obtain ⟨stop, hstop, hquiet⟩ := expired_history p
    refine ⟨p.expired, nan, n, before, after ++ stop, hexpires ha hw, by simp [hw, State.expired],
      by simp [hw, State.expired], hp.frame, hp.inputs, ?_, ?_, fun i x => ?_⟩
    · rw [expired_chan, if_pos hw, hchan]
      rfl
    · rw [Appended, hstop, happended, List.append_assoc, ← List.append_assoc _ after]
      rfl
    · rw [← List.append_assoc, List.mem_append]
      exact not_or.mpr ⟨hunread i x, hquiet ch i x⟩
  · refine ⟨_, nan, n, before, after, hcounts s.wdCount fun h => hw h.2,
      by simp [hw, ha, hp.armed], by simp [hw, ha], hp.frame, hp.inputs, ?_, happended, hunread⟩
    rw [chan_wdCount p, if_neg hw, hchan]
    rfl

end Sys2Proof.Machine
end

section
/-! STOP and PAUSE (R76, R103, R105): each is the forced stop, and a second one finds nothing left to
clear. -/

namespace Sys2Proof.Machine

/-- Settles O13: both commands are the forced stop. -/
theorem stopAndPauseForceAStop : Obligations.StopAndPauseForceAStop := fun s =>
  ⟨congrArg Host.Outcome.next (forceStop_eq s), congrArg Host.Outcome.next (forceStop_eq s)⟩

/-- A forced stop leaves nothing for another to write but its two events, which show the direction
latches that the first has kept (R76). -/
theorem forceStop_forceStop (s : State) : s.forceStop.forceStop = { s.forceStop with
    history := s.forceStop.history ++
      [.pwmWrite .a 0#16 s.chA.dirOut.bit, .pwmWrite .b 0#16 s.chB.dirOut.bit] } := by
  rw [forceStop_eq s.forceStop, forceStop_eq s]

/-- Settles O14. -/
theorem secondStopChangesNoRegister : Obligations.SecondStopChangesNoRegister := by
  intro s t h
  obtain rfl : s.forceStop = t := Host.Outcome.next.inj h
  exact congrArg Host.Outcome.next (forceStop_forceStop s)

end Sys2Proof.Machine
end

section
/-! Who drives a compare latch (R68, R71, R74 to R76): an armed Tick alone makes one nonzero, and
neither a sentinel nor a stop does. -/

namespace Sys2Proof.Machine

/-- A step leaves a compare latch as it was or clears it, but for an armed Tick (R74, R75, R76). -/
theorem ChannelStep.pwmCmp {s t : State} {ch : ChannelId} (h : ChannelStep s t ch) :
    (t.chan ch).pwmCmp = (s.chan ch).pwmCmp ∨ (t.chan ch).pwmCmp = 0#16 ∨
      s.armed = true ∧ ∃ mA mB, s.inputs.head? = some (.tick mA mB) := by
  cases h with
  | kept ht => exact .inl (by rw [ht])
  | stopped i hc ht => exact .inr (.inl (by rw [ht]; rfl))
  | reset hc ht => exact .inr (.inl (by rw [ht]; rfl))
  | mode cle idx hc ha ht =>
    obtain ⟨-, hcmp, -⟩ := setMode_outputs (s.chan ch) cle idx
    exact .inl (by rw [ht, hcmp])
  | written i hc ha hcl ht =>
    obtain ⟨-, -, -, -, -, -, hcmp, -⟩ := ht
    exact .inl hcmp
  | evaluated mA mB hi he ha =>
    cases harmed : s.armed with
    | false => exact .inr (.inl (he.pwmCmp.trans (he.gated harmed)))
    | true => exact .inr (.inr ⟨rfl, mA, mB, hi⟩)
  | evaluatedThenStopped mA mB c hi he ht => exact .inr (.inl (by rw [ht]; rfl))

/-- Only a stop disarms the block, and it clears the compare latch (R75, R76). -/
theorem ChannelStep.pwmCmp_of_disarms {s t : State} {ch : ChannelId} (h : ChannelStep s t ch)
    (hs : s.armed = true) (ht : t.armed = false) : (t.chan ch).pwmCmp = 0#16 := by
  have hmoved : t.armed ≠ s.armed := by simp [hs, ht]
  cases h with
  | kept _ ha => exact absurd (ht.trans (ha ht).symm) hmoved
  | mode _ _ _ ha | written _ _ ha | evaluated _ _ _ _ ha => exact absurd ha hmoved
  | stopped _ _ hstop | reset _ hstop | evaluatedThenStopped _ _ _ _ _ hstop => rw [hstop]; rfl

/-- Settles O40. -/
theorem actuationIsGatedByArmed : Obligations.ActuationIsGatedByArmed := by
  intro s t h
  refine ⟨fun ch hzero hdriven => ?_, fun hs ht =>
    ⟨(step_channel .a h).pwmCmp_of_disarms hs ht, (step_channel .b h).pwmCmp_of_disarms hs ht⟩⟩
  rcases (step_channel ch h).pwmCmp with hkept | hcleared | harmed
  · exact absurd (hkept.trans hzero) hdriven
  · exact absurd hcleared hdriven
  · exact harmed

/-- An armed closed-loop channel after phase 2 of a Tick whose measurement is a sentinel: the duty and
the latches are written, and nothing else changes (R71, R74). -/
theorem BeforeWatchdog.sentinel {s p : State} {mA mB : Measurement} {rest : List Input}
    (h : BeforeWatchdog s mA mB rest p) {ch : ChannelId} (ha : s.armed = true)
    (hcl : (s.chan ch).cl = true)
    (hm : answerTo ch mA mB = .invalid ∨ ∃ x, answerTo ch mA mB = .value x ∧ isNan x = true) :
    p.chan ch = { s.chan ch with duty := 0#16, pwmCmp := 0#16, dirOut := (s.chan ch).dir } ∧
    phaseTwoEvents s p ch (answerTo ch mA mB) =
      [.measRead ch (s.chan ch).sensor (answerTo ch mA mB),
        .pwmWrite ch 0#16 (s.chan ch).dir.bit] := by
  obtain ⟨hduty, hdir, heint, heprev⟩ := (h.computes ch).sentinel ha hcl hm
  have hchan := h.chan ch
  rw [hduty, hdir, heint, heprev] at hchan
  exact ⟨hchan, by rw [phaseTwoEvents_closedLoop _ ha hcl, hduty, hdir]⟩

/-- Settles O26: phase 2 leaves the PID registers, and the watchdog counts after it. -/
theorem sentinelTickDrivesZeroAndKeepsThePid :
    Obligations.SentinelTickDrivesZeroAndKeepsThePid := by
  rintro s mA mB rest ch m hi ha hw hcl rfl hm
  obtain ⟨p, hp, hcounts, -⟩ := step_tick_cases hi
  obtain ⟨hchan, hevents⟩ := hp.sentinel ha hcl hm
  obtain ⟨before, after, happended, hother⟩ := hp.history_split ch
  rw [hevents] at happended
  refine ⟨_, before, after, hcounts s.wdCount fun h => hw h.2, hp.armed.trans ha, ?_, hp.frame,
    hp.inputs, (chan_wdCount p _ ch).trans hchan, happended, fun i x he => hother _ he rfl⟩
  simpa [ha] using toNat_sub_one_add_one hw

end Sys2Proof.Machine
end

section
/-! The failsafe bound (R93): while no GO commits, every Tick uses up one of the armed block's count or
disarms it, and a disarmed block stays disarmed, so more Ticks than the count leave it disarmed. -/

namespace Sys2Proof.Machine

/-! ### Ticks among the inputs -/

@[simp] theorem ticksAmong_zero (s : State) : s.ticksAmong 0 = 0 := rfl

/-- The Ticks of a run are that of its first step and those of the rest (R41). -/
theorem ticksAmong_succ {s t : State} (k : Nat) (h : step s = .next t) :
    s.ticksAmong (k + 1) = s.ticksAmong 1 + t.ticksAmong k := by
  unfold State.ticksAmong
  rw [step_inputs h]
  cases s.inputs <;> simp [List.countP_cons, Nat.add_comm]

/-- Only a Tick counts as one. -/
theorem ticksAmong_one_of_not_tick {s : State}
    (h : ∀ mA mB, s.inputs.head? ≠ some (.tick mA mB)) : s.ticksAmong 1 = 0 := by
  unfold State.ticksAmong
  cases hi : s.inputs with
  | nil => rfl
  | cons i rest => cases i <;> simp_all [Input.isTick]

theorem ticksAmong_one_le (s : State) : s.ticksAmong 1 ≤ 1 :=
  List.countP_le_length.trans (List.length_take_le 1 s.inputs)

/-! ### One step without GO -/

/-- A command other than GO leaves the watchdog or disarms it (R24, R89). -/
theorem exec_watchdog {i : Instr} {s t : State} (h : exec i s = .next t) (hi : i.isGo = false) :
    t.armed = false ∨ t.armed = s.armed ∧ t.wdCount = s.wdCount := by
  rcases exec_cases h with ⟨-, rfl⟩ | ⟨-, hr⟩ | ⟨x, rfl, -⟩ | ⟨ch, cle, idx, -, rfl⟩ |
    ⟨f, -, rfl, -⟩ | ⟨-, rfl⟩ | ⟨-, rfl⟩
  · exact .inl rfl
  · rw [execReset_eq] at hr
    exact .inl (Host.Outcome.next.inj hr ▸ rfl)
  · cases hi
  · exact .inr (by simp)
  · rcases writeAddressed_cases s f with ⟨-, h⟩ | ⟨-, h⟩ <;> rw [h] <;> simp
  · exact .inr ⟨rfl, rfl⟩
  · exact .inr ⟨rfl, rfl⟩

/-- A Tick leaves the block disarmed, or counts down (R90). -/
theorem tick_watchdog (s : State) (P : Params) (mA mB : Measurement) :
    (s.tick P mA mB).armed = false ∨
      (s.tick P mA mB).armed = s.armed ∧ (s.tick P mA mB).wdCount.toNat + 1 = s.wdCount.toNat := by
  obtain ⟨p, hp, ht⟩ := tick_phases s P mA mB
  rw [ht, ← hp.armed, ← hp.wdCount]
  rcases watchdogTick_cases p with ⟨ha, h⟩ | ⟨-, hw, h⟩ | ⟨-, -, h⟩ <;> rw [h]
  · exact .inl ha
  · exact .inr ⟨rfl, toNat_sub_one_add_one hw⟩
  · exact .inl rfl

/-- In a step that commits no GO, the block ends disarmed, or `ARMED` stays and a Tick takes one from
the count (R24, R89, R90). -/
theorem step_watchdog_without_go {s t : State} (h : step s = .next t)
    (hgo : ∀ i, s.nextCommit = some i → i.isGo = false) :
    t.armed = false ∨
      t.armed = s.armed ∧ t.wdCount.toNat + s.ticksAmong 1 ≤ s.wdCount.toNat := by
  by_cases hi : ∃ mA mB, s.inputs.head? = some (.tick mA mB)
  · obtain ⟨mA, mB, hi⟩ := hi
    obtain ⟨rest, hi⟩ := List.head?_eq_some_iff.mp hi
    obtain rfl := Host.Outcome.next.inj ((step_input hi).symm.trans h)
    refine (tick_watchdog { s with inputs := rest } Config.params mA mB).imp_right ?_
    rintro ⟨ha, hw⟩
    exact ⟨ha, hw ▸ Nat.add_le_add_left (ticksAmong_one_le s) _⟩
  · rw [ticksAmong_one_of_not_tick fun mA mB htick => hi ⟨mA, mB, htick⟩]
    rcases step_motors h with ⟨-, hm⟩ | ⟨mA, mB, -, htick, -⟩ | ⟨i, u, hc, hu, he⟩
    · exact .inr ⟨hm.armed, by simp [hm.wdCount]⟩
    · exact absurd ⟨mA, mB, htick⟩ hi
    · refine (exec_watchdog he (hgo i hc)).imp_right ?_
      rintro ⟨ha, hw⟩
      exact ⟨ha.trans hu.armed, by simp [hw, hu.wdCount]⟩

/-! ### Runs without GO -/

/-- What a run without GO is, from its first step on. -/
theorem commitsNo_succ {p : Instr → Bool} {k : Nat} {s t : State} (h : step s = .next t)
    (hn : s.commitsNo p (k + 1) = true) :
    (∀ i, s.nextCommit = some i → p i = false) ∧ t.commitsNo p k = true := by
  unfold State.commitsNo at hn
  rw [h, Bool.and_eq_true] at hn
  refine ⟨fun i hi => ?_, hn.2⟩
  simpa [hi] using hn.1

/-- A run without GO completes, and it ends disarmed where the block was disarmed at its start or more
Ticks fall than the count. -/
theorem run_without_go_disarms : ∀ (k : Nat) (s : State), s.Inv →
    s.commitsNo Instr.isGo k = true → s.armed = false ∨ s.wdCount.toNat < s.ticksAmong k →
    ∃ t, run k s = .next t ∧ t.Inv ∧ t.armed = false
  | 0, s, hs, _, hd => ⟨s, run_zero s, hs, hd.resolve_right (Nat.not_lt_zero _)⟩
  | k + 1, s, hs, hn, hd => by
    obtain ⟨u, hstep⟩ := everyInputHasItsTransition s hs
    obtain ⟨hgo, hrest⟩ := commitsNo_succ hstep hn
    rw [run_succ k hstep]
    refine run_without_go_disarms k u (everyStepKeepsTheInvariants s u hs hstep) hrest ?_
    rcases step_watchdog_without_go hstep hgo with hu | ⟨ha, hw⟩
    · exact .inl hu
    · rw [ticksAmong_succ k hstep] at hd
      rw [ha]
      exact hd.imp_right fun hlt => by omega

/-- Settles O47: the run ends disarmed, where the invariants hold the duties and the latches at 0. -/
theorem withoutGoTheMotorsStop : Obligations.WithoutGoTheMotorsStop := by
  intro k s hs hn hk
  obtain ⟨t, hrun, ht, ha⟩ := run_without_go_disarms k s hs hn (.inr hk)
  obtain ⟨hdutyA, hcmpA⟩ := ht.chanA.gated ha
  obtain ⟨hdutyB, hcmpB⟩ := ht.chanB.gated ha
  exact ⟨t, hrun, ha, hdutyA, hdutyB, hcmpA, hcmpB⟩

end Sys2Proof.Machine
end

section
/-! Scale (R72), by the place of the correction in the order of the comparisons: a NaN or a zero stops
the channel, and of any other correction the sign gives the direction and the magnitude the duty. -/

namespace Sys2Proof.Machine

/-! ### Places in the order of the comparisons -/

theorem signedUnits_eq_zero {neg : Bool} {u : Nat} : signedUnits neg u = 0 ↔ u = 0 := by
  cases neg <;> simp [signedUnits]

theorem signedUnits_false (u : Nat) : signedUnits false u = u := rfl

theorem signedUnits_neg {neg : Bool} {u : Nat} (hu : u ≠ 0) :
    signedUnits neg u < 0 ↔ neg = true := by
  cases neg <;> simp [signedUnits]
  omega

/-- A scaled integer is below a power of two that leaves room for it. -/
theorem shiftLeft_le_one_shiftLeft {n a b c : Nat} (hn : n ≤ 2 ^ a) (hab : a + b ≤ c) :
    n <<< b ≤ 1 <<< c := by
  rw [Nat.shiftLeft_eq, Nat.shiftLeft_eq, Nat.one_mul]
  calc n * 2 ^ b
    _ ≤ 2 ^ a * 2 ^ b := Nat.mul_le_mul_right _ hn
    _ = 2 ^ (a + b) := (Nat.pow_add 2 a b).symm
    _ ≤ 2 ^ c := Nat.pow_le_pow_right (by decide) hab

theorem one_shiftLeft_ne_zero (e : Nat) : 1 <<< e ≠ 0 := by
  rw [Nat.shiftLeft_eq, Nat.one_mul]
  exact Nat.ne_of_gt (Nat.two_pow_pos e)

theorem isNan_eq_false_iff (x : F64) : isNan x = false ↔ classify x ≠ .nan := by
  rw [Bool.eq_false_iff, ne_eq, isNan_iff]

/-! ### The duty of a magnitude -/

/-- The duty that Scale gives for a magnitude: `MAX_DUTY` from `MAX_DUTY` on, else the integer part
(R72; `scale_of_orderKey_ne_zero`). -/
def clampedDuty (P : Params) (mag : F64) : Half :=
  if fge mag (f64OfNat P.maxDuty.toNat) then P.maxDuty else BitVec.ofNat 16 (truncF64 mag)

/-- `MAX_DUTY` converts exactly (R72, R77). -/
theorem classify_maxDuty (P : Params) :
    classify (f64OfNat P.maxDuty.toNat) = .fin false (P.maxDuty.toNat <<< 1074) :=
  classify_f64OfNat ((maxDuty_range P).2.trans_lt (by decide))

/-- An infinite magnitude is clamped (R72). -/
theorem clampedDuty_inf (P : Params) {mag : F64} (h : classify mag = .inf false) :
    clampedDuty P mag = P.maxDuty := by
  have hmag : isNan mag = false := (isNan_eq_false_iff mag).mpr (by simp [h])
  have hmax : isNan (f64OfNat P.maxDuty.toNat) = false :=
    (isNan_eq_false_iff _).mpr (by simp [classify_maxDuty])
  have hle : ((P.maxDuty.toNat <<< 1074 : Nat) : Int) ≤ (1 <<< 2098 : Nat) :=
    Int.ofNat_le.mpr (shiftLeft_le_one_shiftLeft (a := 16)
      ((maxDuty_range P).2.trans (by decide)) (by decide))
  have hge : fge mag (f64OfNat P.maxDuty.toNat) = true := by
    rw [fge, hmag, hmax, h, classify_maxDuty, orderKey, orderKey, signedUnits_false,
      signedUnits_false, decide_eq_true hle]
    rfl
  rw [clampedDuty, if_pos hge]

/-- A finite magnitude is clamped from `MAX_DUTY` on (R72). -/
theorem clampedDuty_of_le (P : Params) {mag : F64} {units : Nat}
    (h : classify mag = .fin false units) (hle : P.maxDuty.toNat <<< 1074 ≤ units) :
    clampedDuty P mag = P.maxDuty := by
  refine if_pos ?_
  rw [← Bool.not_eq_false, fge_fin_eq_false_iff h (classify_maxDuty P)]
  exact Nat.not_lt.mpr hle

/-- Below `MAX_DUTY` the duty is the magnitude's integer part, which fits the register (R18, R72). -/
theorem clampedDuty_of_lt (P : Params) {mag : F64} {units : Nat}
    (h : classify mag = .fin false units) (hlt : units < P.maxDuty.toNat <<< 1074) :
    (clampedDuty P mag).toNat = units >>> 1074 := by
  have hbelow : fge mag (f64OfNat P.maxDuty.toNat) = false :=
    (fge_fin_eq_false_iff h (classify_maxDuty P)).mpr hlt
  have hfits : units >>> 1074 ≤ 65535 :=
    (shiftRight_le_of_lt_shiftLeft hlt).trans (maxDuty_range P).2
  rw [clampedDuty, hbelow, if_neg Bool.false_ne_true, BitVec.toNat_ofNat, truncF64, h]
  exact Nat.mod_eq_of_lt (Nat.lt_succ_of_le hfits)

/-- The product of an infinity (R72, R77). -/
theorem classify_scaledMagnitude_inf (P : Params) (n : NanBits) {c : F64} {neg : Bool}
    (hc : classify c = .inf neg) : classify (fmul n (fabs c) P.outputScale) = .inf false := by
  obtain ⟨v, hv, hscale⟩ := classify_outputScale P
  have hfabs := classify_fabs c
  rw [hc] at hfabs
  have hinf : classify (packF64 false infMagnitude) = .inf false := by decide
  simp [fmul, hfabs, hscale, Nat.ne_of_gt hv, hinf]

/-- The product that Scale clamps is not negative, and no correction but a NaN makes it a NaN (R72). -/
theorem classify_scaledMagnitude (P : Params) (n : NanBits) {c : F64} (h : isNan c = false) :
    classify (fmul n (fabs c) P.outputScale) = .inf false ∨
      ∃ units, classify (fmul n (fabs c) P.outputScale) = .fin false units := by
  obtain ⟨v, -, hscale⟩ := classify_outputScale P
  have hfabs := classify_fabs c
  cases hc : classify c with
  | nan => exact absurd hc ((isNan_eq_false_iff c).mp h)
  | inf s => exact .inl (classify_scaledMagnitude_inf P n hc)
  | fin s u =>
    rw [hc] at hfabs
    rw [fmul_fin hfabs hscale, classify_roundF64]
    split
    · exact .inr ⟨_, rfl⟩
    · exact .inl rfl

/-! ### The two cases of Scale, and its contract -/

/-- A NaN and a zero have the place 0 alike: duty 0 with the direction kept (R72). -/
theorem scale_of_orderKey_eq_zero (P : Params) (n : NanBits) {c : F64} (d : Direction)
    (h : orderKey (classify c) = 0) : scale P n c d = (0#16, d) := by
  have hzero : isNan posZero = false ∧ orderKey (classify posZero) = 0 := by decide
  cases hc : isNan c <;> simp [scale, feq, hc, h, hzero]

/-- Any other correction: the sign gives the direction, the magnitude the duty (R72). -/
theorem scale_of_orderKey_ne_zero (P : Params) (n : NanBits) {c : F64} (d : Direction)
    (h : orderKey (classify c) ≠ 0) : scale P n c d =
      (clampedDuty P (fmul n (fabs c) P.outputScale),
        if orderKey (classify c) < 0 then .reverse else .forward) := by
  have hzero : isNan posZero = false ∧ orderKey (classify posZero) = 0 := by decide
  have hnan : isNan c = false := (isNan_eq_false_iff c).mpr fun hc => h (by rw [hc]; rfl)
  unfold clampedDuty
  cases hge : fge (fmul n (fabs c) P.outputScale) (f64OfNat P.maxDuty.toNat) <;>
    simp [scale, feq, flt, hnan, h, hzero, hge]

/-- A correction whose place is that of `u` units with the sign `neg`, as an infinity's is too (R72). -/
theorem scale_of_signed (P : Params) (n : NanBits) {c : F64} (d : Direction) {neg : Bool} {u : Nat}
    (hc : orderKey (classify c) = signedUnits neg u) (hu : u ≠ 0) : scale P n c d =
      (clampedDuty P (fmul n (fabs c) P.outputScale), if neg then .reverse else .forward) := by
  have hne : orderKey (classify c) ≠ 0 := by rwa [hc, ne_eq, signedUnits_eq_zero]
  rw [scale_of_orderKey_ne_zero P n d hne, hc]
  simp only [signedUnits_neg hu]

/-- Settles O54. -/
theorem scaleMeetsItsContract : Obligations.ScaleMeetsItsContract := by
  intro P n c d
  refine ⟨fun hc => ?_, fun hc => ?_, fun neg hc => ?_, fun neg u hc hu => ?_,
    scale_duty_le P n c d, fun hc => ?_⟩
  · exact scale_of_orderKey_eq_zero P n d (by rw [(isNan_iff c).mp hc]; rfl)
  · exact scale_of_orderKey_eq_zero P n d (by rcases hc with rfl | rfl <;> decide)
  · rw [scale_of_signed P n d (by rw [hc, orderKey]) (one_shiftLeft_ne_zero 2098),
      clampedDuty_inf P (classify_scaledMagnitude_inf P n hc)]
  · have hnan : isNan c = false := (isNan_eq_false_iff c).mpr (by simp [hc])
    rw [scale_of_signed P n d (by rw [hc, orderKey]) hu]
    refine ⟨rfl, ?_⟩
    rcases classify_scaledMagnitude P n hnan with h | ⟨units, h⟩ <;> rw [h] <;> dsimp only
    · exact clampedDuty_inf P h
    · rw [← Nat.shiftLeft_eq, ← Nat.shiftRight_eq_div_pow]
      have hclamped := clampedDuty_of_le P h
      have hbelow := clampedDuty_of_lt P h
      generalize P.maxDuty.toNat <<< 1074 = bound at *
      split_ifs with hle
      · exact hclamped hle
      · exact hbelow (Nat.not_le.mp hle)
  · rw [isNan_eq_false_iff]
    rcases classify_scaledMagnitude P n hc with h | ⟨units, h⟩ <;> simp [h]

end Sys2Proof.Machine
end

section
/-! The arithmetic of zeros (R77, R82): a finite value less itself is `+0.0`, and adding a zero to a value
other than zero gives the value back, pattern and all. -/

namespace Sys2Proof.Machine

/-! ### Rounding gives a value back -/

/-- A scaled integer of 53 bits has its last place at its scale, and so has a shorter one at scale 0
(R55, R77). -/
theorem roundPlace_scaled {q k : Nat} (hq : q < 2 ^ 53) (hn : k = 0 ∨ 2 ^ 52 ≤ q) :
    roundPlace (q <<< k) 0 = k := by
  refine Nat.le_antisymm (roundPlace_scaled_le k hq) ?_
  rcases hn with rfl | hn
  · exact Nat.zero_le _
  · have hpos : q <<< k ≠ 0 := by
      rw [Nat.shiftLeft_eq]
      exact Nat.ne_of_gt (Nat.mul_pos (by omega) (Nat.two_pow_pos k))
    have hbits : 52 + k ≤ (q <<< k).log2 := by
      rw [Nat.le_log2 hpos, Nat.shiftLeft_eq, Nat.pow_add]
      exact Nat.mul_le_mul_right _ hn
    unfold roundPlace
    omega

/-- What a scaled integer of at most 53 bits rounds to (R77). -/
theorem roundF64_scaled (neg : Bool) {q k : Nat} (hq : q < 2 ^ 53) (hn : k = 0 ∨ 2 ^ 52 ≤ q)
    (h : (k <<< 52) + q < infMagnitude) :
    roundF64 neg (q <<< k) 0 = packF64 neg ((k <<< 52) + q) := by
  have hround : roundShift (q <<< k) k = q := by
    have hexact : roundShift (q <<< k) k <<< k = q <<< k :=
      roundShift_exact (Nat.shiftLeft_eq q k ▸ Nat.dvd_mul_left _ _)
    refine Nat.eq_of_mul_eq_mul_right (Nat.two_pow_pos k) ?_
    rw [← Nat.shiftLeft_eq, ← Nat.shiftLeft_eq, hexact]
  unfold roundF64
  dsimp only
  rw [roundPlace_scaled hq hn, Nat.sub_zero, hround, Nat.min_eq_left (Nat.le_of_lt h)]

/-- Zero rounds to the zero of its sign at every place (R77). -/
theorem roundF64_zero (neg : Bool) (k : Nat) : roundF64 neg 0 k = packF64 neg 0 := by
  have hplace : roundPlace 0 k = k := by simp [roundPlace]
  have hround : roundShift 0 k = 0 := by
    have hexact := roundShift_exact (Nat.dvd_zero (2 ^ k))
    rw [Nat.shiftLeft_eq] at hexact
    exact (Nat.mul_eq_zero.mp hexact).resolve_right (Nat.ne_of_gt (Nat.two_pow_pos k))
  simp [roundF64, hplace, hround]

/-- A pattern is its sign over its exponent and its fraction (R55). -/
theorem packF64_fields (x : F64) :
    packF64 (f64Sign x) ((f64Exponent x <<< 52) + f64Fraction x) = x := by
  have hexp : f64Exponent x < 2 ^ 11 := by unfold f64Exponent; exact BitVec.isLt _
  have hfrac := f64Fraction_lt x
  rw [Nat.shiftLeft_eq]
  apply pattern_ext
  · rw [f64Sign_packF64 _ (by omega)]
  · rw [f64Exponent_packF64 _ (by omega)]
    omega
  · rw [f64Fraction_packF64 _ (by omega)]
    omega

/-- Rounding the units of a finite value gives the value back (R55, R77). -/
theorem roundF64_units {x : F64} {neg : Bool} {u : Nat} (h : classify x = .fin neg u) :
    roundF64 neg u 0 = x := by
  have hexp : f64Exponent x < 2 ^ 11 := by unfold f64Exponent; exact BitVec.isLt _
  have hfrac := f64Fraction_lt x
  have hpack := packF64_fields x
  unfold classify at h
  split_ifs at h with hmax hinf hsub
  · obtain ⟨rfl, rfl⟩ := F64Class.fin.inj h
    have hfinite : (0 <<< 52) + f64Fraction x < infMagnitude := by
      unfold infMagnitude
      omega
    rw [hsub] at hpack
    exact (roundF64_scaled (f64Sign x) (k := 0) (by omega) (.inl rfl) hfinite).trans hpack
  · obtain ⟨rfl, rfl⟩ := F64Class.fin.inj h
    have hcarry : ((f64Exponent x - 1) <<< 52) + (2 ^ 52 + f64Fraction x) =
        (f64Exponent x <<< 52) + f64Fraction x := by
      rw [Nat.shiftLeft_eq, Nat.shiftLeft_eq]
      omega
    have hfinite : (f64Exponent x <<< 52) + f64Fraction x < infMagnitude := by
      unfold infMagnitude
      rw [Nat.shiftLeft_eq]
      omega
    have hround := roundF64_scaled (f64Sign x) (by omega) (.inr (by omega)) (hcarry.trans_lt hfinite)
    exact hround.trans ((congrArg _ hcarry).trans hpack)

/-- There is one infinity of each sign (R55). -/
theorem packF64_inf {x : F64} {neg : Bool} (h : classify x = .inf neg) :
    packF64 neg infMagnitude = x := by
  have hpack := packF64_fields x
  unfold classify at h
  split_ifs at h with hmax hinf
  obtain rfl := F64Class.inf.inj h
  rwa [hmax, hinf] at hpack

/-! ### The values at the place of zero, and the finite ones -/

/-- The finite patterns by their class (R55). -/
theorem classify_of_isFinite {x : F64} (h : isFinite x = true) : ∃ s u, classify x = .fin s u :=
  (classify_fin_iff x).mpr (of_decide_eq_true h)

theorem isNan_eq_false_of_isFinite {x : F64} (h : isFinite x = true) : isNan x = false := by
  obtain ⟨s, u, hc⟩ := classify_of_isFinite h
  exact (isNan_eq_false_iff x).mpr (by simp [hc])

/-- Of the values that are no NaN, the zeros alone have the place 0 (R77). -/
theorem classify_of_orderKey_eq_zero {x : F64} (hx : isNan x = false)
    (h : orderKey (classify x) = 0) : ∃ s, classify x = .fin s 0 := by
  rw [isNan_eq_false_iff] at hx
  cases hc : classify x with
  | nan => exact absurd hc hx
  | inf s =>
    rw [hc, orderKey, signedUnits_eq_zero] at h
    exact absurd h (one_shiftLeft_ne_zero 2098)
  | fin s u =>
    rw [hc, orderKey, signedUnits_eq_zero] at h
    exact ⟨s, by rw [h]⟩

/-! ### Sums and products with a zero -/

/-- The two zeros (R55). -/
theorem packF64_zero (neg : Bool) : packF64 neg 0 = if neg then negZero else posZero := by
  cases neg <;> decide

theorem classify_packF64_zero (neg : Bool) : classify (packF64 neg 0) = .fin neg 0 := by
  cases neg <;> decide

theorem classify_posZero : classify posZero = .fin false 0 := by decide

theorem classify_negZero : classify negZero = .fin true 0 := by decide

theorem eq_zero_of_classify {x : F64} {neg : Bool} (h : classify x = .fin neg 0) :
    x = if neg then negZero else posZero := by
  rw [← roundF64_units h, roundF64_zero, packF64_zero]

theorem natAbs_signedUnits (neg : Bool) (u : Nat) : (signedUnits neg u).natAbs = u := by
  cases neg <;> simp [signedUnits]

/-- Addition commutes (R77). -/
theorem fadd_comm (n : NanBits) (a b : F64) : fadd n a b = fadd n b a := by
  cases ha : classify a <;> cases hb : classify b <;>
    simp [fadd, ha, hb, Int.add_comm, Bool.and_comm, eq_comm]
  case inf.inf s s' => exact ite_congr rfl (fun h => by rw [h]) fun _ => rfl

/-- A sum of two zeros is `+0.0` but where both are negative (R77). -/
theorem fadd_zero_zero {n : NanBits} {x z : F64} {s s' : Bool} (hx : classify x = .fin s 0)
    (hz : classify z = .fin s' 0) : fadd n x z = packF64 (s && s') 0 := by
  rw [fadd_fin hx hz, if_pos (by simp [signedUnits])]

/-- A zero added to a value other than a zero leaves it (R77). -/
theorem fadd_zero {n : NanBits} {x z : F64} {s : Bool} (hz : classify z = .fin s 0)
    (hx : orderKey (classify x) ≠ 0) : fadd n x z = x := by
  cases hc : classify x with
  | nan => exact absurd (by rw [hc]; rfl) hx
  | inf neg =>
    rw [← packF64_inf hc]
    simp [fadd, hz, hc, packF64_inf hc]
  | fin neg u =>
    have hu : u ≠ 0 := by rwa [hc, orderKey, ne_eq, signedUnits_eq_zero] at hx
    have hsum : signedUnits neg u + signedUnits s 0 = signedUnits neg u := by simp [signedUnits]
    rw [fadd_fin hc hz, hsum, if_neg (by rwa [signedUnits_eq_zero]), natAbs_signedUnits]
    simp only [signedUnits_neg hu, Bool.decide_eq_true]
    exact roundF64_units hc

/-- Adding `+0.0` to a value that is no NaN changes it only where it is `-0.0` (R77, R82). -/
theorem fadd_posZero (n : NanBits) {x : F64} (hx : isNan x = false) :
    fadd n x posZero = if x = negZero then posZero else x := by
  by_cases hkey : orderKey (classify x) = 0
  · obtain ⟨s, hs⟩ := classify_of_orderKey_eq_zero hx hkey
    rw [fadd_zero_zero hs classify_posZero, eq_zero_of_classify hs]
    cases s <;> decide
  · rw [fadd_zero classify_posZero hkey, if_neg]
    rintro rfl
    exact hkey (by rw [classify_negZero]; rfl)

/-- A finite value less itself is `+0.0` (R77, R82). -/
theorem fsub_self (n : NanBits) {x : F64} (hx : isFinite x = true) : fsub n x x = posZero := by
  obtain ⟨s, u, hc⟩ := classify_of_isFinite hx
  have hneg : classify (fneg x) = .fin (!s) u := by rw [classify_fneg, hc]
  rw [fsub, fadd_fin hc hneg]
  cases s <;> simp [signedUnits, packF64_zero]

/-- A finite value times a zero is a zero (R77). -/
theorem classify_fmul_zero (n : NanBits) {x z : F64} {s : Bool} (hx : isFinite x = true)
    (hz : classify z = .fin s 0) : ∃ s', classify (fmul n x z) = .fin s' 0 := by
  obtain ⟨sx, u, hc⟩ := classify_of_isFinite hx
  rw [fmul_fin hc hz, Nat.mul_zero, roundF64_zero]
  exact ⟨_, classify_packF64_zero _⟩

end Sys2Proof.Machine
end

section
/-! The zero-error property (R82): the duty depends on the magnitude of the correction alone, and with
the error `+0.0` every term of the control law but the integral one is a zero, which adds nothing to
that magnitude. -/

namespace Sys2Proof.Machine

/-! ### The duty depends on the magnitude of the correction -/

/-- A value and its magnitude are at place 0 together (R77). -/
theorem orderKey_fabs_eq_zero (c : F64) :
    orderKey (classify (fabs c)) = 0 ↔ orderKey (classify c) = 0 := by
  rw [classify_fabs]
  cases classify c with
  | nan => rfl
  | inf s => simp only [orderKey, signedUnits_eq_zero]
  | fin s u => simp only [orderKey, signedUnits_eq_zero]

/-- Which NaN a product draws leaves its class (R77). -/
theorem classify_fmul_nanBits (n n' : NanBits) (a b : F64) :
    classify (fmul n a b) = classify (fmul n' a b) := by
  have hnan (m : NanBits) : classify (nanF64 m) = .nan := (isNan_iff _).mp (isNan_nanF64 m)
  unfold fmul
  cases classify a <;> cases classify b <;> simp [apply_ite classify, hnan]

/-- The class of a product follows from those of its factors (R77). -/
theorem fmul_congr (n : NanBits) {a a' : F64} (b : F64) (h : classify a = classify a') :
    fmul n a b = fmul n a' b := by
  unfold fmul
  rw [h]

/-- The clamp looks at the class of the magnitude alone (R72, R77). -/
theorem clampedDuty_congr (P : Params) {x y : F64} (h : classify x = classify y) :
    clampedDuty P x = clampedDuty P y := by
  have hnan : isNan x = isNan y := by rw [Bool.eq_iff_iff, isNan_iff, isNan_iff, h]
  have hge (z : F64) : fge x z = fge y z := by simp only [fge, h, hnan]
  have htrunc : truncF64 x = truncF64 y := by
    unfold truncF64
    rw [h]
  rw [clampedDuty, hge, htrunc, clampedDuty]

/-- The duty depends on the magnitude of the correction: not on its sign, on the direction before, or on
any NaN (R72). -/
theorem scale_duty_congr (P : Params) (n n' : NanBits) {c c' : F64} (d d' : Direction)
    (h : classify (fabs c) = classify (fabs c')) : (scale P n c d).1 = (scale P n' c' d').1 := by
  have hzero : orderKey (classify c) = 0 ↔ orderKey (classify c') = 0 := by
    rw [← orderKey_fabs_eq_zero c, h, orderKey_fabs_eq_zero c']
  by_cases hc : orderKey (classify c) = 0
  · rw [scale_of_orderKey_eq_zero P n d hc, scale_of_orderKey_eq_zero P n' d' (hzero.mp hc)]
  · rw [scale_of_orderKey_ne_zero P n d hc,
      scale_of_orderKey_ne_zero P n' d' fun hc' => hc (hzero.mpr hc')]
    refine clampedDuty_congr P ?_
    rw [fmul_congr n _ h]
    exact classify_fmul_nanBits n n' _ _

/-- A zero adds nothing to a magnitude (R77). -/
theorem classify_fabs_fadd_zero (n : NanBits) {x z : F64} {s : Bool} (hz : classify z = .fin s 0) :
    classify (fabs (fadd n x z)) = classify (fabs x) := by
  cases hx : isNan x with
  | true =>
    have hc := (isNan_iff x).mp hx
    have hnan : classify (nanF64 n) = .nan := (isNan_iff _).mp (isNan_nanF64 n)
    rw [fadd_nan (.inl hc), classify_fabs, classify_fabs, hnan, hc]
  | false =>
    by_cases hkey : orderKey (classify x) = 0
    · obtain ⟨s', hs⟩ := classify_of_orderKey_eq_zero hx hkey
      rw [fadd_zero_zero hs hz, classify_fabs, classify_fabs, classify_packF64_zero, hs]
    · rw [fadd_zero hz hkey]

/-! ### The control law at zero error -/

section
variable {nan : NanSite → NanBits} {c : Channel}

/-- At zero error `EPREV` becomes `+0.0` (R78, R82). -/
theorem pidStep_eprev_of_zeroError (ht : isFinite c.target = true) :
    (pidStep nan c c.target).2.eprev = posZero := fsub_self _ ht

/-- At zero error `EINT` stays, but for the sign of a zero (R78, R82). -/
theorem pidStep_eint_of_zeroError (ht : isFinite c.target = true) (hi : isNan c.eint = false) :
    (pidStep nan c c.target).2.eint = if c.eint = negZero then posZero else c.eint := by
  simp only [pidStep, fsub_self _ ht]
  exact fadd_posZero _ hi

/-- At zero error, and none before, the correction has the magnitude of the integral term (R78, R82). -/
theorem pidStep_correction_of_zeroError (ht : isFinite c.target = true)
    (hkp : isFinite c.kp = true) (hkd : isFinite c.kd = true) (he : c.eprev = posZero)
    (n : NanBits) :
    classify (fabs (pidStep nan c c.target).1) =
      classify (fabs (fmul n c.ki (pidStep nan c c.target).2.eint)) := by
  obtain ⟨sp, hp⟩ := classify_fmul_zero (nan .proportionalTerm) hkp classify_posZero
  obtain ⟨sd, hd⟩ := classify_fmul_zero (nan .derivativeTerm) hkd classify_posZero
  simp only [pidStep, fsub_self _ ht, he, fsub_self _ (show isFinite posZero = true by decide)]
  rw [classify_fabs_fadd_zero _ hd, fadd_comm, classify_fabs_fadd_zero _ hp, classify_fabs,
    classify_fabs, classify_fmul_nanBits _ n]

end

/-- Settles O55: the channel's other registers stay in phase 2, and the watchdog counts after it. -/
theorem zeroErrorKeepsTheDuty : Obligations.ZeroErrorKeepsTheDuty := by
  intro s mA mB rest ch hi ha hw hcl hm ht hkp hki hkd hint
  obtain ⟨p, hp, hcounts, -⟩ := step_tick_cases hi
  obtain ⟨nan, n, hout, heint, heprev⟩ :=
    (hp.computes ch).value ha hcl _ hm (isNan_eq_false_of_isFinite ht)
  refine ⟨_, hcounts s.wdCount fun h => hw h.2, ?_⟩
  rw [chan_wdCount p]
  refine ⟨heprev.trans (pidStep_eprev_of_zeroError ht),
    heint.trans (pidStep_eint_of_zeroError ht hint), fun he m m' d => ?_⟩
  calc (p.chan ch).duty
    _ = (scale Config.params n (pidStep nan (s.chan ch) (s.chan ch).target).1
          (s.chan ch).dir).1 := congrArg Prod.fst hout
    _ = (scale Config.params m' (fmul m (s.chan ch).ki (p.chan ch).eint) d).1 := by
      rw [heint]
      exact scale_duty_congr _ _ _ _ _ (pidStep_correction_of_zeroError ht hkp hkd he m)

end Sys2Proof.Machine
end

section
/-! Correct rounding (R77): the rounded integer at its place is as near as any multiple of that place,
every finite value is such a multiple or is farther off than one, and the result is an infinity exactly
past the finite range. The sum, the difference and the product round their exact results, so they
inherit it; the conversion of an integer rounds a number that is a binary64 value already. -/

namespace Sys2Proof.Machine

/-! ### Where rounding leaves the finite values -/

/-- What is rounded has at most 53 bits above its place. -/
theorem lt_roundPlace (m k : Nat) : m < 2 ^ 53 * 2 ^ roundPlace m k := by
  rw [← Nat.pow_add]
  refine Nat.lt_of_lt_of_le Nat.lt_log2_self (Nat.pow_le_pow_right (by decide) ?_)
  unfold roundPlace
  omega

theorem le_roundPlace (m k : Nat) : k ≤ roundPlace m k := Nat.le_max_right _ _

theorem overflowUnits_shiftLeft (k : Nat) :
    overflowUnits <<< k = (2 ^ 54 - 1) * 2 ^ (2044 + k) := by
  rw [overflowUnits, ← Nat.shiftLeft_add, Nat.shiftLeft_eq]

/-- At the last place of the largest finite values, rounding carries out of the 53 bits exactly from
half a place past the largest of them: at the half itself the even integer is the one above. -/
theorem roundShift_lt_iff {m t : Nat} (hle : roundShift m t ≤ 2 ^ 53) :
    roundShift m t < 2 ^ 53 ↔ 2 * m < (2 ^ 54 - 1) * 2 ^ t := by
  obtain ⟨hlow, hhigh, htie, -⟩ := roundShift_spec m t
  have hpos := Nat.two_pow_pos t
  have hcast : (2 : Int) ^ t = ((2 ^ t : Nat) : Int) := by push_cast; rfl
  rw [hcast] at hlow hhigh htie
  generalize 2 ^ t = p at *
  generalize roundShift m t = q at *
  constructor
  · intro hq
    rcases Nat.mod_two_eq_zero_or_one q with heven | hodd
    · have : q * p ≤ (2 ^ 53 - 2) * p := Nat.mul_le_mul_right p (by omega)
      omega
    · have : q * p ≤ (2 ^ 53 - 1) * p := Nat.mul_le_mul_right p (by omega)
      omega
  · intro hm
    by_contra hq
    obtain rfl : q = 2 ^ 53 := by omega
    omega

/-- A magnitude rounds to a finite one exactly below half a last place past the largest of them
(R77: overflow). -/
theorem roundF64_finite_iff (m k : Nat) :
    ((roundPlace m k - k) <<< 52) + roundShift m (roundPlace m k) < infMagnitude ↔
      m < overflowUnits <<< k := by
  have hle := roundShift_le m k
  have hcarry := roundShift_lt_iff hle
  have hlt := lt_roundPlace m k
  have hcases := roundPlace_cases m k
  have hquot := (roundShift_spec m (roundPlace m k)).2.2.2
  have hdiv := Nat.div_mul_le_self m (2 ^ roundPlace m k)
  obtain ⟨e, he⟩ := Nat.exists_eq_add_of_le' (le_roundPlace m k)
  rw [overflowUnits_shiftLeft, Nat.shiftLeft_eq, infMagnitude]
  generalize roundPlace m k = t at *
  rcases Nat.lt_trichotomy e 2045 with hsmall | hlast | hbig
  · have hpow : 2 ^ t ≤ 2 ^ (2044 + k) := Nat.pow_le_pow_right (by decide) (by omega)
    generalize 2 ^ t = p at *
    generalize 2 ^ (2044 + k) = h at *
    omega
  · have hpow : 2 ^ t = 2 ^ (2044 + k) * 2 := by rw [← Nat.pow_succ]; congr 1; omega
    rw [hpow] at hcarry
    generalize 2 ^ (2044 + k) = h at *
    omega
  · have hpow : 2 ^ (2044 + k) * 2 ^ 2 ≤ 2 ^ t := by
      rw [← Nat.pow_add]
      exact Nat.pow_le_pow_right (by decide) (by omega)
    have hbits : 2 ^ 52 ≤ m / 2 ^ t := hcases.resolve_left (by omega)
    have hm : 2 ^ 52 * 2 ^ t ≤ m := (Nat.mul_le_mul_right _ hbits).trans hdiv
    generalize m / 2 ^ t = d at *
    generalize 2 ^ t = p at *
    generalize 2 ^ (2044 + k) = h at *
    omega

/-! ### Rounding is to nearest, a tie to even -/

/-- No multiple of the place is nearer than the rounded integer, and where another is as near, the
rounded integer is even. -/
theorem roundShift_nearest (m t : Nat) (j : Int) :
    ((roundShift m t : Int) * 2 ^ t - m).natAbs ≤ (j * 2 ^ t - m).natAbs ∧
    (((roundShift m t : Int) * 2 ^ t - m).natAbs = (j * 2 ^ t - m).natAbs →
      j ≠ roundShift m t → roundShift m t % 2 = 0) := by
  obtain ⟨hlow, hhigh, htie, -⟩ := roundShift_spec m t
  push_cast at hlow hhigh htie
  have hpos : (0 : Int) < 2 ^ t := by positivity
  generalize (2 : Int) ^ t = p at *
  generalize roundShift m t = q at *
  rcases lt_trichotomy j q with hj | rfl | hj
  · have hstep : (j + 1) * p ≤ q * p := Int.mul_le_mul_of_nonneg_right hj hpos.le
    rw [Int.add_mul, Int.one_mul] at hstep
    generalize j * p = b at *
    generalize (q : Int) * p = a at *
    omega
  · exact ⟨le_rfl, fun _ h => absurd rfl h⟩
  · have hstep : (q + 1) * p ≤ j * p := Int.mul_le_mul_of_nonneg_right hj hpos.le
    rw [Int.add_mul, Int.one_mul] at hstep
    generalize j * p = b at *
    generalize (q : Int) * p = a at *
    omega

/-- A finite value is a multiple of the place that `m` is rounded at, but where it is below the least
number of 53 bits at that place, which `m` is not (R55). -/
theorem finite_at_roundPlace {y : F64} {neg : Bool} {u : Nat} (h : classify y = .fin neg u)
    (m k : Nat) :
    2 ^ roundPlace m k ∣ u * 2 ^ k ∨
      u * 2 ^ k < 2 ^ 52 * 2 ^ roundPlace m k ∧ 2 ^ 52 * 2 ^ roundPlace m k ≤ m := by
  rcases roundPlace_cases m k with hplace | hbits
  · rw [hplace]
    exact .inl (Nat.dvd_mul_left _ _)
  · obtain ⟨q, e, hq, -, rfl⟩ := fin_units h
    rw [Nat.mul_assoc, ← Nat.pow_add]
    by_cases he : roundPlace m k ≤ e + k
    · exact .inl ((Nat.pow_dvd_pow 2 he).mul_left q)
    · refine .inr ⟨?_, (Nat.mul_le_mul_right _ hbits).trans (Nat.div_mul_le_self _ _)⟩
      calc q * 2 ^ (e + k)
        _ < 2 ^ 53 * 2 ^ (e + k) := Nat.mul_lt_mul_of_pos_right hq (Nat.two_pow_pos _)
        _ = 2 ^ 52 * 2 ^ (e + k + 1) := by rw [Nat.pow_succ 2 (e + k)]; omega
        _ ≤ 2 ^ 52 * 2 ^ roundPlace m k :=
          Nat.mul_le_mul_left _ (Nat.pow_le_pow_right (by decide) (by omega))

theorem signedUnits_eq_or (neg : Bool) (u : Nat) :
    signedUnits neg u = u ∨ signedUnits neg u = -(u : Int) := by
  cases neg
  · exact .inl rfl
  · exact .inr rfl

/-- No finite value is nearer than the rounded integer at its place, and where another is as near, the
rounded integer is even (R77). -/
theorem roundShift_nearest_finite {y : F64} {neg : Bool} {u : Nat} (h : classify y = .fin neg u)
    (m k : Nat) :
    let rounded : Int := roundShift m (roundPlace m k) * 2 ^ roundPlace m k
    (rounded - m).natAbs ≤ (signedUnits neg u * 2 ^ k - m).natAbs ∧
    ((rounded - m).natAbs = (signedUnits neg u * 2 ^ k - m).natAbs →
      signedUnits neg u * 2 ^ k ≠ rounded → roundShift m (roundPlace m k) % 2 = 0) := by
  dsimp only
  rcases finite_at_roundPlace h m k with ⟨j, hj⟩ | ⟨hbelow, hm⟩
  · obtain ⟨i, hi⟩ : ∃ i : Int, signedUnits neg u * 2 ^ k = i * 2 ^ roundPlace m k := by
      have hj' : (u : Int) * 2 ^ k = j * 2 ^ roundPlace m k := by
        rw [Int.mul_comm (j : Int)]
        exact_mod_cast hj
      rcases signedUnits_eq_or neg u with hs | hs
      · exact ⟨j, by rw [hs, hj']⟩
      · exact ⟨-j, by rw [hs, Int.neg_mul, Int.neg_mul, hj']⟩
    obtain ⟨hnear, htie⟩ := roundShift_nearest m (roundPlace m k) i
    rw [hi]
    exact ⟨hnear, fun heq hne => htie heq fun h => hne (by rw [h])⟩
  · obtain ⟨hnear, -⟩ := roundShift_nearest m (roundPlace m k) (2 ^ 52)
    have hbelow' : signedUnits neg u * 2 ^ k < 2 ^ 52 * 2 ^ roundPlace m k := by
      have hu : (u : Int) * 2 ^ k < 2 ^ 52 * 2 ^ roundPlace m k := by exact_mod_cast hbelow
      have hnonneg : 0 ≤ (u : Int) * 2 ^ k := by positivity
      rcases signedUnits_eq_or neg u with hs | hs
      · rwa [hs]
      · rw [hs, Int.neg_mul]
        omega
    have hm' : (2 : Int) ^ 52 * 2 ^ roundPlace m k ≤ m := by exact_mod_cast hm
    generalize (2 : Int) ^ 52 * 2 ^ roundPlace m k = c at *
    generalize signedUnits neg u * 2 ^ k = v at *
    omega

/-! ### Rounding to binary64 is correct -/

theorem signedUnits_not (neg : Bool) (u : Nat) : signedUnits (!neg) u = -signedUnits neg u := by
  cases neg <;> simp [signedUnits]

/-- Rounding a negative number mirrors rounding its magnitude, and turns the finite values with it. -/
theorem natAbs_scaled_sub_signedUnits (neg neg' : Bool) (u m k : Nat) :
    (signedUnits neg' u * 2 ^ k - signedUnits neg m).natAbs =
      (signedUnits (neg ^^ neg') u * 2 ^ k - m).natAbs := by
  cases neg with
  | false => rw [Bool.false_xor, signedUnits_false]
  | true =>
    rw [Bool.true_xor, signedUnits_not, show signedUnits true m = -(m : Int) from rfl,
      ← Int.natAbs_neg]
    congr 1
    rw [Int.neg_mul]
    omega

theorem signedUnits_eq_of_xor {neg neg' : Bool} {u w : Nat} (h : signedUnits (neg ^^ neg') u = w) :
    signedUnits neg' u = signedUnits neg w := by
  cases neg with
  | false => rwa [Bool.false_xor] at h
  | true =>
    rw [Bool.true_xor, signedUnits_not] at h
    rw [← Int.neg_neg (signedUnits neg' u), h]
    rfl

/-- The last bit of a pattern is that of its magnitude. -/
theorem getLsbD_zero_packF64 (neg : Bool) {m : Nat} (h : m < 2 ^ 63) :
    (packF64 neg m).getLsbD 0 = decide (m % 2 = 1) := by
  rw [BitVec.getLsbD, packF64_toNat neg h, Nat.testBit_zero, decide_eq_decide]
  cases neg <;> simp
  omega

/-- Where a rounding is finite, its last bit is that of the rounded integer. -/
theorem getLsbD_zero_roundF64 (neg : Bool) {m k : Nat}
    (h : ((roundPlace m k - k) <<< 52) + roundShift m (roundPlace m k) < infMagnitude) :
    (roundF64 neg m k).getLsbD 0 = decide (roundShift m (roundPlace m k) % 2 = 1) := by
  unfold roundF64
  dsimp only
  rw [Nat.min_eq_left (Nat.le_of_lt h), getLsbD_zero_packF64 neg (h.trans (by decide)),
    Nat.shiftLeft_eq, decide_eq_decide]
  omega

/-- The units of a rounding, counted as what was rounded is. -/
theorem roundShift_scaled (m k : Nat) :
    ((roundShift m (roundPlace m k) <<< (roundPlace m k - k) : Nat) : Int) * 2 ^ k =
      roundShift m (roundPlace m k) * 2 ^ roundPlace m k := by
  rw [Nat.shiftLeft_eq, Nat.cast_mul, Nat.cast_pow, Nat.cast_ofNat, Int.mul_assoc, ← Int.pow_add,
    Nat.sub_add_cancel (le_roundPlace m k)]

/-- The model's rounding is to nearest, a tie to even, and to an infinity past the finite range
(R77). -/
theorem isRounded_roundF64 (neg : Bool) (m k : Nat) :
    IsRounded (signedUnits neg m) k (roundF64 neg m k) := by
  unfold IsRounded
  rw [classify_roundF64, natAbs_signedUnits]
  split_ifs with hfinite
  · refine ⟨(roundF64_finite_iff m k).mp hfinite, fun y neg' u hy => ?_⟩
    obtain ⟨y', hy'⟩ : ∃ y', classify y' = .fin (neg ^^ neg') u := by
      cases neg with
      | false => exact ⟨y, by rw [hy, Bool.false_xor]⟩
      | true => exact ⟨fneg y, by rw [classify_fneg, hy, Bool.true_xor]⟩
    obtain ⟨hnear, htie⟩ := roundShift_nearest_finite hy' m k
    dsimp only
    rw [natAbs_scaled_sub_signedUnits, natAbs_scaled_sub_signedUnits, Bool.xor_self,
      signedUnits_false, roundShift_scaled]
    refine ⟨hnear, fun heq hne => ?_⟩
    have hne' : signedUnits (neg ^^ neg') u * 2 ^ k ≠
        (roundShift m (roundPlace m k) : Int) * 2 ^ roundPlace m k := by
      rw [← roundShift_scaled]
      exact fun h => hne (signedUnits_eq_of_xor (mul_right_cancel₀ (by positivity) h))
    rw [getLsbD_zero_roundF64 neg hfinite, htie heq hne']
    rfl
  · have hover := Nat.le_of_not_lt (mt (roundF64_finite_iff m k).mpr hfinite)
    refine ⟨hover, (signedUnits_neg ?_).symm⟩
    rintro rfl
    rw [overflowUnits_shiftLeft] at hover
    have := Nat.two_pow_pos (2044 + k)
    omega

/-- A rounding has the sign it was given, a zero and an infinity too (R77). -/
theorem f64Sign_roundF64 (neg : Bool) (m k : Nat) : f64Sign (roundF64 neg m k) = neg :=
  f64Sign_packF64 neg ((Nat.min_le_right _ _).trans_lt (by decide))

/-! ### The operations -/

theorem signedUnits_natAbs (x : Int) : signedUnits (decide (x < 0)) x.natAbs = x := by
  unfold signedUnits
  split_ifs with h
  · have := of_decide_eq_true h
    omega
  · have := of_decide_eq_false (Bool.eq_false_iff.mpr h)
    omega

theorem signedUnits_mul (s s' : Bool) (u u' : Nat) :
    signedUnits s u * signedUnits s' u' = signedUnits (s ^^ s') (u * u') := by
  cases s <;> cases s' <;> simp [signedUnits]

/-- Settles O49: an exact sum of zero is the rounding of a zero, and any other of itself. -/
theorem sumIsCorrectlyRounded : Obligations.SumIsCorrectlyRounded := by
  intro n a b sa sb ua ub ha hb
  rw [fadd_fin ha hb]
  split_ifs with hzero
  · rw [hzero, ← roundF64_zero _ 0]
    have hround := isRounded_roundF64 (sa && sb) 0 0
    rwa [signedUnits_eq_zero.mpr rfl] at hround
  · have hround := isRounded_roundF64 (decide (signedUnits sa ua + signedUnits sb ub < 0))
      (signedUnits sa ua + signedUnits sb ub).natAbs 0
    rwa [signedUnits_natAbs] at hround

/-- Settles O56: a difference is the sum with the negated operand. -/
theorem differenceIsCorrectlyRounded : Obligations.DifferenceIsCorrectlyRounded := by
  intro n a b sa sb ua ub ha hb
  have hneg : classify (fneg b) = .fin (!sb) ub := by rw [classify_fneg, hb]
  rw [Int.sub_eq_add_neg, ← signedUnits_not]
  exact sumIsCorrectlyRounded n a (fneg b) sa (!sb) ua ub ha hneg

/-- Settles O50: the exact product counts units of 2^-2148. -/
theorem productIsCorrectlyRounded : Obligations.ProductIsCorrectlyRounded := by
  intro n a b sa sb ua ub ha hb
  rw [fmul_fin ha hb, signedUnits_mul]
  exact ⟨isRounded_roundF64 _ _ _, f64Sign_roundF64 _ _ _⟩

/-- `f64_of_int` is exact at 2^53 too: the carry out of 53 bits moves the exponent up (R77). -/
theorem classify_f64OfNat_two_pow : classify (f64OfNat (2 ^ 53)) = .fin false (2 ^ 53 <<< 1074) := by
  have hvalue : classify (packF64 false ((1074 <<< 52) + 2 ^ 53)) = .fin false (2 ^ 53 <<< 1074) :=
    classify_packF64_scaled false 1074 (2 ^ 53) le_rfl (.inr (by decide)) (by decide)
  rw [f64OfNat, roundF64_units hvalue, hvalue]

/-- The units of a scaled integer, as a product. -/
theorem fin_shiftLeft (neg : Bool) (u e : Nat) :
    F64Class.fin neg (u <<< e) = .fin neg (u * 2 ^ e) := by
  rw [Nat.shiftLeft_eq]

/-- Settles O53: below 2^53 the integer fits the 53 bits, and 2^53 is a power of two. -/
theorem integersConvertExactly : Obligations.IntegersConvertExactly := by
  intro k hk
  have hexact : classify (f64OfNat k) = .fin false (k <<< 1074) := by
    rcases Nat.lt_or_eq_of_le hk with hlt | rfl
    · exact classify_f64OfNat hlt
    · exact classify_f64OfNat_two_pow
  refine ⟨hexact.trans (fin_shiftLeft false k 1074), ?_⟩
  rw [truncF64, hexact]
  exact Nat.shiftLeft_shiftRight k 1074

end Sys2Proof.Machine
end

section
/-! The receiver byte by byte (R95, R96, R98): what the end of a frame does, at which state a byte
commits the instruction it completes, and how the bytes of a payload come to stand in the staging
buffer. -/

namespace Sys2Proof.Machine

/-! ### The end of a frame -/

/-- RxEnd in `IDLE` (R96). -/
theorem rxEnd_idle {s : State} (hs : s.rxState = .idle) : s.rxEnd = s := by simp [State.rxEnd, hs]

/-- RxEnd in `DISCARD` (R96). -/
theorem rxEnd_discard {s : State} (hs : s.rxState = .discard) :
    s.rxEnd = { s with rxState := .idle } := by simp [State.rxEnd, hs]

/-- RxEnd in `PAYLOAD` (R96). -/
theorem rxEnd_payload {s : State} (hs : s.rxState = .payload) :
    s.rxEnd = { s.logMessage Config.params shortFrameCode s.rxOp with
      rxState := .idle, rxCnt := 0 } := by simp [State.rxEnd, hs]

/-- Settles O10: a short frame is logged as the room in the queue allows. -/
theorem frameEndDropsAShortFrame : Obligations.FrameEndDropsAShortFrame := by
  intro s rest hi
  rw [step_input hi, accept]
  cases s.rxState with
  | idle => rw [rxEnd_idle rfl]
  | discard => rw [rxEnd_discard rfl]
  | payload =>
    rw [rxEnd_payload rfl]
    dsimp only
    split_ifs with hroom
    · rw [logMessage_room _ _ _ _ (by exact hroom)]
      rfl
    · rw [logMessage_full _ _ _ _ (by exact hroom)]
      rfl

/-! ### One byte of a defined opcode's frame -/

theorem vector_set_eq_setIfInBounds {α : Type} {n : Nat} (v : Vector α n) (i : Nat) (x : α)
    (h : i < n) : v.set i x h = v.setIfInBounds i x := by
  rw [← Vector.toList_inj, Vector.toList_set, Vector.toList_setIfInBounds]

/-- The first byte of a frame that decodes is the opcode of its instruction (R48, R56). -/
theorem code_of_decode {op : Byte} {l rest : List Byte} {i : Instr}
    (h : decode (op :: l) = .ok (i, rest)) : i.opcode.code = op := by
  have hframe := decodedBytesAreTheFrame _ _ _ h
  rw [encode, List.cons_append] at hframe
  exact (List.cons.inj hframe).1.symm

section byte
variable {s : State} {b : Byte} {rest : List Input} (hi : s.inputs = .rxByte b :: rest)
include hi

/-- A defined opcode in `IDLE` commits a frame without payload, or opens its payload (R95). -/
theorem step_opcode {o : Opcode} (hs : s.rxState = .idle) (ho : opcodeOf b = some o) : step s =
    if o.len = 0 then commit (o.instr (stagedByte s.rxBuf)) { s with inputs := rest }
    else .next { s with inputs := rest, rxOp := b, rxCnt := 0, rxState := .payload } := by
  simp [step_input hi, accept, rxByte, hs, rxByteIdle, ho]

/-- A payload byte of a defined opcode is staged, and the last one commits (R95). -/
theorem step_payloadByte {o : Opcode} (hs : s.rxState = .payload) (ho : opcodeOf s.rxOp = some o)
    (hcnt : s.rxCnt < o.len) : step s =
    if s.rxCnt + 1 = o.len then
      commit (o.instr (stagedByte (s.rxBuf.setIfInBounds s.rxCnt b))) { s with
        inputs := rest
        rxBuf := s.rxBuf.setIfInBounds s.rxCnt b
        rxState := .idle
        rxCnt := 0 }
    else .next { s with
      inputs := rest
      rxBuf := s.rxBuf.setIfInBounds s.rxCnt b
      rxCnt := s.rxCnt + 1 } := by
  have hroom : s.rxCnt < 8 := hcnt.trans_le (opcode_len_le o)
  simp [step_input hi, accept, rxByte, hs, rxBytePayload, ho, hroom, vector_set_eq_setIfInBounds]

/-- The byte that completes an instruction in `IDLE` commits it as the state stands (R95). -/
theorem step_completes_idle {i : Instr} (hs : s.rxState = .idle) (hc : s.completes b = some i) :
    step s = commit i { s with inputs := rest } := by
  obtain ⟨o, ho, hlen, rfl⟩ := (completes_idle s b hs i).mp hc
  rw [step_opcode hi hs ho, if_pos hlen]

/-- The byte that completes an instruction in `PAYLOAD` is staged, and commits it from `IDLE`
(R95). -/
theorem step_completes_payload {i : Instr} (hs : s.rxState = .payload)
    (hc : s.completes b = some i) : step s = commit i { s with
      inputs := rest
      rxBuf := s.rxBuf.setIfInBounds s.rxCnt b
      rxState := .idle
      rxCnt := 0 } := by
  obtain ⟨o, ho, hroom, hlen, rfl⟩ := (completes_payload s b hs i).mp hc
  rw [step_payloadByte hi hs ho (by omega), if_pos hlen, vector_set_eq_setIfInBounds]

end byte

/-- Settles O6: the byte completes the instruction, so it commits it. -/
theorem stepRunsTheDecodedInstruction : Obligations.StepRunsTheDecodedInstruction := by
  intro s b rest i hi
  refine ⟨fun hs hd => ?_, fun hs hd => ?_⟩
  · have hc : s.completes b = some i :=
      (completes_iff _ _ _).mpr ⟨[b], by simp only [State.frameWith, hs], hd⟩
    rw [step_completes_idle hi hs hc, commit, code_of_decode hd]
    rfl
  · have hc : s.completes b = some i :=
      (completes_iff _ _ _).mpr ⟨_, by simp only [State.frameWith, hs], hd⟩
    rw [step_completes_payload hi hs hc, commit, code_of_decode hd]
    rfl

/-! ### A whole payload -/

/-- Bytes staged one after another stand in the buffer in their order, and the rest of the buffer is
as it was (R54, R95). -/
theorem toList_stageFrom : ∀ (bs : List Byte) (buf : Vector Byte 8) (k : Nat), k + bs.length ≤ 8 →
    (stageFrom buf k bs).toList = buf.toList.take k ++ bs ++ buf.toList.drop (k + bs.length)
  | [], buf, k, _ => by simp [stageFrom]
  | b :: bs, buf, k, h => by
    rw [List.length_cons] at h
    have hk : k < buf.toList.length := by rw [Vector.length_toList]; omega
    have htake : (buf.toList.set k b).take (k + 1) = buf.toList.take k ++ [b] := by
      rw [List.take_add_one, List.take_set_of_le le_rfl, List.getElem?_set_self hk,
        Option.toList_some]
    have hdrop : (buf.toList.set k b).drop (k + 1 + bs.length) =
        buf.toList.drop (k + 1 + bs.length) := List.drop_set_of_lt (by omega)
    rw [stageFrom, toList_stageFrom bs _ (k + 1) (by omega), Vector.toList_setIfInBounds, htake,
      hdrop]
    simp [Nat.add_comm bs.length 1, ← Nat.add_assoc]

/-- Every payload fits the staging buffer (R26, R49). -/
theorem length_payload_le (i : Instr) : i.payload.length ≤ 8 :=
  (length_payload i).trans_le (opcode_len_le _)

/-- The payload of an instruction, staged from the front of the buffer, is read back as the
instruction (R54). -/
theorem instr_stageFrom (i : Instr) (buf : Vector Byte 8) :
    i.opcode.instr (stagedByte (stageFrom buf 0 i.payload)) = i := by
  have hlen := length_payload i
  have hbuf := toList_stageFrom i.payload buf 0 (by simpa using length_payload_le i)
  refine (instr_congr _ _ _ fun j hj => ?_).trans (instr_payload i)
  rw [stagedByte, ← Vector.getElem?_toList, hbuf]
  simp [List.getElem?_append_left, hlen, hj]

/-- A run over the bytes that a payload still lacks stages them and commits with the last (R95). -/
theorem run_payload (o : Opcode) (rest : List Input) : ∀ (bs : List Byte) (s : State), bs ≠ [] →
    s.rxState = .payload → opcodeOf s.rxOp = some o → s.rxCnt + bs.length = o.len →
    s.inputs = bs.map .rxByte ++ rest →
    run bs.length s = commit (o.instr (stagedByte (stageFrom s.rxBuf s.rxCnt bs)))
      { s with
        inputs := rest
        rxState := .idle
        rxCnt := 0
        rxBuf := stageFrom s.rxBuf s.rxCnt bs }
  | [], _, h, _, _, _, _ => absurd rfl h
  | [b], s, _, hs, ho, hlen, hi => by
    rw [List.length_singleton] at hlen
    rw [List.length_singleton, run_one, step_payloadByte hi hs ho (Nat.lt_of_succ_le hlen.le),
      if_pos hlen]
    rfl
  | b :: b' :: bs, s, _, hs, ho, hlen, hi => by
    rw [List.length_cons, List.length_cons] at hlen
    have hstaged := step_payloadByte hi hs ho (by omega)
    rw [if_neg (by omega)] at hstaged
    rw [List.length_cons, run_succ _ hstaged]
    have hleft : s.rxCnt + 1 + (b' :: bs).length = o.len := by rw [List.length_cons]; omega
    exact run_payload o rest (b' :: bs) _ (by simp) hs ho hleft rfl

/-- Settles O7: a frame without payload commits with its opcode byte; any other opens its payload
with it, and the run over the payload does the rest. -/
theorem deliveredFrameCommitsItsInstruction : Obligations.DeliveredFrameCommitsItsInstruction := by
  intro i s rest hs hi
  have ho : opcodeOf i.opcode.code = some i.opcode := opcodeOf_code _
  have hlen := length_payload i
  by_cases hp : i.payload = []
  · refine ⟨s.rxOp, s.rxCnt, s.rxBuf, ?_, fun _ => ⟨rfl, rfl, rfl⟩, fun h => absurd hp h⟩
    have hframe : encode i = [i.opcode.code] := by rw [encode, hp]
    rw [hframe] at hi ⊢
    have hd : decode [i.opcode.code] = .ok (i, []) := by
      simpa [hframe] using decodeOfEncodeIsTheInstruction i []
    obtain ⟨hidle, -⟩ := stepRunsTheDecodedInstruction s _ rest i hi
    exact (run_one s).trans (hidle hs hd)
  · refine ⟨i.opcode.code, 0, stageFrom s.rxBuf 0 i.payload, ?_, fun h => absurd h hp, fun _ =>
      ⟨rfl, rfl, ?_⟩⟩
    · have hopens := step_opcode hi hs ho
      rw [if_neg fun h => hp (List.length_eq_zero_iff.mp (hlen.trans h))] at hopens
      rw [encode, List.length_cons, run_succ _ hopens,
        run_payload i.opcode rest i.payload _ hp rfl ho (by simp [hlen]) rfl, instr_stageFrom,
        commit, State.emit, hs]
    · simpa using toList_stageFrom i.payload s.rxBuf 0 (by simpa using length_payload_le i)

end Sys2Proof.Machine
end

section
/-! Which events a step appends to the history (R83 to R87, R113, R117): the annunciator's events
are told apart from those that a channel shows, and each has its place in the Tick or the commit
that emits it. -/

namespace Sys2Proof.Machine

/-! ### The events of the operations -/

/-- The next input is a Tick. -/
def State.takesTick (s : State) : Prop := ∃ mA mB, s.inputs.head? = some (.tick mA mB)

/-- All the events are about a channel, a measurement or a write of its latches: none is the
annunciator's. -/
def ChannelEvents (l : List Event) : Prop := ∀ e ∈ l, e.channel ≠ none

/-- An event that is about no channel is not among the channels' events. -/
theorem ChannelEvents.not_mem {l : List Event} (h : ChannelEvents l) {e : Event}
    (he : e.channel = none) : e ∉ l := fun hmem => h e hmem he

theorem channelEvents_nil : ChannelEvents [] := fun _ h => by cases h

theorem ChannelEvents.append {l l' : List Event} (h : ChannelEvents l) (h' : ChannelEvents l') :
    ChannelEvents (l ++ l') := fun e he => (List.mem_append.mp he).elim (h e) (h' e)

theorem channelEvents_phaseTwo (s p : State) (mA mB : Measurement) :
    ChannelEvents (phaseTwoEvents s p .a mA ++ phaseTwoEvents s p .b mB) := fun e he => by
  rcases List.mem_append.mp he with he | he <;> simp [channel_of_mem_phaseTwoEvents he]

/-- A command shows its writes to the latches, and RESET shows `AnnReset` after them (R76, R87,
R104). -/
theorem exec_events {i : Instr} {s t : State} (h : exec i s = .next t) :
    ∃ writes, ChannelEvents writes ∧
      Appended s t (writes ++ if i = .reset then [.annReset] else []) := by
  rcases exec_cases h with ⟨hi, rfl⟩ | ⟨rfl, hr⟩ | ⟨x, rfl, rfl⟩ | ⟨ch, cle, idx, rfl, rfl⟩ |
    ⟨f, hi, rfl, -⟩ | ⟨rfl, rfl⟩ | ⟨rfl, rfl⟩
  · have hne : i ≠ .reset := by rcases hi with rfl | rfl <;> decide
    refine ⟨[.pwmWrite .a 0#16 s.chA.dirOut.bit, .pwmWrite .b 0#16 s.chB.dirOut.bit],
      by simp [ChannelEvents, Event.channel], ?_⟩
    simp [hne, Appended, forceStop_eq]
  · rw [execReset_eq] at hr
    cases hr
    refine ⟨[.pwmWrite .a 0#16 s.chA.dirOut.bit, .pwmWrite .b 0#16 s.chB.dirOut.bit,
      .pwmWrite .a 0#16 0#1, .pwmWrite .b 0#16 0#1], by simp [ChannelEvents, Event.channel], ?_⟩
    simp [Appended]
  · exact ⟨[], channelEvents_nil, by simp [Appended]⟩
  · exact ⟨[], channelEvents_nil, by simp [Appended]⟩
  · have hne : i ≠ .reset := by rintro rfl; cases hi
    refine ⟨[], channelEvents_nil, ?_⟩
    rcases writeAddressed_cases s f with ⟨-, h⟩ | ⟨-, h⟩ <;> rw [h] <;> simp [hne, Appended]
  · exact ⟨[], channelEvents_nil, by simp [Appended, State.setReply]⟩
  · exact ⟨[], channelEvents_nil, by simp [Appended]⟩

/-- A protocol error shows one event (R112). -/
@[simp] theorem logMessage_history (s : State) (P : Params) (code detail : Byte) :
    (s.logMessage P code detail).history = s.history ++ [.annProtoError code detail] := by
  rcases logMessage_cases s P code detail with ⟨-, h⟩ | ⟨-, h⟩ <;> rw [h]

/-! ### The events of a step -/

/-- What makes the next step report the protocol error `code` with `detail`: an unknown opcode in
`IDLE`, or a frame end in `PAYLOAD` (R113, R117). -/
def State.ReportsNext (s : State) (code detail : Byte) : Prop :=
  (s.rxState = .idle ∧ code = unknownOpcodeCode ∧ opcodeOf detail = none ∧
    s.inputs.head? = some (.rxByte detail)) ∨
  (s.rxState = .payload ∧ code = shortFrameCode ∧ detail = s.rxOp ∧ s.inputs.head? = some .rxEnd)

/-- What the next step of `s` shows, by what takes place in it. -/
inductive StepEvents (s : State) : List Event → Prop
  | silent (hc : s.nextCommit = none) (ht : ¬ s.takesTick) : StepEvents s []
  | replyRead (b : Byte) (hc : s.nextCommit = none) (ht : ¬ s.takesTick) : StepEvents s [.txByte b]
  | protoError (code detail : Byte) (hc : s.nextCommit = none) (ht : ¬ s.takesTick)
      (hr : s.ReportsNext code detail) : StepEvents s [.annProtoError code detail]
  | tick (hc : s.nextCommit = none) (ht : s.takesTick) (writes : List Event)
      (hw : ChannelEvents writes) :
      StepEvents s (.annRefresh ::
        (writes ++ if s.armed = true ∧ s.wdCount = 0#16 then [.annExpired] else []))
  | commit (i : Instr) (hc : s.nextCommit = some i) (ht : ¬ s.takesTick) (writes : List Event)
      (hw : ChannelEvents writes) :
      StepEvents s (.annActivity i.opcode.code ::
        (writes ++ if i = .reset then [.annReset] else []))

theorem not_takesTick {s : State} {i : Input} {rest : List Input} (hi : s.inputs = i :: rest)
    (h : i.isTick = false) : ¬ s.takesTick := by
  rintro ⟨mA, mB, ht⟩
  rw [hi] at ht
  cases ht
  cases h

/-- A Tick shows phases 1 and 2, and `AnnExpired` after the stop where the watchdog expires (R63,
R90). -/
theorem tick_events {s t : State} {mA mB : Measurement} {rest : List Input}
    (hi : s.inputs = .tick mA mB :: rest) (h : step s = .next t) :
    ∃ l, Appended s t l ∧ StepEvents s l := by
  have hc : s.nextCommit = none := nextCommit_none (by simp [hi])
  have ht : s.takesTick := ⟨mA, mB, by simp [hi]⟩
  obtain ⟨p, hp, hcounts, hexpires⟩ := step_tick_cases hi
  have hphase := channelEvents_phaseTwo s p mA mB
  by_cases hx : s.armed = true ∧ s.wdCount = 0#16
  · cases (hexpires hx.1 hx.2).symm.trans h
    refine ⟨_, ?_, .tick hc ht (_ ++ [.pwmWrite .a 0#16 p.chA.dirOut.bit,
      .pwmWrite .b 0#16 p.chB.dirOut.bit]) (hphase.append (by simp [ChannelEvents, Event.channel]))⟩
    simp [Appended, State.expired, hp.history, hx]
  · cases (hcounts s.wdCount hx).symm.trans h
    refine ⟨_, ?_, .tick hc ht _ hphase⟩
    simp [Appended, hp.history, hx]

/-- RxByte shows the commit of the instruction it completes, an unknown opcode, or nothing (R95). -/
theorem rxByte_events {s t : State} {b : Byte} {rest : List Input}
    (hi : s.inputs = .rxByte b :: rest) (h : rxByte b { s with inputs := rest } = .next t) :
    ∃ l, Appended s t l ∧ StepEvents s l := by
  have hnext := nextCommit_rxByte hi
  have ht : ¬ s.takesTick := not_takesTick hi rfl
  rcases rxByte_cases h with ⟨i, buf, cnt, hc, he, -, -⟩ |
    ⟨hc, ⟨hs, ho, rfl⟩ | ⟨op, buf, cnt, o, rfl, -, -, -⟩ | ⟨-, rfl⟩⟩
  · obtain ⟨writes, hw, happended⟩ := exec_events he
    refine ⟨_, ?_, .commit i (hnext.trans hc) ht writes hw⟩
    exact happended.trans (by simp)
  · refine ⟨_, by simp [Appended], .protoError unknownOpcodeCode b (hnext.trans hc) ht
      (.inl ⟨hs, rfl, ho, by simp [hi]⟩)⟩
  · exact ⟨[], by simp [Appended], .silent (hnext.trans hc) ht⟩
  · exact ⟨[], by simp [Appended], .silent (hnext.trans hc) ht⟩

/-- RxEnd shows a short frame, or nothing (R96). -/
theorem rxEnd_events {s : State} {rest : List Input} (hi : s.inputs = .rxEnd :: rest) :
    ∃ l, Appended s (State.rxEnd { s with inputs := rest }) l ∧ StepEvents s l := by
  have hc : s.nextCommit = none := nextCommit_none (by simp [hi])
  have ht : ¬ s.takesTick := not_takesTick hi rfl
  cases hs : s.rxState with
  | idle => exact ⟨[], by simp [Appended, rxEnd_idle], .silent hc ht⟩
  | discard => exact ⟨[], by simp [Appended, rxEnd_discard], .silent hc ht⟩
  | payload =>
    refine ⟨_, by simp [Appended, rxEnd_payload], .protoError shortFrameCode s.rxOp hc ht
      (.inr ⟨hs, rfl, rfl, by simp [hi]⟩)⟩

/-- Every step that answers a next state appends the events of what takes place in it (R37). -/
theorem step_events {s t : State} (h : step s = .next t) :
    ∃ l, Appended s t l ∧ StepEvents s l := by
  rcases step_cases h with ⟨hi, rfl⟩ | ⟨mA, mB, rest, hi, -⟩ | ⟨b, rest, hi, hb⟩ |
    ⟨rest, hi, rfl⟩ | ⟨rest, hi, rfl⟩
  · exact ⟨[], by simp [Appended], .silent (nextCommit_none (by simp [hi]))
      (by simp [State.takesTick, hi])⟩
  · exact tick_events hi h
  · exact rxByte_events hi hb
  · exact rxEnd_events hi
  · have hc : s.nextCommit = none := nextCommit_none (by simp [hi])
    have ht : ¬ s.takesTick := not_takesTick hi rfl
    rcases txRead_cases { s with inputs := rest } with ⟨b, -, hread⟩ | ⟨-, hread⟩ <;> rw [hread]
    · exact ⟨_, rfl, .replyRead b hc ht⟩
    · exact ⟨_, rfl, .replyRead 0x00#8 hc ht⟩

/-! ### The obligations -/

/-- Settles O12: of the five things that can take place in a step, one reports a protocol error, and
it shows nothing else. -/
theorem protocolErrorsHaveTwoSources : Obligations.ProtocolErrorsHaveTwoSources := by
  intro s t l code detail h happended hmem
  obtain ⟨l', happended', hl⟩ := step_events h
  obtain rfl : l = l' := List.append_cancel_left (happended.symm.trans happended')
  cases hl with
  | silent hc ht => cases hmem
  | replyRead b hc ht => simp at hmem
  | protoError code' detail' hc ht hr =>
    obtain ⟨rfl, rfl⟩ : code = code' ∧ detail = detail' := by simpa using hmem
    exact ⟨rfl, hr⟩
  | tick hc ht writes hw =>
    simp [hw.not_mem (e := .annProtoError code detail) rfl] at hmem
  | commit i hc ht writes hw =>
    simp [hw.not_mem (e := .annProtoError code detail) rfl] at hmem

/-- Settles O30: only a Tick shows `AnnRefresh`, and none of its later events is one. -/
theorem refreshIsEmittedOncePerTick : Obligations.RefreshIsEmittedOncePerTick := by
  intro s t h
  obtain ⟨l, happended, hl⟩ := step_events h
  refine ⟨l, happended, ?_⟩
  cases hl with
  | silent hc ht | replyRead b hc ht | protoError code detail hc ht hr =>
    exact ⟨fun h => absurd h ht, fun _ => by simp⟩
  | tick hc ht writes hw =>
    obtain ⟨mA, mB, hi⟩ := ht
    refine ⟨fun _ => ⟨rfl, ?_⟩, fun hn => absurd hi (hn mA mB)⟩
    rw [List.count_cons_self, List.count_eq_zero.mpr]
    simp [hw.not_mem (e := .annRefresh) rfl]
  | commit i hc ht writes hw =>
    refine ⟨fun h => absurd h ht, fun _ => List.count_eq_zero.mpr ?_⟩
    simp [hw.not_mem (e := .annRefresh) rfl]

/-- Settles O31: only a commit shows `AnnActivity`, and none of its later events is one. -/
theorem activityIsEmittedOncePerCommit : Obligations.ActivityIsEmittedOncePerCommit := by
  intro s t h
  obtain ⟨l, happended, hl⟩ := step_events h
  refine ⟨l, happended, ?_⟩
  cases hl with
  | silent hc ht | replyRead b hc ht | protoError code detail hc ht hr =>
    simp [hc]
  | tick hc ht writes hw =>
    refine ⟨by simp [hc], fun _ op => ?_⟩
    simp [hw.not_mem (e := .annActivity op) rfl]
  | commit i hc ht writes hw =>
    refine ⟨fun j hj => ?_, fun hn => by simp [hc] at hn⟩
    obtain rfl : i = j := Option.some.inj (hc.symm.trans hj)
    refine ⟨rfl, fun op => ?_⟩
    simp [hw.not_mem (e := .annActivity op) rfl]

/-- An event after others, none of which is the same, is the last and the only one of its kind. -/
theorem getLast?_count_snoc {first last : Event} {l : List Event} (hne : first ≠ last)
    (hl : last ∉ l) : (first :: (l ++ [last])).getLast? = some last ∧
      (first :: (l ++ [last])).count last = 1 := by
  rw [← List.cons_append]
  exact ⟨List.getLast?_concat, by simp [hne, List.count_eq_zero.mpr hl]⟩

/-- Settles O32: only a Tick that finds the armed block at count 0 shows `AnnExpired`, after all its
other events. -/
theorem expiryIsEmittedByTheExpiringTickAlone :
    Obligations.ExpiryIsEmittedByTheExpiringTickAlone := by
  intro s t h
  obtain ⟨l, happended, hl⟩ := step_events h
  refine ⟨l, happended, ?_⟩
  cases hl with
  | silent hc ht | replyRead b hc ht | protoError code detail hc ht hr =>
    exact ⟨fun ⟨h, _⟩ => absurd h ht, fun _ => by simp⟩
  | tick hc ht writes hw =>
    have hnot : .annExpired ∉ writes := hw.not_mem rfl
    by_cases hx : s.armed = true ∧ s.wdCount = 0#16
    · rw [if_pos hx]
      exact ⟨fun _ => getLast?_count_snoc (by simp) hnot, fun hn => absurd ⟨ht, hx⟩ hn⟩
    · refine ⟨fun ⟨_, h⟩ => absurd h hx, fun _ => ?_⟩
      simp [hx, hnot]
  | commit i hc ht writes hw =>
    refine ⟨fun ⟨h, _⟩ => absurd h ht, fun _ => ?_⟩
    simp [hw.not_mem (e := .annExpired) rfl]

/-- Settles O33: only the commit of RESET shows `AnnReset`, after all its other events. -/
theorem annResetIsEmittedByResetAlone : Obligations.AnnResetIsEmittedByResetAlone := by
  intro s t h
  obtain ⟨l, happended, hl⟩ := step_events h
  refine ⟨l, happended, ?_⟩
  cases hl with
  | silent hc ht | replyRead b hc ht | protoError code detail hc ht hr =>
    simp [hc]
  | tick hc ht writes hw =>
    refine ⟨by simp [hc], fun _ => ?_⟩
    simp [hw.not_mem (e := .annReset) rfl]
  | commit i hc ht writes hw =>
    have hnot : .annReset ∉ writes := hw.not_mem rfl
    rw [hc, ne_eq, Option.some.injEq]
    by_cases hi : i = .reset
    · rw [if_pos hi]
      exact ⟨fun _ => getLast?_count_snoc (by simp) hnot, fun hn => absurd hi hn⟩
    · refine ⟨fun h => absurd h hi, fun _ => ?_⟩
      simp [hi, hnot]

end Sys2Proof.Machine
end

section
/-! The watchdog's count (R89 to R92): what a Tick makes of `ARMED` and `WD_COUNT`, that nothing but a
Tick and the motion commands moves them, and so how long the armed window lasts. -/

namespace Sys2Proof.Machine

/-! ### One step -/

/-- A Tick leaves a disarmed watchdog, counts an armed one down, and disarms it at 0 (R90, R91). -/
theorem step_tick_watchdog {s t : State} {mA mB : Measurement} (h : step s = .next t)
    (hi : s.inputs.head? = some (.tick mA mB)) :
    (s.armed = false ∧ t.armed = false ∧ t.wdCount = s.wdCount) ∨
    (s.armed = true ∧ t.armed = true ∧ t.wdCount.toNat + 1 = s.wdCount.toNat) ∨
    (s.armed = true ∧ s.wdCount = 0#16 ∧ t.armed = false ∧ t.wdCount = 0#16) := by
  obtain ⟨rest, hi⟩ := List.head?_eq_some_iff.mp hi
  obtain ⟨p, hp, hcounts, hexpires⟩ := step_tick_cases hi
  cases ha : s.armed with
  | false =>
    cases (hcounts s.wdCount (by simp [ha])).symm.trans h
    exact .inl ⟨rfl, hp.armed.trans ha, by simp [ha]⟩
  | true =>
    by_cases hw : s.wdCount = 0#16
    · cases (hexpires ha hw).symm.trans h
      exact .inr (.inr ⟨rfl, hw, rfl, rfl⟩)
    · cases (hcounts s.wdCount fun hx => hw hx.2).symm.trans h
      refine .inr (.inl ⟨rfl, hp.armed.trans ha, ?_⟩)
      simpa [ha] using toNat_sub_one_add_one hw

/-- No command but the four motion commands moves the watchdog (R24, R89). -/
theorem exec_keeps_watchdog {i : Instr} {s t : State} (h : exec i s = .next t)
    (hi : i.isMotion = false) : t.armed = s.armed ∧ t.wdCount = s.wdCount := by
  rcases exec_cases h with ⟨rfl | rfl, -⟩ | ⟨rfl, -⟩ | ⟨x, rfl, -⟩ | ⟨ch, cle, idx, -, rfl⟩ |
    ⟨f, -, rfl, -⟩ | ⟨-, rfl⟩ | ⟨-, rfl⟩
  · cases hi
  · cases hi
  · cases hi
  · cases hi
  · simp
  · rcases writeAddressed_cases s f with ⟨-, h⟩ | ⟨-, h⟩ <;> rw [h] <;> simp
  · exact ⟨rfl, rfl⟩
  · exact ⟨rfl, rfl⟩

/-- A step that takes no Tick and commits no motion command leaves the watchdog (R24, R29). -/
theorem step_keeps_watchdog {s t : State} (h : step s = .next t)
    (hi : ∀ mA mB, s.inputs.head? ≠ some (.tick mA mB))
    (hmotion : ∀ i, s.nextCommit = some i → i.isMotion = false) :
    t.armed = s.armed ∧ t.wdCount = s.wdCount := by
  rcases step_motors h with ⟨-, hm⟩ | ⟨mA, mB, -, htick, -⟩ | ⟨i, u, hc, hu, he⟩
  · exact ⟨hm.armed, hm.wdCount⟩
  · exact absurd htick (hi mA mB)
  · obtain ⟨ha, hw⟩ := exec_keeps_watchdog he (hmotion i hc)
    exact ⟨ha.trans hu.armed, hw.trans hu.wdCount⟩

/-- A Tick counts as one. -/
theorem ticksAmong_one_of_tick {s : State} {mA mB : Measurement}
    (h : s.inputs.head? = some (.tick mA mB)) : s.ticksAmong 1 = 1 := by
  obtain ⟨rest, hi⟩ := List.head?_eq_some_iff.mp h
  simp [State.ticksAmong, hi, Input.isTick]

/-- Settles O42: a Tick has no edge out of the disarmed state, and every edge into it clears the
count. -/
theorem disarmedWatchdogReadsZero : Obligations.DisarmedWatchdogReadsZero := by
  refine ⟨fun s t mA mB hi hs h => ?_, fun s t h hs ht => ?_, fun s t hs h ht => ?_⟩
  · rcases step_tick_watchdog h hi with ⟨-, ha, hw⟩ | ⟨harmed, -⟩ | ⟨harmed, -⟩
    · exact ⟨ha, hw⟩
    · simp [hs] at harmed
    · simp [hs] at harmed
  · exact (step_watchdog h).disarmedCount (by simp [hs]) ht
  · exact (step_watchdog h).disarmedCount hs.disarmedCount ht

/-! ### The armed window -/

/-- Where a block stands that was armed with the count `n`, once `m` Ticks have fallen: within the
window, what is left of the count and the Ticks add up to `n`; past it, the block is disarmed (R92). -/
inductive ArmedWindow (n m : Nat) (t : State) : Prop
  | within (ha : t.armed = true) (hw : t.wdCount.toNat + m = n)
  | past (hm : n < m) (ha : t.armed = false) (hw : t.wdCount = 0#16)

/-- The watchdog alone says where in the window the block stands. -/
theorem ArmedWindow.of_kept {n m : Nat} {s t : State} (h : ArmedWindow n m s)
    (ha : t.armed = s.armed) (hw : t.wdCount = s.wdCount) : ArmedWindow n m t := by
  cases h with
  | within hsa hsw => exact .within (ha.trans hsa) (hw ▸ hsw)
  | past hm hsa hsw => exact .past hm (ha.trans hsa) (hw.trans hsw)

/-- One Tick moves the block on by one in the window, and out of it at count 0 (R90, R91). -/
theorem ArmedWindow.after_tick {n m : Nat} {s t : State} {mA mB : Measurement} (h : ArmedWindow n m s)
    (hstep : step s = .next t) (hi : s.inputs.head? = some (.tick mA mB)) :
    ArmedWindow n (m + 1) t := by
  rcases step_tick_watchdog hstep hi with ⟨hs, ha, hw⟩ | ⟨hs, ha, hw⟩ | ⟨hs, h0, ha, hw⟩
  · cases h with
    | within hsa => simp [hs] at hsa
    | past hm _ hsw => exact .past (by omega) ha (hw.trans hsw)
  · cases h with
    | within _ hsw => exact .within ha (by omega)
    | past _ hsa => simp [hs] at hsa
  · cases h with
    | within _ hsw =>
      have hzero : s.wdCount.toNat = 0 := by simp [h0]
      exact .past (by omega) ha hw
    | past _ hsa => simp [hs] at hsa

/-- A step that commits no motion command moves the block on by the Ticks it takes (R92). -/
theorem ArmedWindow.after_step {n m : Nat} {s t : State} (h : ArmedWindow n m s)
    (hstep : step s = .next t) (hmotion : ∀ i, s.nextCommit = some i → i.isMotion = false) :
    ArmedWindow n (m + s.ticksAmong 1) t := by
  by_cases hi : ∃ mA mB, s.inputs.head? = some (.tick mA mB)
  · obtain ⟨mA, mB, hi⟩ := hi
    rw [ticksAmong_one_of_tick hi]
    exact h.after_tick hstep hi
  · have hn : ∀ mA mB, s.inputs.head? ≠ some (.tick mA mB) := fun mA mB ht => hi ⟨mA, mB, ht⟩
    obtain ⟨ha, hw⟩ := step_keeps_watchdog hstep hn hmotion
    rw [ticksAmong_one_of_not_tick hn]
    exact h.of_kept ha hw

/-- A run without motion commands completes, and moves the block on by the Ticks that fall in it
(R92). -/
theorem ArmedWindow.after_run {n : Nat} : ∀ (k m : Nat) (s : State), s.Inv → ArmedWindow n m s →
    s.commitsNo Instr.isMotion k = true →
    ∃ t, run k s = .next t ∧ ArmedWindow n (m + s.ticksAmong k) t
  | 0, _, s, _, h, _ => ⟨s, run_zero s, h⟩
  | k + 1, m, s, hs, h, hn => by
    obtain ⟨u, hstep⟩ := everyInputHasItsTransition s hs
    obtain ⟨hmotion, hrest⟩ := commitsNo_succ hstep hn
    rw [run_succ k hstep, ticksAmong_succ k hstep, ← Nat.add_assoc]
    exact ArmedWindow.after_run k _ u (everyStepKeepsTheInvariants s u hs hstep)
      (h.after_step hstep hmotion) hrest

/-- Settles O46: the window begins with no Tick fallen and the whole count left. -/
theorem armedWindowLastsTheTimeoutPlusOneTicks :
    Obligations.ArmedWindowLastsTheTimeoutPlusOneTicks := by
  intro k s hs ha hn
  obtain ⟨t, hrun, hwindow⟩ := ArmedWindow.after_run k 0 s hs (.within ha (Nat.add_zero _)) hn
  rw [Nat.zero_add] at hwindow
  refine ⟨t, hrun, ?_⟩
  cases hwindow with
  | within hta htw => exact ⟨fun _ => ⟨hta, htw⟩, fun hlt => by omega⟩
  | past hm hta htw => exact ⟨fun hle => by omega, fun _ => ⟨hta, htw⟩⟩

end Sys2Proof.Machine
end

section
/-! The renewal race (R119, R136): a GO and the Tick that finds the count 0, in either order. -/

namespace Sys2Proof.Machine

/-- The byte that completes an instruction commits it, on a block that only the receiver has moved
(R95). -/
theorem step_completes {s : State} {b : Byte} {rest : List Input} {i : Instr}
    (hi : s.inputs = .rxByte b :: rest) (hc : s.completes b = some i) :
    ∃ u, SameBlock s u ∧ u.inputs = rest ∧ step s = commit i u := by
  cases hs : s.rxState with
  | idle =>
    exact ⟨_, sameBlock_receiver s s.rxState s.rxOp s.rxCnt s.rxBuf rest, rfl,
      step_completes_idle hi hs hc⟩
  | payload =>
    exact ⟨_, sameBlock_receiver s .idle s.rxOp 0 (s.rxBuf.setIfInBounds s.rxCnt b) rest, rfl,
      step_completes_payload hi hs hc⟩
  | discard => simp [completes_discard s b hs] at hc

/-- The last byte of a GO arms the block with the timeout, and leaves the channels (R106). -/
theorem step_completes_go {s : State} {b : Byte} {rest : List Input} {x : Half}
    (hi : s.inputs = .rxByte b :: rest) (hc : s.completes b = some (.go x)) :
    ∃ t, step s = .next t ∧ t.armed = true ∧ t.wdCount = x ∧ t.inputs = rest ∧
      (∀ ch, t.chan ch = s.chan ch) ∧ Appended s t [.annActivity Opcode.go.code] := by
  obtain ⟨u, hu, hrest, hstep⟩ := step_completes hi hc
  refine ⟨(u.emit (.annActivity Opcode.go.code)).arm x, hstep, rfl, rfl, hrest, fun ch => ?_, ?_⟩
  · rw [← hu.chan ch]
    cases ch <;> rfl
  · simp [Appended, hu.history]

/-- A Tick does not touch the frame being received, so what a byte completes is the same after it
(R42). -/
theorem TickFrame.completes {s t : State} (h : TickFrame s t) (b : Byte) :
    t.completes b = s.completes b := by
  obtain ⟨-, hst, hop, hcnt, hbuf, -⟩ := h
  simp only [State.completes, State.frameWith, hst, hop, hcnt, hbuf]

theorem Appended.trans {s u t : State} {l l' : List Event} (h : Appended s u l)
    (h' : Appended u t l') : Appended s t (l ++ l') := by
  unfold Appended at h h' ⊢
  rw [h', h, List.append_assoc]

/-- A Tick that finds the block armed and the count not 0 takes one from the count, and expires
nothing (R90). -/
theorem step_tick_counts {s : State} {mA mB : Measurement} {rest : List Input}
    (hi : s.inputs = .tick mA mB :: rest) (ha : s.armed = true) (hw : s.wdCount ≠ 0#16) :
    ∃ t l, step s = .next t ∧ t.armed = true ∧ t.wdCount = s.wdCount - 1#16 ∧
      Appended s t l ∧ .annExpired ∉ l := by
  obtain ⟨p, hp, hcounts, -⟩ := step_tick_cases hi
  refine ⟨_, _, hcounts s.wdCount fun h => hw h.2, hp.armed.trans ha, if_pos ha, hp.history, ?_⟩
  simp [(channelEvents_phaseTwo s p mA mB).not_mem (e := .annExpired) rfl]

/-- A Tick that finds the block armed and the count 0 stops both channels and says so; the receiver
keeps the frame it is in (R64, R76, R90). -/
theorem step_tick_expires {s : State} {mA mB : Measurement} {rest : List Input}
    (hi : s.inputs = .tick mA mB :: rest) (ha : s.armed = true) (hw : s.wdCount = 0#16) :
    ∃ t l, step s = .next t ∧ TickFrame s t ∧ t.inputs = rest ∧
      (∀ ch, (t.chan ch).duty = 0#16 ∧ (t.chan ch).eint = posZero) ∧
      Appended s t l ∧ .annExpired ∈ l := by
  obtain ⟨p, hp, -, hexpires⟩ := step_tick_cases hi
  have hstop : Appended p p.expired _ := rfl
  refine ⟨_, _, hexpires ha hw, hp.frame, hp.inputs, fun ch => ?_,
    Appended.trans hp.history hstop, by simp⟩
  rw [expired_chan]
  exact ⟨rfl, rfl⟩

/-- Settles O48: GO first, the Tick finds the new timeout; Tick first, it expires, and the GO that it
leaves in the receiver arms the block again. -/
theorem renewalRaceHasBothOutcomes : Obligations.RenewalRaceHasBothOutcomes := by
  intro s b x mA mB rest ha hw hc hx
  refine ⟨fun hi => ?_, fun hi => ?_⟩
  · obtain ⟨u, hgo, hua, huw, hui, -, hgoEvents⟩ := step_completes_go hi hc
    obtain ⟨t, l, htick, hta, htw, hevents, hnot⟩ := step_tick_counts hui hua (huw ▸ hx)
    refine ⟨t, _, ?_, hta, huw ▸ htw, hgoEvents.trans hevents, by simp [hnot]⟩
    rw [run_succ 1 hgo, run_one, htick]
  · obtain ⟨u, l, htick, hframe, hui, hstopped, hevents, hmem⟩ := step_tick_expires hi ha hw
    obtain ⟨t, hgo, hta, htw, -, hchan, hgoEvents⟩ :=
      step_completes_go hui ((hframe.completes b).trans hc)
    have hcleared : ∀ ch, (t.chan ch).duty = 0#16 ∧ (t.chan ch).eint = posZero := fun ch => by
      rw [hchan]
      exact hstopped ch
    obtain ⟨hdutyA, heintA⟩ := hcleared .a
    obtain ⟨hdutyB, heintB⟩ := hcleared .b
    refine ⟨t, _, ?_, hta, htw, heintA, heintB, hdutyA, hdutyB, hevents.trans hgoEvents,
      by simp [hmem]⟩
    rw [run_succ 1 htick, run_one, hgo]

end Sys2Proof.Machine
end

section
/-! The inputs that complete no frame: bytes in `DISCARD`, bytes on the way through a payload (R95,
R101), and reply reads (R102, R116). -/

namespace Sys2Proof.Machine

/-! ### Bytes in `DISCARD` -/

/-- A byte in `DISCARD` is taken and dropped, whatever it is (R95). -/
theorem step_discard {s : State} {b : Byte} {rest : List Input} (hi : s.inputs = .rxByte b :: rest)
    (hs : s.rxState = .discard) : step s = .next { s with inputs := rest } := by
  simp [step_input hi, accept, rxByte, hs]

/-- Settles O11, by induction on the bytes: the first one is dropped, and the receiver is in `DISCARD`
still. -/
theorem discardIgnoresEveryByte : Obligations.DiscardIgnoresEveryByte := by
  intro bytes
  induction bytes with
  | nil =>
    intro s rest _ hi
    have hrest : s.inputs = rest := hi
    rw [List.length_nil, run_zero, ← hrest]
  | cons b bytes ih =>
    intro s rest hs hi
    have hdropped : step s = .next { s with inputs := bytes.map .rxByte ++ rest } :=
      step_discard hi hs
    rw [List.length_cons, run_succ _ hdropped]
    exact ih _ rest hs rfl

/-! ### Bytes on the way through a payload -/

/-- A payload length is that of a defined opcode (R49). -/
theorem payloadLen_eq_some_iff {b : Byte} {n : Nat} :
    payloadLen b = some n ↔ ∃ o, opcodeOf b = some o ∧ o.len = n := Option.map_eq_some_iff

/-- Settles O8: the opcode's payload is not empty, so it opens; the staged byte is not its last, so
nothing commits. -/
theorem payloadBytesAreOnlyStaged : Obligations.PayloadBytesAreOnlyStaged := by
  intro s b rest n hi
  refine ⟨fun hs hlen hpos => ?_, fun hs hlen hmore => ?_⟩
  · obtain ⟨o, ho, rfl⟩ := payloadLen_eq_some_iff.mp hlen
    rw [step_opcode hi hs ho, if_neg hpos.ne']
  · obtain ⟨o, ho, rfl⟩ := payloadLen_eq_some_iff.mp hlen
    rw [step_payloadByte hi hs ho (Nat.lt_of_succ_lt hmore), if_neg hmore.ne]

/-! ### Reply reads -/

/-- Settles O22: a reply read moves the reply pointer and the history alone, within the reply and past
it. -/
theorem replyReadKeepsTheReceiver : Obligations.ReplyReadKeepsTheReceiver := by
  intro s rest hi
  refine ⟨State.txRead { s with inputs := rest }, step_input hi, ?_⟩
  rcases txRead_cases { s with inputs := rest } with ⟨b, -, hread⟩ | ⟨-, hread⟩
  · rw [hread]
    exact ⟨rfl, rfl, rfl, rfl⟩
  · rw [hread]
    exact ⟨rfl, rfl, rfl, rfl⟩

end Sys2Proof.Machine
end

section
/-! RESET and GO (R104, R106), and where a commit leaves the receiver (R95). -/

namespace Sys2Proof.Machine

/-- All that arming does (R106). -/
theorem arm_eq (s : State) (t : Half) : s.arm t = { s with armed := true, wdCount := t } := rfl

/-- Settles O16: GO is the arming. -/
theorem goArmsAndLoadsTheTimeout : Obligations.GoArmsAndLoadsTheTimeout := fun t s =>
  congrArg Host.Outcome.next (arm_eq s t)

/-- A commit takes a byte. -/
theorem inputs_of_nextCommit {s : State} {i : Instr} (h : s.nextCommit = some i) :
    ∃ b rest, s.inputs = .rxByte b :: rest := by
  unfold State.nextCommit at h
  split at h
  · next b rest hi => exact ⟨b, rest, hi⟩
  · cases h

/-- The byte that completes an instruction leaves the receiver in `IDLE`: RxByte goes there before the
command runs, and no command touches the receiver (R95, R98). -/
theorem rxByte_idle_of_completes {b : Byte} {s t : State} {i : Instr}
    (hc : s.completes b = some i) (h : rxByte b s = .next t) : t.rxState = .idle := by
  rcases rxByte_cases h with ⟨j, buf, cnt, -, he, -, -⟩ | ⟨hnone, -⟩
  · obtain ⟨hidle, -⟩ := exec_frame he
    exact hidle
  · cases hnone.symm.trans hc

/-- After any commit the receiver is in `IDLE` (R95, R130). -/
theorem step_idle_of_nextCommit {s t : State} {i : Instr} (hc : s.nextCommit = some i)
    (h : step s = .next t) : t.rxState = .idle := by
  obtain ⟨b, rest, hi⟩ := inputs_of_nextCommit hc
  rw [nextCommit_rxByte hi] at hc
  rw [step_input hi] at h
  exact rxByte_idle_of_completes hc h

/-- Settles O15: what RESET writes are the power-on values of the registers that R130 does not except,
so its equation is the one over `State.reset`. -/
theorem resetCommandEqualsPowerOnButForDiagnostics :
    Obligations.ResetCommandEqualsPowerOnButForDiagnostics :=
  ⟨execReset_eq, fun _ _ _ => step_idle_of_nextCommit⟩

end Sys2Proof.Machine
end

section
/-! SET_CHANNEL_MODE by its four cases (R107, R108), and the block at power-on (R129). -/

namespace Sys2Proof.Machine

/-! ### SET_CHANNEL_MODE -/

/-- `Exec` of SET_CHANNEL_MODE writes `SEL` and the selected channel (R108). -/
theorem exec_setChannelMode (ch : ChannelId) (cle : Bool) (idx : SensorIndex) (s : State) :
    exec (.setChannelMode ch cle idx) s =
      .next (({ s with sel := ch } : State).setChan ch ((s.chan ch).setMode cle idx)) := rfl

/-- What a change of mode clears: the six PID registers and the duty (R107, R108). -/
def Channel.fresh (c : Channel) : Channel := { c.clearPid with duty := 0#16 }

/-- The four cases of the enable bit and the present mode (R108). -/
theorem setMode_eq (c : Channel) (cle : Bool) (idx : SensorIndex) : c.setMode cle idx =
    match cle, c.cl with
    | true, false => { c.fresh with cl := true, sensor := idx }
    | true, true => { c with sensor := idx }
    | false, true => { c.fresh with cl := false, sensor := 0#6 }
    | false, false => { c with sensor := 0#6 } := by
  cases cle <;> cases hcl : c.cl <;> simp [Channel.setMode, Channel.fresh, hcl]

/-- Settles O17: the command writes `SEL` and the selected channel, which takes the case of its enable
bit and its present mode. -/
theorem setChannelModeConfiguresTheSelectedChannel :
    Obligations.SetChannelModeConfiguresTheSelectedChannel := by
  intro ch cle idx s
  rw [exec_setChannelMode, setMode_eq]
  cases ch with
  | a => rfl
  | b => rfl

/-! ### Power-on -/

theorem chan_reset (ch : ChannelId) : State.reset.chan ch = Channel.reset := by cases ch <;> rfl

/-- Settles O34: both channels have their reset registers, and with no input the block waits. -/
theorem powerOnStateIsTheTableAndWaits : Obligations.PowerOnStateIsTheTableAndWaits :=
  ⟨chan_reset, rfl, rfl, rfl, rfl, rfl, rfl, by decide, rfl, rfl, rfl, rfl, rfl, step_waits rfl⟩

end Sys2Proof.Machine
end

section
/-! Reply reads (R116): one of them as an equation, and then any number in a row. -/

namespace Sys2Proof.Machine

/-- A reply read from a pointer within the reply gives the byte there, or 0x00 at the end, and moves the
pointer no further than the end (R116). -/
theorem step_txRead {s : State} {rest : List Input} (hi : s.inputs = .txRead :: rest)
    (hptr : s.replyPtr ≤ s.reply.length) : step s = .next { s with
      inputs := rest
      replyPtr := min (s.replyPtr + 1) s.reply.length
      history := s.history ++ [.txByte (s.reply[s.replyPtr]?.getD 0x00#8)] } := by
  have hstep : step s = .next (State.txRead { s with inputs := rest }) := step_input hi
  rw [hstep]
  rcases txRead_cases { s with inputs := rest } with ⟨b, hb, hread⟩ | ⟨hend, hread⟩
  · obtain ⟨hlt, -⟩ := List.getElem?_eq_some_iff.mp hb
    rw [hread, Nat.min_eq_left hlt, hb]
    rfl
  · have hlast : s.replyPtr = s.reply.length := Nat.le_antisymm hptr hend
    rw [hread, Nat.min_eq_right (Nat.le_succ_of_le hend), List.getElem?_eq_none hend]
    simp [← hlast]

/-- The bytes that `k` reads give from place `p` of a reply: what is left of it, then zeros (R116). -/
def replyBytes (l : List Byte) (p k : Nat) : List Byte :=
  (l.drop p ++ List.replicate k 0x00#8).take k

/-- The first of the bytes read, and the others from the next place (R116). -/
theorem replyBytes_succ {l : List Byte} {p : Nat} (k : Nat) (hp : p ≤ l.length) :
    replyBytes l p (k + 1) =
      l[p]?.getD 0x00#8 :: replyBytes l (min (p + 1) l.length) k := by
  unfold replyBytes
  rcases Nat.lt_or_eq_of_le hp with hlt | rfl
  · rw [List.drop_eq_getElem_cons hlt, List.getElem?_eq_getElem hlt, Nat.min_eq_left hlt,
      List.cons_append, List.take_succ_cons, List.replicate_succ', ← List.append_assoc,
      List.take_append_of_le_length (by simp), Option.getD_some]
  · simp [List.replicate_succ]

/-- Settles O21, by induction on the reads: one read keeps the pointer within the reply. -/
theorem replyReadsGiveTheBytesInOrder : Obligations.ReplyReadsGiveTheBytesInOrder := by
  intro k
  induction k with
  | zero =>
    intro s rest hptr hi
    have hrest : s.inputs = rest := hi
    rw [run_zero, ← hrest]
    simp [hptr]
  | succ k ih =>
    intro s rest hptr hi
    rw [run_succ k (step_txRead hi hptr), ih _ rest (Nat.min_le_right _ _) rfl]
    have hbytes := replyBytes_succ k hptr
    unfold replyBytes at hbytes
    have hmin : min (min (s.replyPtr + 1) s.reply.length + k) s.reply.length =
        min (s.replyPtr + (k + 1)) s.reply.length := by omega
    rw [hbytes, hmin]
    simp

end Sys2Proof.Machine
end

section
/-! Sums, differences and products by the classes of their operands (R77): which of them are NaN, which
infinity an infinite operand gives, and the sign of a zero. -/

namespace Sys2Proof.Machine

/-! ### Infinite operands -/

theorem classify_nanF64 (n : NanBits) : classify (nanF64 n) = .nan :=
  (isNan_iff _).mp (isNan_nanF64 n)

theorem classify_packF64_inf (neg : Bool) : classify (packF64 neg infMagnitude) = .inf neg := by
  rw [classify_packF64 neg (by decide), if_neg (lt_irrefl _), if_pos rfl]

/-- Multiplication commutes (R77). -/
theorem fmul_comm (n : NanBits) (a b : F64) : fmul n a b = fmul n b a := by
  cases ha : classify a <;> cases hb : classify b <;>
    simp [fmul, ha, hb, Nat.mul_comm, Bool.xor_comm]

section
variable {n : NanBits} {a b : F64} {s s' : Bool} {u u' : Nat}

/-- Infinities of one sign add to it, and opposite ones to a NaN (R77). -/
theorem classify_fadd_inf_inf (ha : classify a = .inf s) (hb : classify b = .inf s') :
    classify (fadd n a b) = if s = s' then .inf s else .nan := by
  simp only [fadd, ha, hb, apply_ite classify, classify_packF64_inf, classify_nanF64]

/-- An infinity absorbs a finite summand (R77). -/
theorem classify_fadd_inf_fin (ha : classify a = .inf s) (hb : classify b = .fin s' u) :
    classify (fadd n a b) = .inf s := by
  simp only [fadd, ha, hb, classify_packF64_inf]

/-- Infinities multiply to the infinity of the product's sign (R77). -/
theorem classify_fmul_inf_inf (ha : classify a = .inf s) (hb : classify b = .inf s') :
    classify (fmul n a b) = .inf (s ^^ s') := by
  simp only [fmul, ha, hb, classify_packF64_inf]

/-- An infinity absorbs a finite factor other than a zero; with a zero the product is a NaN (R77). -/
theorem classify_fmul_inf_fin (ha : classify a = .inf s) (hb : classify b = .fin s' u) :
    classify (fmul n a b) = if u = 0 then .nan else .inf (s ^^ s') := by
  simp only [fmul, ha, hb, apply_ite classify, classify_packF64_inf, classify_nanF64]

/-! ### NaN results -/

/-- Finite summands give no NaN (R77). -/
theorem isNan_fadd_fin (ha : classify a = .fin s u) (hb : classify b = .fin s' u') :
    isNan (fadd n a b) = false := by
  rw [fadd_fin ha hb]
  split_ifs
  · exact isNan_packF64 _ (Nat.zero_le _)
  · exact isNan_roundF64 _ _ _

/-- Finite factors give no NaN (R77). -/
theorem isNan_fmul_fin (ha : classify a = .fin s u) (hb : classify b = .fin s' u') :
    isNan (fmul n a b) = false := by
  rw [fmul_fin ha hb]
  exact isNan_roundF64 _ _ _

end

/-- A sum is a NaN where an operand is one, and for opposite infinities (R77). -/
theorem isNan_fadd_iff (n : NanBits) (a b : F64) : isNan (fadd n a b) = true ↔
    isNan a = true ∨ isNan b = true ∨ ∃ s, classify a = .inf s ∧ classify b = .inf (!s) := by
  simp only [isNan_iff]
  cases ha : classify a with
  | nan => simp [fadd_nan (.inl ha), classify_nanF64]
  | inf s =>
    cases hb : classify b with
    | nan => simp [fadd_nan (.inr hb), classify_nanF64]
    | inf s' => cases s <;> cases s' <;> simp [classify_fadd_inf_inf ha hb]
    | fin s' u => simp [classify_fadd_inf_fin ha hb]
  | fin s u =>
    cases hb : classify b with
    | nan => simp [fadd_nan (.inr hb), classify_nanF64]
    | inf s' => simp [fadd_comm n a b, classify_fadd_inf_fin hb ha]
    | fin s' u' => simp [(isNan_eq_false_iff _).mp (isNan_fadd_fin ha hb)]

/-- A product is a NaN where an operand is one, and for a zero and an infinity (R77). -/
theorem isNan_fmul_iff (n : NanBits) (a b : F64) : isNan (fmul n a b) = true ↔
    isNan a = true ∨ isNan b = true ∨
      ((∃ s, classify a = .inf s) ∧ ∃ s, classify b = .fin s 0) ∨
      ((∃ s, classify a = .fin s 0) ∧ ∃ s, classify b = .inf s) := by
  simp only [isNan_iff]
  cases ha : classify a with
  | nan => simp [fmul_nan (.inl ha), classify_nanF64]
  | inf s =>
    cases hb : classify b with
    | nan => simp [fmul_nan (.inr hb), classify_nanF64]
    | inf s' => simp [classify_fmul_inf_inf ha hb]
    | fin s' u => simp [classify_fmul_inf_fin ha hb]
  | fin s u =>
    cases hb : classify b with
    | nan => simp [fmul_nan (.inr hb), classify_nanF64]
    | inf s' => simp [fmul_comm n a b, classify_fmul_inf_fin hb ha]
    | fin s' u' => simp [(isNan_eq_false_iff _).mp (isNan_fmul_fin ha hb)]

/-- Settles O51: opposite infinities are `+inf` and `-inf`, in either order. -/
theorem nanResultsAreExactlyTheInvalidOperations :
    Obligations.NanResultsAreExactlyTheInvalidOperations := by
  intro n a b
  refine ⟨(isNan_fadd_iff n a b).trans ?_, isNan_fmul_iff n a b⟩
  rw [Bool.exists_bool, Bool.not_false, Bool.not_true]

/-- A difference is a NaN where an operand is one, and for an infinity less itself (R77). -/
theorem isNan_fsub_iff (n : NanBits) (a b : F64) : isNan (fsub n a b) = true ↔
    isNan a = true ∨ isNan b = true ∨ ∃ s, classify a = .inf s ∧ classify b = .inf s := by
  have hnan : isNan (fneg b) = true ↔ isNan b = true := by
    rw [isNan_iff, isNan_iff, classify_fneg]
    cases classify b <;> simp
  have hinf (s : Bool) : classify (fneg b) = .inf (!s) ↔ classify b = .inf s := by
    rw [classify_fneg]
    cases classify b <;> simp
  rw [fsub, isNan_fadd_iff]
  simp only [hnan, hinf]

/-- Settles O58: a difference is the sum with the negated operand, and sums and products commute. -/
theorem infiniteOperandsGiveTheirInfinity : Obligations.InfiniteOperandsGiveTheirInfinity := by
  intro n a b s s' u
  refine ⟨fun ha hb => ?_, fun ha hb => ?_, isNan_fsub_iff n a b⟩
  · have hneg : classify (fneg b) = .inf (!s') := by rw [classify_fneg, hb]
    refine ⟨fun heq => ?_, fun hne => ?_, classify_fmul_inf_inf ha hb⟩
    · rw [classify_fadd_inf_inf ha hb, if_pos heq]
    · rw [fsub, classify_fadd_inf_inf ha hneg, if_pos (Bool.eq_not.mpr hne)]
  · have hnegA : classify (fneg a) = .inf (!s) := by rw [classify_fneg, ha]
    have hnegB : classify (fneg b) = .fin (!s') u := by rw [classify_fneg, hb]
    refine ⟨classify_fadd_inf_fin ha hb, ?_, classify_fadd_inf_fin ha hnegB, ?_, fun hu => ?_⟩
    · rw [fadd_comm, classify_fadd_inf_fin ha hb]
    · rw [fsub, fadd_comm, classify_fadd_inf_fin hnegA hb]
    · rw [fmul_comm n b a, classify_fmul_inf_fin ha hb, if_neg hu]
      exact ⟨rfl, rfl⟩

/-! ### Zero results -/

/-- Settles O52: the two facts of the zero-error property. -/
theorem zeroErrorArithmetic : Obligations.ZeroErrorArithmetic := fun n _ hx =>
  ⟨fsub_self n hx, fadd_posZero n (isNan_eq_false_of_isFinite hx)⟩

/-- The negative zero among the finite values (R55). -/
theorem eq_negZero_iff {x : F64} {s : Bool} {u : Nat} (h : classify x = .fin s u) :
    x = negZero ↔ s = true ∧ u = 0 := by
  refine ⟨?_, ?_⟩
  · rintro rfl
    exact F64Class.fin.inj (h.symm.trans classify_negZero)
  · rintro ⟨rfl, rfl⟩
    exact eq_zero_of_classify h

/-- The positive zero among the finite values (R55). -/
theorem eq_posZero_iff {x : F64} {s : Bool} {u : Nat} (h : classify x = .fin s u) :
    x = posZero ↔ s = false ∧ u = 0 := by
  refine ⟨?_, ?_⟩
  · rintro rfl
    exact F64Class.fin.inj (h.symm.trans classify_posZero)
  · rintro ⟨rfl, rfl⟩
    exact eq_zero_of_classify h

/-- An exact sum of zero is `+0.0`, but `-0.0` for two negative zeros: negative operands add to zero
only where both are zeros (R77). -/
theorem fadd_of_sum_eq_zero (n : NanBits) {a b : F64} {sa sb : Bool} {ua ub : Nat}
    (ha : classify a = .fin sa ua) (hb : classify b = .fin sb ub)
    (hsum : signedUnits sa ua + signedUnits sb ub = 0) :
    fadd n a b = if a = negZero ∧ b = negZero then negZero else posZero := by
  have hboth : (sa && sb) = true ↔ a = negZero ∧ b = negZero := by
    rw [eq_negZero_iff ha, eq_negZero_iff hb, Bool.and_eq_true_iff]
    refine ⟨?_, fun ⟨⟨hsa, _⟩, hsb, _⟩ => ⟨hsa, hsb⟩⟩
    rintro ⟨rfl, rfl⟩
    simp only [signedUnits, if_true] at hsum
    exact ⟨⟨rfl, by omega⟩, rfl, by omega⟩
  rw [fadd_fin ha hb, if_pos hsum, packF64_zero]
  exact if_congr hboth rfl rfl

/-- Settles O57: a difference is the sum with the negated operand, which is `-0.0` where the operand is
`+0.0`. -/
theorem zeroSumsAndDifferencesHaveTheirSign : Obligations.ZeroSumsAndDifferencesHaveTheirSign := by
  intro n a b sa sb ua ub ha hb
  refine ⟨fadd_of_sum_eq_zero n ha hb, fun heq => ?_⟩
  have hneg : classify (fneg b) = .fin (!sb) ub := by rw [classify_fneg, hb]
  have hsum : signedUnits sa ua + signedUnits (!sb) ub = 0 := by
    rw [signedUnits_not, heq, Int.add_right_neg]
  have hzero : fneg b = negZero ↔ b = posZero := by
    rw [eq_negZero_iff hneg, eq_posZero_iff hb, Bool.not_eq_true']
  rw [fsub, fadd_of_sum_eq_zero n ha hneg hsum]
  simp only [hzero]

end Sys2Proof.Machine
end
